-- ==== Sys2Proof/Word.lean ====
section
/-! DEFINITION. The word types of the model (spec 00_scope.md rules R4, R5): bytes and addresses. -/

namespace Sys2Proof

/-- One 8-bit byte (R30). -/
abbrev Byte := BitVec 8

/-- A linear address, or the content of a general register in 64-bit mode (R13, R14, R30). -/
abbrev Addr := BitVec 64

end Sys2Proof
end

