-- ==== Sys2Proof/Config.lean ====
section
/-! DEFINITION. The launch parameters of spec 00_scope.md rule R4: execution mode, feature flags, register widths,
address width, the platform's accessible ranges and the program's place. They are fields of State, so every statement
quantifies over them. -/

namespace Sys2Proof

/-- The two execution modes the instruction forms run in (R4 `MODE`, D2). -/
inductive ExecMode where
  /-- 64-bit mode. -/
  | m64
  /-- Protected or compatibility mode with a 32-bit code segment. -/
  | m32
deriving DecidableEq, Repr

/-- The processor's mode: one of the two execution modes, or one the model refuses (D2). -/
inductive Mode where
  | admitted (m : ExecMode)
  /-- The mode after a hardware reset (R21). -/
  | realAddress
  | virtual8086
  /-- A 16-bit code segment. -/
  | code16
  | systemManagement
deriving DecidableEq, Repr

/-- `W`: bits of a linear address in the mode (R30, R43). -/
def ExecMode.addrBits : ExecMode → Nat
  | .m64 => 64
  | .m32 => 32

/-- The CPUID feature flags the forms table names (R4, R16, D19). -/
structure Features where
  mmx : Bool
  sse2 : Bool
  avx : Bool
  avx2 : Bool
  avx512f : Bool
  avx512bw : Bool
  avx512vl : Bool
  avx10 : Bool
deriving DecidableEq, Repr

/-- `MAXVL` (R4, D18). -/
inductive MaxVl where
  | v128
  | v256
  | v512
deriving DecidableEq, Repr

def MaxVl.bits : MaxVl → Nat
  | .v128 => 128
  | .v256 => 256
  | .v512 => 512

/-- `MAX_KL` (R4, D18). -/
inductive MaxKl where
  | k16
  | k64
deriving DecidableEq, Repr

def MaxKl.bits : MaxKl → Nat
  | .k16 => 16
  | .k64 => 64

/-- `VA_BITS` (R4, D4). -/
inductive VaBits where
  | va48
  | va57
deriving DecidableEq, Repr

def VaBits.bits : VaBits → Nat
  | .va48 => 48
  | .va57 => 57

/-- What the processor's implementation fixes (R4). -/
structure Cpu where
  features : Features
  maxVl : MaxVl
  maxKl : MaxKl
  vaBits : VaBits
deriving DecidableEq, Repr

/-- `MAXVL` is 512 when any EVEX form is admitted, at least 256 when any VEX form is (R4), and `MAX_KL` is 64 when a byte
or word opmask form is (R4, R8, D18). Where R4 gives `MAXVL` one value, D18's "at least" is followed (log 6). A processor
that breaks this is none the spec speaks of. -/
def Cpu.consistent (c : Cpu) : Bool :=
  let vex := c.features.avx || c.features.avx2
  let evex := c.features.avx512f || c.features.avx512bw || c.features.avx10
  (!evex || c.maxVl == .v512) &&
  (!vex || c.maxVl != .v128) &&
  (!(c.features.avx512bw || c.features.avx10) || c.maxKl == .k64)

/-- A range of linear addresses that can be read as data (`Accessible`, R4, D4). -/
structure Region where
  base : Nat
  size : Nat
deriving DecidableEq, Repr

/-- `CODE_BASE` and `CODE_LEN` (R4, R183). -/
structure CodeRange where
  base : Addr
  len : Nat
deriving DecidableEq, Repr

end Sys2Proof
end

