-- ==== Sys2Proof/Syntax.lean ====
section
/-! DEFINITION. The 21 instruction forms of spec 30_encoding.md rule R68 as syntax. A term keeps every field of the
encoding, the ignored ones too (prefix order, an idle REX bit, W where it is ignored, the C5 or the C4 spelling), under
the spec's own field names, so that each admitted byte string has exactly one term and its length is a function of the
term (R61). -/

namespace Sys2Proof

/-- The six segments a memory operand may be addressed through (R22, R60). -/
inductive Seg where
  | es | cs | ss | ds | fs | gs
deriving DecidableEq, Repr

/-- A legacy prefix that an admitted form may carry (R51, D15). -/
inductive Pfx where
  | seg (s : Seg)
  /-- 66H. -/
  | opSize
  /-- 67H. -/
  | addrSize
deriving DecidableEq, Repr

/-- A prefix of the group F0H, F2H, F3H; no admitted form carries one (R51, R69). -/
inductive LockRep where
  /-- F0H. -/
  | lock
  /-- F2H. -/
  | repne
  /-- F3H. -/
  | rep
deriving DecidableEq, Repr

/-- What one prefix byte is. -/
inductive PfxByte where
  | plain (p : Pfx)
  | lockRep (l : LockRep)
deriving DecidableEq, Repr

/-- The REX prefix `0100WRXB` (R52). -/
structure Rex where
  w : Bool
  r : Bool
  x : Bool
  b : Bool
deriving DecidableEq, Repr

/-- The displacement that `mod` 00, 01, 10 calls for (R57). -/
inductive Disp where
  | none
  | d8 (d : BitVec 8)
  | d32 (d : BitVec 32)
deriving DecidableEq, Repr

/-- A memory operand as ModRM, SIB and displacement spell it (R57, R58). -/
inductive MemRef where
  /-- `rm` is the base register, no SIB byte. -/
  | base (rm : BitVec 3) (d : Disp)
  /-- `mod` = 00, `rm` = 101: RIP-relative in 64-bit mode, the displacement alone in 32-bit mode. -/
  | disp (d : BitVec 32)
  /-- SIB byte with a base register. -/
  | sib (scale : BitVec 2) (index base : BitVec 3) (d : Disp)
  /-- SIB byte with `mod` = 00 and `base` = 101: no base register. -/
  | sibDisp (scale : BitVec 2) (index : BitVec 3) (d : BitVec 32)
deriving DecidableEq, Repr

/-- The r/m operand (R55): a register when `mod` = 11, else memory. -/
inductive RegMem where
  | reg (rm : BitVec 3)
  | mem (a : MemRef)
deriving DecidableEq, Repr

/-- The fields of a legacy form (R50): prefixes in the order they stand, REX if there is one, ModRM. -/
structure LegacyEnc where
  pfx : List Pfx
  rex : Option Rex
  reg : BitVec 3
  rm : RegMem
deriving DecidableEq, Repr

/-- The two spellings of a VEX prefix (R62), the extension bits un-inverted. -/
inductive VexHead where
  /-- `C5 b1`. -/
  | two (r : Bool)
  /-- `C4 b1 b2`. -/
  | three (r x b w : Bool)
deriving DecidableEq, Repr

/-- The fields of a VEX form (R62, R63); `vvvv` un-inverted. -/
structure VexEnc where
  pfx : List Pfx
  head : VexHead
  vvvv : BitVec 4
  reg : BitVec 3
  rm : RegMem
deriving DecidableEq, Repr

/-- The fields of an EVEX form (R64, R65), un-inverted. `R`, `R'` and `z` are 0 in every admitted form and `L'L` is
the form's own, so none of them is a field. -/
structure EvexEnc where
  pfx : List Pfx
  x : Bool
  b : Bool
  w : Bool
  /-- `V':vvvv`, the number of the first source register. -/
  v5 : BitVec 5
  /-- EVEX.b, the broadcast bit. -/
  bcst : Bool
  aaa : BitVec 3
  reg : BitVec 3
  rm : RegMem
deriving DecidableEq, Repr

/-- Element size of a form, the low bits of its opcode byte (R68). -/
inductive Elem where
  | byte
  | word
  | dword
deriving DecidableEq, Repr

/-- Vector length of a VEX or EVEX form: VEX.L, EVEX.L'L (R62, R64). -/
inductive VecLen where
  | v128
  | v256
  | v512
deriving DecidableEq, Repr

/-- The 21 rows of spec/opcode_table.json. -/
inductive Instr where
  /-- row 1, R110 -/
  | pcmpeqbMmx (e : LegacyEnc)
  /-- row 2, R112 -/
  | pcmpeqbXmm (e : LegacyEnc)
  /-- row 3, R100 -/
  | pcmpeqwMmx (e : LegacyEnc)
  /-- row 4, R113 -/
  | pcmpeqwXmm (e : LegacyEnc)
  /-- row 5, R111 -/
  | pcmpeqdMmx (e : LegacyEnc)
  /-- row 6, R114 -/
  | pcmpeqdXmm (e : LegacyEnc)
  /-- row 7, R120 -/
  | vpcmpeqbVex128 (e : VexEnc)
  /-- row 8, R121 -/
  | vpcmpeqwVex128 (e : VexEnc)
  /-- row 9, R122 -/
  | vpcmpeqdVex128 (e : VexEnc)
  /-- row 10, R123 -/
  | vpcmpeqbVex256 (e : VexEnc)
  /-- row 11, R124 -/
  | vpcmpeqwVex256 (e : VexEnc)
  /-- row 12, R125 -/
  | vpcmpeqdVex256 (e : VexEnc)
  /-- row 13, R130 -/
  | vpcmpeqdEvex128 (e : EvexEnc)
  /-- row 14, R131 -/
  | vpcmpeqdEvex256 (e : EvexEnc)
  /-- row 15, R132 -/
  | vpcmpeqdEvex512 (e : EvexEnc)
  /-- row 16, R133 -/
  | vpcmpeqbEvex128 (e : EvexEnc)
  /-- row 17, R134 -/
  | vpcmpeqbEvex256 (e : EvexEnc)
  /-- row 18, R135 -/
  | vpcmpeqbEvex512 (e : EvexEnc)
  /-- row 19, R136 -/
  | vpcmpeqwEvex128 (e : EvexEnc)
  /-- row 20, R137 -/
  | vpcmpeqwEvex256 (e : EvexEnc)
  /-- row 21, R138 -/
  | vpcmpeqwEvex512 (e : EvexEnc)
deriving DecidableEq, Repr

/-- Why the decoder gives no instruction. -/
inductive DecodeError where
  /-- The bytes end before the instruction does. -/
  | truncated
  /-- The processor raises `#UD` (R69). -/
  | ud
  | unknownOpcode
  | misplacedRex
  | repeatedPrefix
  | reservedPrefix
  | rexOnMmxRegister
  | vexHighRegIn32
  | evexReservedField
  | addr16
deriving DecidableEq, Repr

end Sys2Proof
end

