-- ==== Sys2Proof/WellFormed.lean ====
section
/-! DEFINITION. Which terms of Instr are instructions of the spec in a given execution mode: exactly those the decoder
answers (spec 30_encoding.md rules R51, R52, R56 to R59, R63, R65). -/

namespace Sys2Proof

/-- Two prefixes of one group (R51, D15): two segment overrides, two 66H, or two 67H. -/
def Pfx.sameGroup : Pfx → Pfx → Bool
  | .seg _, .seg _ => true
  | .opSize, .opSize => true
  | .addrSize, .addrSize => true
  | _, _ => false

/-- At most one prefix of each group (D15). -/
def pfxWf : List Pfx → Bool
  | [] => true
  | p :: ps => ps.all (fun q => !p.sameGroup q) && pfxWf ps

/-- The forms of R57 and R58: `rm` = 100 is the SIB form, `mod` = 00 with `rm` = 101 the displacement form, and
`mod` = 00 with SIB `base` = 101 the form without a base. -/
def MemRef.wf : MemRef → Bool
  | .base rm d => rm != 4#3 && (d != .none || rm != 5#3)
  | .disp _ => true
  | .sib _ _ b d => d != .none || b != 5#3
  | .sibDisp _ _ _ => true

def RegMem.wf : RegMem → Bool
  | .reg _ => true
  | .mem a => a.wf

def RegMem.isReg : RegMem → Bool
  | .reg _ => true
  | .mem _ => false

/-- No memory operand with a 16-bit address size (R59, D26). -/
def addrSizeOk (m : ExecMode) (pfx : List Pfx) (rm : RegMem) : Bool :=
  !(m == .m32 && pfx.contains .addrSize) || rm.isReg

/-- What every form asks of its prefixes and its r/m operand. -/
def operandsWf (m : ExecMode) (pfx : List Pfx) (rm : RegMem) : Bool :=
  pfxWf pfx && rm.wf && addrSizeOk m pfx rm

/-- REX.R of a legacy form, 0 where there is no REX (R52, R57). -/
def LegacyEnc.r (e : LegacyEnc) : Bool := (e.rex.map (·.r)).getD false
def LegacyEnc.x (e : LegacyEnc) : Bool := (e.rex.map (·.x)).getD false
def LegacyEnc.b (e : LegacyEnc) : Bool := (e.rex.map (·.b)).getD false

/-- REX exists in 64-bit mode only (R52). -/
def LegacyEnc.wf (m : ExecMode) (e : LegacyEnc) : Bool :=
  operandsWf m e.pfx e.rm && (m == .m64 || e.rex.isNone)

/-- An MMX form: `NP`, and no REX bit that would name a high MMX register (R54, R56 (a), D22). -/
def LegacyEnc.wfMmx (m : ExecMode) (e : LegacyEnc) : Bool :=
  e.wf m && !e.pfx.contains .opSize && !e.r && !(e.b && e.rm.isReg)

/-- An SSE2 form carries 66H (R54). -/
def LegacyEnc.wfXmm (m : ExecMode) (e : LegacyEnc) : Bool :=
  e.wf m && e.pfx.contains .opSize

def VexHead.r : VexHead → Bool
  | .two r => r
  | .three r _ _ _ => r
def VexHead.x : VexHead → Bool
  | .two _ => false
  | .three _ x _ _ => x
def VexHead.b : VexHead → Bool
  | .two _ => false
  | .three _ _ b _ => b

/-- No 66H before VEX (R51); in 32-bit mode no register number above 7 (R62, R63). -/
def VexEnc.wf (m : ExecMode) (e : VexEnc) : Bool :=
  operandsWf m e.pfx e.rm && !e.pfx.contains .opSize &&
    (m == .m64 || (!e.head.r && !e.head.x && !e.head.b && !e.vvvv.msb))

/-- No 66H before EVEX (R51); in 32-bit mode no high register bit (R64, R65). -/
def EvexEnc.wf (m : ExecMode) (e : EvexEnc) : Bool :=
  operandsWf m e.pfx e.rm && !e.pfx.contains .opSize &&
    (m == .m64 || (!e.x && !e.b && !e.v5.getLsbD 3 && !e.v5.getLsbD 4))

/-- VPCMPEQD: `W0`, and broadcast only with a memory operand (R65). -/
def EvexEnc.wfD (m : ExecMode) (e : EvexEnc) : Bool :=
  e.wf m && !e.w && !(e.bcst && e.rm.isReg)

/-- VPCMPEQB and VPCMPEQW: no broadcast (R65). -/
def EvexEnc.wfBW (m : ExecMode) (e : EvexEnc) : Bool :=
  e.wf m && !e.bcst

/-- The instruction is one the spec admits in execution mode `m`. -/
def Instr.wf (m : ExecMode) : Instr → Bool
  | .pcmpeqbMmx e => e.wfMmx m
  | .pcmpeqbXmm e => e.wfXmm m
  | .pcmpeqwMmx e => e.wfMmx m
  | .pcmpeqwXmm e => e.wfXmm m
  | .pcmpeqdMmx e => e.wfMmx m
  | .pcmpeqdXmm e => e.wfXmm m
  | .vpcmpeqbVex128 e => e.wf m
  | .vpcmpeqwVex128 e => e.wf m
  | .vpcmpeqdVex128 e => e.wf m
  | .vpcmpeqbVex256 e => e.wf m
  | .vpcmpeqwVex256 e => e.wf m
  | .vpcmpeqdVex256 e => e.wf m
  | .vpcmpeqdEvex128 e => e.wfD m
  | .vpcmpeqdEvex256 e => e.wfD m
  | .vpcmpeqdEvex512 e => e.wfD m
  | .vpcmpeqbEvex128 e => e.wfBW m
  | .vpcmpeqbEvex256 e => e.wfBW m
  | .vpcmpeqbEvex512 e => e.wfBW m
  | .vpcmpeqwEvex128 e => e.wfBW m
  | .vpcmpeqwEvex256 e => e.wfBW m
  | .vpcmpeqwEvex512 e => e.wfBW m

end Sys2Proof
end

