-- ==== Sys2Proof/Decode.lean ====
section
/-! DEFINITION. The decoder of spec 30_encoding.md rule R72, total on any bytes, then the length of an instruction
(R61) and the encoder, both written from rules R50 to R66, and the reading of one opcode-table word (R73). -/

namespace Sys2Proof

abbrev DecodeResult := Except DecodeError (Instr × List Byte)

/-! ## Prefixes (R51) -/

/-- What a byte is as a prefix, if it is one (R51). -/
def pfxByteOf (b : Byte) : Option PfxByte :=
  if b = 0x26#8 then some (.plain (.seg .es))
  else if b = 0x2E#8 then some (.plain (.seg .cs))
  else if b = 0x36#8 then some (.plain (.seg .ss))
  else if b = 0x3E#8 then some (.plain (.seg .ds))
  else if b = 0x64#8 then some (.plain (.seg .fs))
  else if b = 0x65#8 then some (.plain (.seg .gs))
  else if b = 0x66#8 then some (.plain .opSize)
  else if b = 0x67#8 then some (.plain .addrSize)
  else if b = 0xF0#8 then some (.lockRep .lock)
  else if b = 0xF2#8 then some (.lockRep .repne)
  else if b = 0xF3#8 then some (.lockRep .rep)
  else none

/-- Step 1 of R72: read prefixes, refuse a second one of a group (R51, D15). -/
def readPrefixes (acc : List Pfx) (lr : Option LockRep) :
    List Byte → Except DecodeError (List Pfx × Option LockRep × List Byte)
  | [] => .error .truncated
  | b :: bs =>
    match pfxByteOf b with
    | none => .ok (acc, lr, b :: bs)
    | some (.lockRep l) => if lr.isSome then .error .repeatedPrefix else readPrefixes acc (some l) bs
    | some (.plain p) =>
      if acc.any (fun q => q.sameGroup p) then .error .repeatedPrefix else readPrefixes (acc ++ [p]) lr bs

/-! ## ModRM, SIB, displacement (R55, R57, R58) -/

/-- A 32-bit displacement, low byte first (R57). -/
def readDisp32 : List Byte → Except DecodeError (BitVec 32 × List Byte)
  | b0 :: b1 :: b2 :: b3 :: bs => .ok (b3 ++ b2 ++ b1 ++ b0, bs)
  | _ => .error .truncated

/-- The displacement `mod` calls for (R57). -/
def readDisp (md : BitVec 2) (bs : List Byte) : Except DecodeError (Disp × List Byte) :=
  if md = 1#2 then
    match bs with
    | b :: bs => .ok (.d8 b, bs)
    | [] => .error .truncated
  else if md = 2#2 then do
    let (d, bs) ← readDisp32 bs
    return (.d32 d, bs)
  else .ok (.none, bs)

/-- SIB byte and what follows it (R58). -/
def readSib (md : BitVec 2) : List Byte → Except DecodeError (MemRef × List Byte)
  | [] => .error .truncated
  | sib :: bs =>
    let scale := sib.extractLsb' 6 2
    let index := sib.extractLsb' 3 3
    let base := sib.extractLsb' 0 3
    if md = 0#2 ∧ base = 5#3 then do
      let (d, bs) ← readDisp32 bs
      return (.sibDisp scale index d, bs)
    else do
      let (d, bs) ← readDisp md bs
      return (.sib scale index base d, bs)

/-- The r/m operand of `mod` and `rm` (R55, R57). -/
def readRm (md : BitVec 2) (rm : BitVec 3) (bs : List Byte) : Except DecodeError (RegMem × List Byte) :=
  if md = 3#2 then .ok (.reg rm, bs)
  else if rm = 4#3 then do
    let (a, bs) ← readSib md bs
    return (.mem a, bs)
  else if md = 0#2 ∧ rm = 5#3 then do
    let (d, bs) ← readDisp32 bs
    return (.mem (.disp d), bs)
  else do
    let (d, bs) ← readDisp md bs
    return (.mem (.base rm d), bs)

/-- Step 3 of R72: ModRM and the operand it names; a memory operand with a 16-bit address size is refused (R59). -/
def readModRm (m : ExecMode) (pfx : List Pfx) : List Byte → Except DecodeError (BitVec 3 × RegMem × List Byte)
  | [] => .error .truncated
  | b :: bs =>
    let md := b.extractLsb' 6 2
    if md ≠ 3#2 ∧ m = .m32 ∧ pfx.contains .addrSize then .error .addr16
    else do
      let (rm, bs) ← readRm md (b.extractLsb' 0 3) bs
      return (b.extractLsb' 3 3, rm, bs)

/-! ## The opcode byte and the forms (R68) -/

def elemOf (op : Byte) : Option Elem :=
  if op = 0x74#8 then some .byte
  else if op = 0x75#8 then some .word
  else if op = 0x76#8 then some .dword
  else none

def mmxInstr : Elem → LegacyEnc → Instr
  | .byte => .pcmpeqbMmx
  | .word => .pcmpeqwMmx
  | .dword => .pcmpeqdMmx

def xmmInstr : Elem → LegacyEnc → Instr
  | .byte => .pcmpeqbXmm
  | .word => .pcmpeqwXmm
  | .dword => .pcmpeqdXmm

/-- `L` = 0: 128 bits, `L` = 1: 256 bits (R62). -/
def vexInstr : Bool → Elem → VexEnc → Instr
  | false, .byte => .vpcmpeqbVex128
  | false, .word => .vpcmpeqwVex128
  | false, .dword => .vpcmpeqdVex128
  | true, .byte => .vpcmpeqbVex256
  | true, .word => .vpcmpeqwVex256
  | true, .dword => .vpcmpeqdVex256

def evexInstr : VecLen → Elem → EvexEnc → Instr
  | .v128, .byte => .vpcmpeqbEvex128
  | .v256, .byte => .vpcmpeqbEvex256
  | .v512, .byte => .vpcmpeqbEvex512
  | .v128, .word => .vpcmpeqwEvex128
  | .v256, .word => .vpcmpeqwEvex256
  | .v512, .word => .vpcmpeqwEvex512
  | .v128, .dword => .vpcmpeqdEvex128
  | .v256, .dword => .vpcmpeqdEvex256
  | .v512, .dword => .vpcmpeqdEvex512

/-- EVEX.L'L, 11 reserved (R64). -/
def vecLenOf (ll : BitVec 2) : Option VecLen :=
  if ll = 0#2 then some .v128 else if ll = 1#2 then some .v256 else if ll = 2#2 then some .v512 else none

/-! ## The three layouts (R50, R72 step 2) -/

/-- After the 0FH of a legacy form. LOCK raises `#UD`, F2H and F3H are refused (R69), and so is a REX bit that would
name an MMX register (R56 (a), D22). DESIGN CHOICE (log 27): LOCK raises `#UD` at the opcode byte, before ModRM is read,
as R72 has it, even where R159 (1) and D14 would stop the fetch of a later byte first. -/
def decodeLegacy (m : ExecMode) (pfx : List Pfx) (lr : Option LockRep) (rex : Option Rex) : List Byte → DecodeResult
  | [] => .error .truncated
  | op :: bs =>
    match elemOf op with
    | none => .error .unknownOpcode
    | some el =>
      match lr with
      | some .lock => .error .ud
      | some _ => .error .reservedPrefix
      | none => do
        let (reg, rm, bs) ← readModRm m pfx bs
        let e : LegacyEnc := ⟨pfx, rex, reg, rm⟩
        if pfx.contains .opSize then return (xmmInstr el e, bs)
        else if e.r || (e.b && rm.isReg) then .error .rexOnMmxRegister
        else return (mmxInstr el e, bs)

/-- In 32-bit mode C4H, C5H and 62H are these prefixes only when bits 7:6 of the following byte are 11 (R62, R64). -/
def isVexIn (m : ExecMode) (bs : List Byte) : Except DecodeError Unit :=
  match m, bs with
  | .m64, _ => .ok ()
  | .m32, [] => .error .truncated
  | .m32, b :: _ => if b.extractLsb' 6 2 = 3#2 then .ok () else .error .unknownOpcode

/-- 66H, F2H, F3H or F0H before a VEX or EVEX prefix raises `#UD` (R51, R69). DESIGN CHOICE (log 27): before the bytes
after the prefix are read, as R72 has it, even where R159 (1) and D14 would stop their fetch first. -/
def vexPrefixesOk (pfx : List Pfx) (lr : Option LockRep) : Except DecodeError Unit :=
  if lr.isSome || pfx.contains .opSize then .error .ud else .ok ()

/-- What C5 and C4 have in common after the prefix is read (R63). -/
def decodeVexBody (m : ExecMode) (pfx : List Pfx) (head : VexHead) (vvvv : BitVec 4) (l : Bool) (pp : BitVec 2)
    (op : Byte) (bs : List Byte) : DecodeResult :=
  match elemOf op with
  | none => .error .unknownOpcode
  | some el =>
    if pp ≠ 1#2 then .error .unknownOpcode
    else if m = .m32 ∧ (head.r || head.x || head.b || vvvv.msb) then .error .vexHighRegIn32
    else do
      let (reg, rm, bs) ← readModRm m pfx bs
      return (vexInstr l el ⟨pfx, head, vvvv, reg, rm⟩, bs)

/-- `C5 [~R ~vvvv L pp]` (R62). -/
def decodeC5 (m : ExecMode) (pfx : List Pfx) (lr : Option LockRep) (bs : List Byte) : DecodeResult := do
  isVexIn m bs
  vexPrefixesOk pfx lr
  match bs with
  | b1 :: op :: bs =>
    decodeVexBody m pfx (.two (!b1.getLsbD 7)) (~~~ b1.extractLsb' 3 4) (b1.getLsbD 2) (b1.extractLsb' 0 2) op bs
  | _ => .error .truncated

/-- `C4 [~R ~X ~B mmmmm] [W ~vvvv L pp]` (R62). -/
def decodeC4 (m : ExecMode) (pfx : List Pfx) (lr : Option LockRep) (bs : List Byte) : DecodeResult := do
  isVexIn m bs
  vexPrefixesOk pfx lr
  match bs with
  | b1 :: b2 :: op :: bs =>
    if b1.extractLsb' 0 5 ≠ 1#5 then .error .unknownOpcode
    else
      decodeVexBody m pfx (.three (!b1.getLsbD 7) (!b1.getLsbD 6) (!b1.getLsbD 5) (b2.getLsbD 7))
        (~~~ b2.extractLsb' 3 4) (b2.getLsbD 2) (b2.extractLsb' 0 2) op bs
  | _ => .error .truncated

/-- The reserved combinations of R65 that the four prefix bytes and the opcode show: `z` = 1, a high bit on the mask
destination, `W` = 1 on VPCMPEQD, `b` = 1 on VPCMPEQB/W, and in 32-bit mode any high register bit. -/
def evexReserved (m : ExecMode) (p0 p1 p2 : Byte) (el : Elem) : Bool :=
  p2.getLsbD 7 || !p0.getLsbD 7 || !p0.getLsbD 4 ||
    (el == .dword && p1.getLsbD 7) || (el != .dword && p2.getLsbD 4) ||
    (m == .m32 && (!p0.getLsbD 6 || !p0.getLsbD 5 || !p2.getLsbD 3 || !p1.getLsbD 6))

/-- `62 P0 P1 P2` (R64, R65). -/
def decodeEvex (m : ExecMode) (pfx : List Pfx) (lr : Option LockRep) (bs : List Byte) : DecodeResult := do
  isVexIn m bs
  vexPrefixesOk pfx lr
  match bs with
  | p0 :: p1 :: p2 :: op :: bs =>
    match elemOf op with
    | none => .error .unknownOpcode
    | some el =>
      if p0.extractLsb' 0 4 ≠ 1#4 ∨ p1.extractLsb' 0 3 ≠ 5#3 then .error .unknownOpcode
      else if evexReserved m p0 p1 p2 el then .error .evexReservedField
      else
        match vecLenOf (p2.extractLsb' 5 2) with
        | none => .error .evexReservedField
        | some vl => do
          let (reg, rm, bs) ← readModRm m pfx bs
          let e : EvexEnc := {
            pfx := pfx, x := !p0.getLsbD 6, b := !p0.getLsbD 5, w := p1.getLsbD 7,
            v5 := ~~~ (p2.extractLsb' 3 1 ++ p1.extractLsb' 3 4), bcst := p2.getLsbD 4,
            aaa := p2.extractLsb' 0 3, reg := reg, rm := rm }
          if e.bcst && rm.isReg then .error .evexReservedField
          else return (evexInstr vl el e, bs)
  | _ => .error .truncated

/-- `0100WRXB` (R52). -/
def isRex (b : Byte) : Bool := b.extractLsb' 4 4 == 4#4

def rexOf (b : Byte) : Rex := ⟨b.getLsbD 3, b.getLsbD 2, b.getLsbD 1, b.getLsbD 0⟩

/-- What follows a REX byte (R72): 0FH; a prefix or another REX is a misplaced REX; VEX and EVEX raise `#UD`, DESIGN
CHOICE (log 27): without reading on, even where R159 (1) and D14 would stop the fetch of a later byte first. -/
def decodeAfterRex (m : ExecMode) (pfx : List Pfx) (lr : Option LockRep) (rex : Rex) : List Byte → DecodeResult
  | [] => .error .truncated
  | b :: bs =>
    if b = 0x0F#8 then decodeLegacy m pfx lr (some rex) bs
    else if (pfxByteOf b).isSome || isRex b then .error .misplacedRex
    else if b = 0xC4#8 ∨ b = 0xC5#8 ∨ b = 0x62#8 then .error .ud
    else .error .unknownOpcode

/-- Step 2 of R72: the first byte that is no prefix. -/
def decodeOpcode (m : ExecMode) (pfx : List Pfx) (lr : Option LockRep) : List Byte → DecodeResult
  | [] => .error .truncated
  | b :: bs =>
    if m = .m64 ∧ isRex b then decodeAfterRex m pfx lr (rexOf b) bs
    else if b = 0x0F#8 then decodeLegacy m pfx lr none bs
    else if b = 0xC5#8 then decodeC5 m pfx lr bs
    else if b = 0xC4#8 then decodeC4 m pfx lr bs
    else if b = 0x62#8 then decodeEvex m pfx lr bs
    else .error .unknownOpcode

/-- The decoding procedure of R72: the instruction at the head of the bytes and the bytes after it, or why there is
none. -/
def decode (m : ExecMode) (bs : List Byte) : DecodeResult := do
  let (pfx, lr, bs) ← readPrefixes [] none bs
  decodeOpcode m pfx lr bs

/-! ## Length (R61) -/

def Disp.len : Disp → Nat
  | .none => 0
  | .d8 _ => 1
  | .d32 _ => 4

/-- SIB and displacement bytes. -/
def RegMem.len : RegMem → Nat
  | .reg _ => 0
  | .mem (.base _ d) => d.len
  | .mem (.disp _) => 4
  | .mem (.sib _ _ _ d) => 1 + d.len
  | .mem (.sibDisp _ _ _) => 5

def LegacyEnc.len (e : LegacyEnc) : Nat := e.pfx.length + (if e.rex.isSome then 1 else 0) + 2 + 1 + e.rm.len

def VexHead.len : VexHead → Nat
  | .two _ => 2
  | .three _ _ _ _ => 3

def VexEnc.len (e : VexEnc) : Nat := e.pfx.length + e.head.len + 1 + 1 + e.rm.len

def EvexEnc.len (e : EvexEnc) : Nat := e.pfx.length + 4 + 1 + 1 + e.rm.len

/-- `ilen`, the instruction's length in bytes (R61). -/
def Instr.len : Instr → Nat
  | .pcmpeqbMmx e => e.len
  | .pcmpeqbXmm e => e.len
  | .pcmpeqwMmx e => e.len
  | .pcmpeqwXmm e => e.len
  | .pcmpeqdMmx e => e.len
  | .pcmpeqdXmm e => e.len
  | .vpcmpeqbVex128 e => e.len
  | .vpcmpeqwVex128 e => e.len
  | .vpcmpeqdVex128 e => e.len
  | .vpcmpeqbVex256 e => e.len
  | .vpcmpeqwVex256 e => e.len
  | .vpcmpeqdVex256 e => e.len
  | .vpcmpeqdEvex128 e => e.len
  | .vpcmpeqdEvex256 e => e.len
  | .vpcmpeqdEvex512 e => e.len
  | .vpcmpeqbEvex128 e => e.len
  | .vpcmpeqbEvex256 e => e.len
  | .vpcmpeqbEvex512 e => e.len
  | .vpcmpeqwEvex128 e => e.len
  | .vpcmpeqwEvex256 e => e.len
  | .vpcmpeqwEvex512 e => e.len

/-! ## The encoder -/

def Seg.byte : Seg → Byte
  | .es => 0x26#8
  | .cs => 0x2E#8
  | .ss => 0x36#8
  | .ds => 0x3E#8
  | .fs => 0x64#8
  | .gs => 0x65#8

def Pfx.byte : Pfx → Byte
  | .seg s => s.byte
  | .opSize => 0x66#8
  | .addrSize => 0x67#8

def bit (b : Bool) : BitVec 1 := BitVec.ofBool b

def Rex.byte (r : Rex) : Byte := 4#4 ++ bit r.w ++ bit r.r ++ bit r.x ++ bit r.b

/-- A 32-bit field, low byte first (R31, R57). -/
def le32 (d : BitVec 32) : List Byte :=
  [d.extractLsb' 0 8, d.extractLsb' 8 8, d.extractLsb' 16 8, d.extractLsb' 24 8]

def Disp.md : Disp → BitVec 2
  | .none => 0#2
  | .d8 _ => 1#2
  | .d32 _ => 2#2

def Disp.bytes : Disp → List Byte
  | .none => []
  | .d8 d => [d]
  | .d32 d => le32 d

def sibByte (scale : BitVec 2) (index base : BitVec 3) : Byte := scale ++ index ++ base

def RegMem.md : RegMem → BitVec 2
  | .reg _ => 3#2
  | .mem (.base _ d) => d.md
  | .mem (.disp _) => 0#2
  | .mem (.sib _ _ _ d) => d.md
  | .mem (.sibDisp _ _ _) => 0#2

def RegMem.rmField : RegMem → BitVec 3
  | .reg rm => rm
  | .mem (.base rm _) => rm
  | .mem (.disp _) => 5#3
  | .mem (.sib _ _ _ _) => 4#3
  | .mem (.sibDisp _ _ _) => 4#3

/-- The bytes after ModRM. -/
def RegMem.tail : RegMem → List Byte
  | .reg _ => []
  | .mem (.base _ d) => d.bytes
  | .mem (.disp d) => le32 d
  | .mem (.sib scale index base d) => sibByte scale index base :: d.bytes
  | .mem (.sibDisp scale index d) => sibByte scale index 5#3 :: le32 d

def modRmByte (md : BitVec 2) (reg rm : BitVec 3) : Byte := md ++ reg ++ rm

def modRmBytes (reg : BitVec 3) (rm : RegMem) : List Byte := modRmByte rm.md reg rm.rmField :: rm.tail

def Elem.opcode : Elem → Byte
  | .byte => 0x74#8
  | .word => 0x75#8
  | .dword => 0x76#8

def rexBytes : Option Rex → List Byte
  | none => []
  | some r => [r.byte]

def encodeLegacy (el : Elem) (e : LegacyEnc) : List Byte :=
  e.pfx.map Pfx.byte ++ (rexBytes e.rex ++ 0x0F#8 :: el.opcode :: modRmBytes e.reg e.rm)

def VexHead.bytes (vvvv : BitVec 4) (l : Bool) : VexHead → List Byte
  | .two r => [0xC5#8, bit (!r) ++ ~~~ vvvv ++ bit l ++ 1#2]
  | .three r x b w => [0xC4#8, bit (!r) ++ bit (!x) ++ bit (!b) ++ 1#5, bit w ++ ~~~ vvvv ++ bit l ++ 1#2]

def encodeVex (l : Bool) (el : Elem) (e : VexEnc) : List Byte :=
  e.pfx.map Pfx.byte ++ (e.head.bytes e.vvvv l ++ el.opcode :: modRmBytes e.reg e.rm)

def VecLen.ll : VecLen → BitVec 2
  | .v128 => 0#2
  | .v256 => 1#2
  | .v512 => 2#2

/-- P0 with `~R` = `~R'` = 1 and `mmm` = 001 (R64, R65). -/
def EvexEnc.p0 (e : EvexEnc) : Byte := 1#1 ++ bit (!e.x) ++ bit (!e.b) ++ 0x11#5
def EvexEnc.p1 (e : EvexEnc) : Byte := bit e.w ++ ~~~ e.v5.extractLsb' 0 4 ++ 5#3
/-- P2 with `z` = 0. -/
def EvexEnc.p2 (vl : VecLen) (e : EvexEnc) : Byte :=
  0#1 ++ vl.ll ++ bit e.bcst ++ ~~~ e.v5.extractLsb' 4 1 ++ e.aaa

def encodeEvex (vl : VecLen) (el : Elem) (e : EvexEnc) : List Byte :=
  e.pfx.map Pfx.byte ++ (0x62#8 :: e.p0 :: e.p1 :: e.p2 vl :: el.opcode :: modRmBytes e.reg e.rm)

/-- The bytes of a well-formed instruction. -/
def encode : Instr → List Byte
  | .pcmpeqbMmx e => encodeLegacy .byte e
  | .pcmpeqbXmm e => encodeLegacy .byte e
  | .pcmpeqwMmx e => encodeLegacy .word e
  | .pcmpeqwXmm e => encodeLegacy .word e
  | .pcmpeqdMmx e => encodeLegacy .dword e
  | .pcmpeqdXmm e => encodeLegacy .dword e
  | .vpcmpeqbVex128 e => encodeVex false .byte e
  | .vpcmpeqwVex128 e => encodeVex false .word e
  | .vpcmpeqdVex128 e => encodeVex false .dword e
  | .vpcmpeqbVex256 e => encodeVex true .byte e
  | .vpcmpeqwVex256 e => encodeVex true .word e
  | .vpcmpeqdVex256 e => encodeVex true .dword e
  | .vpcmpeqdEvex128 e => encodeEvex .v128 .dword e
  | .vpcmpeqdEvex256 e => encodeEvex .v256 .dword e
  | .vpcmpeqdEvex512 e => encodeEvex .v512 .dword e
  | .vpcmpeqbEvex128 e => encodeEvex .v128 .byte e
  | .vpcmpeqbEvex256 e => encodeEvex .v256 .byte e
  | .vpcmpeqbEvex512 e => encodeEvex .v512 .byte e
  | .vpcmpeqwEvex128 e => encodeEvex .v128 .word e
  | .vpcmpeqwEvex256 e => encodeEvex .v256 .word e
  | .vpcmpeqwEvex512 e => encodeEvex .v512 .word e

/-! ## Words of the opcode table (R73) -/

/-- The longest admitted instruction (R61). -/
def maxLen : Nat := 13

/-- The `n` bytes of a number, most significant first: R73 puts the first byte of a row in the most significant
position. -/
def bytesMsbFirst (w : Nat) : Nat → List Byte
  | 0 => []
  | n + 1 => BitVec.ofNat 8 (w >>> (8 * n)) :: bytesMsbFirst w n

/-- The bytes a normalised opcode word of R73 stands for: the 00H that stands for "no mandatory prefix" in a `LEGACY`
row is no byte of the instruction. -/
def normalisedBytes (bs : List Byte) : List Byte :=
  match bs with
  | b :: 0x0F#8 :: bs => if b = 0#8 then 0x0F#8 :: bs else b :: 0x0F#8 :: bs
  | bs => bs

/-- Bytes above the word are 00H, up to the longest instruction. -/
def padded (bs : List Byte) : List Byte := bs ++ List.replicate (maxLen - bs.length) 0#8

/-- The instruction bytes a table word of `nbits` bits stands for. It is read as R73's normalised word; if that is no
instruction and the same number read lowest byte first is one, as that. -/
def tableBytes (nbits w : Nat) : List Byte :=
  let bs := bytesMsbFirst w ((nbits + 7) / 8)
  let table := padded (normalisedBytes bs)
  let plain := padded bs.reverse
  match decode .m64 table, decode .m64 plain with
  | .error _, .ok _ => plain
  | _, _ => table

/-- The instruction the decoder reads from a table word, in 64-bit mode. -/
def decodeTableWord (nbits w : Nat) : Option Instr :=
  match decode .m64 (tableBytes nbits w) with
  | .ok (i, _) => some i
  | .error _ => none

end Sys2Proof
end

