-- ==== Sys2Proof/Machine/State.lean ====
section
/-! DEFINITION. The machine's state as plain data, its reasons to stop, and the state after reset (spec 10_state.md,
00_scope.md rule R4, 60_exceptions.md rule R151, 92_eei_decisions.md D3). -/

namespace Sys2Proof.Machine

/-- The exceptions the forms can raise (R151). Each ends the run with the state unchanged (R153, D7). Stopping where
the processor would enter a handler is SAFE: nothing can be proved about what comes after. -/
inductive Fault where
  /-- `#UD`, invalid opcode. Raised by the decoder (LOCK, a prefix before VEX or EVEX) and by the feature and control
  checks R154 to R158. Safe. -/
  | ud
  /-- `#NM`, device not available: CR0.TS = 1. Raised by the checks R155 to R158. Safe. -/
  | nm
  /-- `#SS(0)`: non-canonical address through SS. Raised by the memory read R43. Safe. -/
  | ss
  /-- `#GP(0)`: non-canonical address through another segment, a misaligned legacy SSE operand (both raised by the
  memory read R43), or an instruction over 15 bytes (raised by the fetch, R159). Safe. -/
  | gp
  /-- `#PF`: a byte that is not accessible. Raised by the memory read R43; the error code is unspecified (R37). Safe
  for "does not fault" claims; under a partial writemask a claim "faults" is UNSAFE (D27, log 11). -/
  | pf
  /-- `#MF`: an unmasked x87 exception is pending. Raised by the MMX checks R155. Safe. -/
  | mf
  /-- `#AC(0)`: misaligned under alignment checking. Raised by the memory read R43. Safe. -/
  | ac
deriving DecidableEq, Repr

/-- Why the model gives no outcome (D3, the closed list, and `notModelled`). `Refused` makes no claim about the chip
(R9), so each one is SAFE. -/
inductive Refusal where
  /-- An instruction without a meaning; raised by no arm of exec. -/
  | notModelled (mnemonic : String)
  /-- Not one of the 21 forms (D1). Raised by the decoder. -/
  | unknownOpcode
  /-- Real-address, virtual-8086, 16-bit or system-management mode (D2). Raised by the step and by every meaning. -/
  | mode
  /-- The instruction or the address after it leaves the address space (R14, D10). Raised by the fetch and by every
  meaning. -/
  | pcWrap
  /-- A memory operand across the top of the address space (R43). Raised by the memory read. -/
  | addressWrap
  /-- REX not immediately before the opcode (D15). Raised by the decoder. -/
  | misplacedRex
  /-- Two prefixes of one group (D15). Raised by the decoder. -/
  | repeatedPrefix
  /-- F2H or F3H before a legacy form (R69). Raised by the decoder. -/
  | reservedPrefix
  /-- A REX bit that would name a high MMX register (D22). Raised by the decoder. -/
  | rexOnMmxRegister
  /-- A register above 7 named by VEX in 32-bit mode (R63). Raised by the decoder. -/
  | vexHighRegIn32
  /-- A reserved EVEX combination (R65, D23). Raised by the decoder. -/
  | evexReservedField
  /-- A memory operand with 16-bit addressing (R59, D26). Raised by the decoder and by the operand read. -/
  | addr16
  /-- A program byte that is not accessible (R181). Raised by the fetch. -/
  | fetchFault
  /-- An instruction byte outside the program (R183, D14). Raised by the fetch. -/
  | runsPastEnd
deriving DecidableEq, Repr

/-- Why no further instruction byte can be fetched. -/
inductive FetchStop where
  | pcWrap
  | runsPastEnd
  | fetchFault
  | tooLong
deriving DecidableEq, Repr

/-- Memory: the bytes that differ from what an unlisted address reads as, by rising address (R30, R31). -/
abbrev Memory := List Host.Cell

/-- Every piece of state the spec gives the machine; INVENTORY.md lists the rule of each. -/
structure State where
  /-- R4 `MODE`, D2. -/
  mode : Mode
  /-- R14: a linear address. -/
  pc : Addr
  /-- R13: RAX, RCX, RDX, RBX, RSP, RBP, RSI, RDI, R8 to R15. -/
  gpr : Vector (BitVec 64) 16
  /-- R10: MM0 to MM7, bits 63:0 of the x87 registers. -/
  mm : Vector (BitVec 64) 8
  /-- R17: bits 79:64 of the x87 registers that MM0 to MM7 are the low part of. -/
  fpHigh : Vector (BitVec 16) 8
  /-- R16, R17: x87 status word, ES bit 7, TOS bits 13:11. -/
  fsw : BitVec 16
  /-- R17: x87 tag word. -/
  ftw : BitVec 16
  /-- R11: the vector registers, `MAXVL` bits of each in a 512-bit container. -/
  vec : Vector (BitVec 512) 32
  /-- R12: k0 to k7, `MAX_KL` bits of each in a 64-bit container. -/
  k : Vector (BitVec 64) 8
  /-- R15. -/
  eflags : BitVec 32
  /-- R18. -/
  mxcsr : BitVec 32
  /-- R16. -/
  cr0 : BitVec 64
  /-- R16. -/
  cr4 : BitVec 64
  /-- R16. -/
  xcr0 : BitVec 64
  /-- R16: CS bits 1:0. -/
  cpl : BitVec 2
  /-- R4, R22. -/
  fsBase : Addr
  /-- R4, R22. -/
  gsBase : Addr
  /-- R4: features, `MAXVL`, `MAX_KL`, `VA_BITS`. -/
  cpu : Cpu
  /-- R4, R183: where the program stands. -/
  code : CodeRange
  /-- R4 `Accessible`. -/
  access : List Region
  /-- R30. -/
  mem : Memory
deriving DecidableEq, Repr

/-- The machine right after a hardware reset (R21, middle column; real-address mode). The values R21 does not give are
those of logs 2, 4, 6, 7, 8: RAX and RDX 0 and the parameters (DESIGN CHOICE); the x87 status word, V16 to V31, CPL and
the FS and GS bases 0 (PRESUMED, the family's). The pc is CS base FFFF0000H plus IP 0000FFF0H (log 3). -/
def State.reset : State where
  mode := .realAddress
  pc := 0xFFFFFFF0#64
  gpr := Vector.replicate 16 0#64
  mm := Vector.replicate 8 0#64
  fpHigh := Vector.replicate 8 0#16
  fsw := 0#16
  ftw := 0x5555#16
  vec := Vector.replicate 32 0#512
  k := Vector.replicate 8 0#64
  eflags := 0x00000002#32
  mxcsr := 0x1F80#32
  cr0 := 0x60000010#64
  cr4 := 0#64
  xcr0 := 1#64
  cpl := 0#2
  fsBase := 0#64
  gsBase := 0#64
  cpu := { features := ⟨true, true, true, true, true, true, true, true⟩, maxVl := .v512, maxKl := .k64, vaBits := .va48 }
  code := { base := 0xFFFFFFF0#64, len := 0 }
  access := [{ base := 0, size := 2 ^ 64 }]
  mem := []

end Sys2Proof.Machine
end

