-- ==== Sys2Proof/Machine/Flags.lean ====
section
/-! DEFINITION. The status and control bits the forms look at, by their places in spec 10_state.md rule R16. No form
computes a flag (R15), so there is no flag computation. -/

namespace Sys2Proof.Machine

def cr0Em (s : State) : Bool := s.cr0.getLsbD 2
def cr0Ts (s : State) : Bool := s.cr0.getLsbD 3
def cr0Am (s : State) : Bool := s.cr0.getLsbD 18
def cr4Osfxsr (s : State) : Bool := s.cr4.getLsbD 9
def cr4Osxsave (s : State) : Bool := s.cr4.getLsbD 18
/-- SSE and AVX state enabled: XCR0[2:1] = 11. -/
def xcr0Avx (s : State) : Bool := s.xcr0.extractLsb' 1 2 == 3#2
/-- Opmask, ZMM_Hi256 and Hi16_ZMM state enabled: XCR0[7:5] = 111. -/
def xcr0Avx512 (s : State) : Bool := s.xcr0.extractLsb' 5 3 == 7#3
/-- An unmasked x87 exception is pending. -/
def fswEs (s : State) : Bool := s.fsw.getLsbD 7
def eflagsAc (s : State) : Bool := s.eflags.getLsbD 18

/-- `AC_ENABLED`: CR0.AM = 1 and EFLAGS.AC = 1 and CPL = 3 (R4, D6). -/
def acEnabled (s : State) : Bool := cr0Am s && eflagsAc s && s.cpl == 3#2

end Sys2Proof.Machine
end

