-- ==== Sys2Proof/Machine/Lanes.lean ====
section
/-! DEFINITION. The lane functions: equality of one element (spec 40_pcmpeqw_mmx.md rule R101), the packed compares of
64 and 128 bits (R100, R110, R111, R115 to R117), their 256-bit pairs (R123 to R125), and the opmask compare (R140). -/

namespace Sys2Proof.Machine

/-- Element `i` of width `esz` of a packed value (R5). -/
def lane (esz : Nat) {w : Nat} (v : BitVec w) (i : Nat) : BitVec esz := v.extractLsb' (i * esz) esz

/-- The `w`-bit value whose element `i` is `f i` for `i < n`; bits above the last element are 0. -/
def packLanes (w esz : Nat) (f : Nat → BitVec esz) : Nat → BitVec w
  | 0 => 0#w
  | n + 1 => packLanes w esz f n ||| ((f n).setWidth w <<< (n * esz))

/-- `EQ8`, `EQ16`, `EQ32` (R101). -/
def eqLane {esz : Nat} (a b : BitVec esz) : BitVec esz := if a = b then BitVec.allOnes esz else 0#esz

/-- Element-wise `EQ` over values of `w` bits (R100, R110, R111, R115, R116, R117). -/
def cmpEq (w esz : Nat) (a b : BitVec w) : BitVec w :=
  packLanes w esz (fun i => eqLane (lane esz a i) (lane esz b i)) (w / esz)

/-- The two 128-bit halves compared independently (R123, R124, R125). -/
def cmpEq256 (esz : Nat) (a b : BitVec 256) : BitVec 256 :=
  let hi := cmpEq 128 esz (a.extractLsb' 128 128) (b.extractLsb' 128 128)
  let lo := cmpEq 128 esz (a.extractLsb' 0 128) (b.extractLsb' 0 128)
  hi ++ lo

/-- The second source of an EVEX form: a whole vector, or one doubleword used for every element (R140 `bcst`). -/
inductive Src2 (vl : Nat) where
  | full (v : BitVec vl)
  | bcst (v : BitVec 32)
deriving DecidableEq, Repr

/-- `e2` of R140: element `j` of the second source. -/
def src2Lane (esz : Nat) {vl : Nat} (s2 : Src2 vl) (j : Nat) : BitVec esz :=
  match s2 with
  | .full v => lane esz v j
  | .bcst v => v.setWidth esz

/-- Element `j` is compared: no writemask, or its bit is 1 (R140, R141). -/
def maskBit (km : Option (BitVec 64)) (j : Nat) : Bool :=
  match km with
  | none => true
  | some m => m.getLsbD j

/-- `EVEX_CMPEQ` (R140), in a 64-bit container. -/
def evexCmpEq (esz vl : Nat) (s1 : BitVec vl) (s2 : Src2 vl) (km : Option (BitVec 64)) : BitVec 64 :=
  packLanes 64 1 (fun j => BitVec.ofBool (maskBit km j && lane esz s1 j == src2Lane esz s2 j)) (vl / esz)

end Sys2Proof.Machine
end

