-- ==== Sys2Proof/Machine/Ops.lean ====
section
/-! DEFINITION. The named operations over registers and memory, raising an exception, the start and the end of an
instruction, and the launch of a program (spec 10_state.md, 20_memory.md rule R43, 60_exceptions.md rule R153,
70_reset_and_hazards.md rule R181). -/

namespace Sys2Proof.Machine

abbrev Result (α : Type) := Host.Outcome α Fault Refusal

/-- Go on with the value of a step that did not stop. -/
def andThen {α β : Type} (r : Result α) (f : α → Result β) : Result β :=
  match r with
  | .next a => f a
  | .fault e => .fault e
  | .refused e => .refused e

/-- `raise #XX(code)` (R6, R153): the instruction ends in that exception and nothing has been written. Every exception
of the model is raised here. Delivery to a handler is outside the model (R162, D7, scope R3 (c)). -/
def raise {α : Type} (e : Fault) : Result α := .fault e

/-- The exception's vector number (R151). -/
def vectorOf : Fault → Nat
  | .ud => 6
  | .nm => 7
  | .ss => 12
  | .gp => 13
  | .pf => 14
  | .mf => 16
  | .ac => 17

/-- The exception's error code, `none` for an exception without one and for `#PF`, whose code is unspecified (R151,
R37). -/
def errorCodeOf : Fault → Option Nat
  | .ss => some 0
  | .gp => some 0
  | .ac => some 0
  | .ud => none
  | .nm => none
  | .pf => none
  | .mf => none

/-! ## Registers -/

def gprVal (i : BitVec 4) (s : State) : BitVec 64 := s.gpr.get i.toFin

def mmVal (i : BitVec 3) (s : State) : BitVec 64 := s.mm.get i.toFin

def vecVal (i : BitVec 5) (s : State) : BitVec 512 := s.vec.get i.toFin

def kVal (i : BitVec 3) (s : State) : BitVec 64 := s.k.get i.toFin

def setPc (v : Addr) (s : State) : State := { s with pc := v }

/-- `MM[i] <- v` (R6) with what writing an MMX register does to the x87 state (R17 (a) to (c)): TOS 0, every tag valid,
bits 79:64 of the aliased register all ones. -/
def writeMm (i : BitVec 3) (v : BitVec 64) (s : State) : State :=
  { s with
    mm := s.mm.set i.toNat v i.isLt
    fpHigh := s.fpHigh.set i.toNat 0xFFFF#16 i.isLt
    fsw := s.fsw &&& 0xC7FF#16
    ftw := 0#16 }

/-- `V[i] <- v`, the whole container. -/
def setVec (i : BitVec 5) (v : BitVec 512) (s : State) : State := { s with vec := s.vec.set i.toNat v i.isLt }

/-- `V[i][127:0] <- v`, `V[i][MAXVL-1:128]` unmodified (R112, R113, R114). -/
def writeXmm (i : BitVec 5) (v : BitVec 128) (s : State) : State :=
  setVec i ((vecVal i s).extractLsb' 128 384 ++ v) s

/-- `V[i] <- zext_MAXVL(v)` (R126). -/
def writeVecZext {w : Nat} (i : BitVec 5) (v : BitVec w) (s : State) : State :=
  setVec i ((v.setWidth s.cpu.maxVl.bits).setWidth 512) s

/-- `K[i] <- v`, all `MAX_KL` bits (R12). -/
def writeK (i : BitVec 3) (v : BitVec 64) (s : State) : State :=
  { s with k := s.k.set i.toNat ((v.setWidth s.cpu.maxKl.bits).setWidth 64) i.isLt }

/-! ## Memory -/

/-- What an address that is not listed reads as (log 9, DESIGN CHOICE). -/
def unlistedByte : Byte := 0#8

def Memory.read (m : Memory) (a : Nat) : Byte :=
  match m with
  | [] => unlistedByte
  | (x, b) :: m => if x = a then b else Memory.read m a

/-- The list keeps its canonical form: writing what an unlisted address reads as removes the entry. No instruction
form writes memory (R35); this is how a program and its data are placed. -/
def Memory.write (m : Memory) (a : Nat) (b : Byte) : Memory :=
  match m with
  | [] => if b = unlistedByte then [] else [(a, b)]
  | (x, c) :: m =>
    if a < x then (if b = unlistedByte then (x, c) :: m else (a, b) :: (x, c) :: m)
    else if a = x then (if b = unlistedByte then m else (a, b) :: m)
    else (x, c) :: Memory.write m a b

/-- `MemWrite` (R6): bytes at rising addresses. -/
def Memory.writeBytes (m : Memory) (a : Nat) : List Byte → Memory
  | [] => m
  | b :: bs => Memory.writeBytes (Memory.write m a b) (a + 1) bs

def Memory.wfFrom (lo : Nat) : Memory → Bool
  | [] => true
  | (a, b) :: m => decide (lo ≤ a) && decide (a < 2 ^ 64) && decide (b ≠ unlistedByte) && Memory.wfFrom (a + 1) m

/-- The canonical form: rising addresses inside the address space, no entry equal to an unlisted byte. -/
def Memory.wf (m : Memory) : Bool := Memory.wfFrom 0 m

/-- The `w`-bit little-endian value at `la` (R31). -/
def memValue (m : Memory) (la w : Nat) : BitVec w := packLanes w 8 (fun i => Memory.read m (la + i)) (w / 8)

def Region.covers (r : Region) (a : Nat) : Bool := decide (r.base ≤ a) && decide (a < r.base + r.size)

/-- `Accessible(la, n)` (R4). -/
def accessible (rs : List Region) (la n : Nat) : Bool :=
  (List.range n).all fun i => rs.any fun r => Region.covers r (la + i)

/-- Bits 63 down to `VA_BITS - 1` of the address are all equal (R43). -/
def canonical (va : VaBits) (a : Nat) : Bool :=
  a / 2 ^ (va.bits - 1) == 0 || a / 2 ^ (va.bits - 1) == 2 ^ (65 - va.bits) - 1

/-- Every byte of the range is canonical, asked in 64-bit mode only (R43). -/
def canonicalRange (m : ExecMode) (va : VaBits) (la n : Nat) : Bool :=
  m == .m32 || (List.range n).all fun i => canonical va (la + i)

/-- The base the address is added to: FS and GS have one, the others 0 (R22, D4). -/
def segBase (seg : Seg) (s : State) : Addr :=
  match seg with
  | .fs => s.fsBase
  | .gs => s.gsBase
  | .es => 0#64
  | .cs => 0#64
  | .ss => 0#64
  | .ds => 0#64

/-- `la` of R43. -/
def linearAddr (m : ExecMode) (seg : Seg) (ea : Addr) (s : State) : Nat :=
  (segBase seg s + ea).toNat % 2 ^ m.addrBits

/-- `MemRead(seg, ea, n)` of R43 for a value of `w = 8 n` bits, with the alignment `al` that R33 demands and the
alignment `ac` checked under `AC_ENABLED`. -/
def memRead (w al ac : Nat) (m : ExecMode) (seg : Seg) (ea : Addr) (s : State) : Result (BitVec w) :=
  let la := linearAddr m seg ea s
  if 2 ^ m.addrBits < la + w / 8 then .refused .addressWrap
  else if canonicalRange m s.cpu.vaBits la (w / 8) = false then raise (if seg = .ss then .ss else .gp)
  else if la % al ≠ 0 then raise .gp
  else if accessible s.access la (w / 8) = false then raise .pf
  else if acEnabled s = true ∧ la % ac ≠ 0 then raise .ac
  else .next (memValue s.mem la w)

/-! ## Start and end of an instruction -/

/-- `pc + ilen` is an address, and in 64-bit mode it and every byte of the instruction are canonical (R14, D10). -/
def pcFits (m : ExecMode) (len : Nat) (s : State) : Bool :=
  decide (s.pc.toNat + len < 2 ^ m.addrBits) && canonicalRange m s.cpu.vaBits s.pc.toNat (len + 1)

/-- What comes before the feature and control checks of R159 (3): the mode is one the forms run in (D2), and the
instruction and the address after it stay inside the address space (R14, D10). That order is that of logs 13 and 25; a `#UD` the decoder
raises comes earlier still (log 27). -/
def startInstr (len : Nat) (s : State) : Result ExecMode :=
  match s.mode with
  | .admitted m => if pcFits m len s then .next m else .refused .pcWrap
  | .realAddress => .refused .mode
  | .virtual8086 => .refused .mode
  | .code16 => .refused .mode
  | .systemManagement => .refused .mode

/-- `pc_next`, the address of the byte after the instruction (R57). -/
def pcNext (len : Nat) (s : State) : Addr := s.pc + BitVec.ofNat 64 len

/-- `pc <- pc + ilen` (R14). -/
def advance (len : Nat) (s : State) : State := setPc (pcNext len s) s

/-! ## Launch -/

/-- The launch of a program where the machine stands (R181, R188, D9): its bytes are placed at the pc (as many as the
address space has room for), the program range is theirs, the code is accessible, the mode is one the forms run in, and
the control bits are as the launch premises say. Boot (R182) is not executed; this is its result. Log 10. -/
def launch (program : List Byte) (s : State) : State :=
  let bytes := program.take (2 ^ 64 - s.pc.toNat)
  { s with
    mode := match s.mode with
      | .admitted m => .admitted m
      | .realAddress => .admitted .m64
      | .virtual8086 => .admitted .m64
      | .code16 => .admitted .m64
      | .systemManagement => .admitted .m64
    fsw := s.fsw &&& 0xFF7F#16
    cr0 := s.cr0 &&& 0xFFFFFFFFFFFBFFF3#64
    cr4 := s.cr4 ||| 0x40200#64
    xcr0 := s.xcr0 ||| 0xE6#64
    code := { base := s.pc, len := bytes.length }
    access := if accessible s.access s.pc.toNat bytes.length then s.access
      else { base := s.pc.toNat, size := bytes.length } :: s.access
    mem := Memory.writeBytes s.mem s.pc.toNat bytes }

end Sys2Proof.Machine
end

