-- ==== Sys2Proof/Machine/Checks.lean ====
section
/-! DEFINITION. What must hold before a form executes: the feature expression of spec 60_exceptions.md rule R154 and
the control bits of R155 to R158, in the order of R159 (`#UD`, `#NM`, `#MF`). -/

namespace Sys2Proof.Machine

/-- `#UD` unless `ok`, then `#NM` when CR0.TS = 1 (R159 (3), (4)). -/
def checkUdNm (ok : Bool) (s : State) : Result Unit :=
  if ok = false then raise .ud
  else if cr0Ts s then raise .nm
  else .next ()

/-- R155, all rows but the memory source's. -/
def mmxEnabled (s : State) : Bool := !cr0Em s && s.cpu.features.mmx

def checkMmx (s : State) : Result Unit :=
  andThen (checkUdNm (mmxEnabled s) s) fun _ => if fswEs s then raise .mf else .next ()

/-- R156. -/
def sseEnabled (s : State) : Bool := !cr0Em s && cr4Osfxsr s && s.cpu.features.sse2

def checkSse (s : State) : Result Unit := checkUdNm (sseEnabled s) s

/-- R157 with the form's feature. -/
def vexEnabled (feature : Bool) (s : State) : Bool := cr4Osxsave s && xcr0Avx s && feature

def checkVex (feature : Bool) (s : State) : Result Unit := checkUdNm (vexEnabled feature s) s

/-- R158 with the form's feature expression. -/
def evexEnabled (feature : Bool) (s : State) : Bool := cr4Osxsave s && xcr0Avx512 s && xcr0Avx s && feature

def checkEvex (feature : Bool) (s : State) : Result Unit := checkUdNm (evexEnabled feature s) s

/-! ## Feature expressions (R154, the CPUID column of R68) -/

def featVex128 (s : State) : Bool := s.cpu.features.avx
def featVex256 (s : State) : Bool := s.cpu.features.avx2
/-- VPCMPEQD, 128 and 256 bits. -/
def featEvexDVl (s : State) : Bool :=
  (s.cpu.features.avx512vl && s.cpu.features.avx512f) || s.cpu.features.avx10
/-- VPCMPEQD, 512 bits. -/
def featEvexD512 (s : State) : Bool := s.cpu.features.avx512f || s.cpu.features.avx10
/-- VPCMPEQB and VPCMPEQW, 128 and 256 bits. -/
def featEvexBWVl (s : State) : Bool :=
  (s.cpu.features.avx512vl && s.cpu.features.avx512bw) || s.cpu.features.avx10
/-- VPCMPEQB and VPCMPEQW, 512 bits. -/
def featEvexBW512 (s : State) : Bool := s.cpu.features.avx512bw || s.cpu.features.avx10

end Sys2Proof.Machine
end

