-- ==== Sys2Proof/Machine/Operands.lean ====
section
/-! DEFINITION. Every operand form of spec 30_encoding.md: register numbers (R56), effective address and segment (R57,
R58, R60, R66), and the read of a memory operand (R33, R43). -/

namespace Sys2Proof.Machine

/-! ## Register numbers (R56) -/

/-- `B:rm` as a general register. -/
def gprNum (hi : Bool) (n : BitVec 3) : BitVec 4 := bit hi ++ n

/-- `R:reg` or `B:rm` as a vector register of a legacy or VEX form. -/
def vecNum4 (hi : Bool) (n : BitVec 3) : BitVec 5 := 0#1 ++ bit hi ++ n

/-- `X:B:rm` as a vector register of an EVEX form. -/
def vecNum5 (x b : Bool) (n : BitVec 3) : BitVec 5 := bit x ++ bit b ++ n

/-! ## Address of a memory operand -/

/-- Address size `A` of R57; `none` where it is 16 (R59). -/
def addrSize (m : ExecMode) (pfx : List Pfx) : Option Nat :=
  match m, pfx.contains .addrSize with
  | .m64, false => some 64
  | .m64, true => some 32
  | .m32, false => some 32
  | .m32, true => none

/-- The displacement as a 64-bit addend; an 8-bit one is scaled by `N` (R57, R66). -/
def dispVal (n : Nat) : Disp → Addr
  | .none => 0#64
  | .d8 d => d.signExtend 64 * BitVec.ofNat 64 n
  | .d32 d => d.signExtend 64

/-- `indexpart` of R58: no index when `X:index` = 0100. -/
def indexPart (x : Bool) (scale : BitVec 2) (index : BitVec 3) (s : State) : Addr :=
  if gprNum x index = 4#4 then 0#64 else gprVal (gprNum x index) s <<< scale.toNat

/-- What a form's encoding and class fix about its memory operand: prefixes, the extension bits X and B, the scale `N`
of an 8-bit displacement, the alignment demanded and the alignment checked under `AC_ENABLED` (R33, R43, R66). -/
structure MemForm where
  pfx : List Pfx
  x : Bool
  b : Bool
  dispN : Nat
  al : Nat
  ac : Nat
deriving DecidableEq, Repr

/-- The sum of R57 and R58 before it is taken modulo 2^A. -/
def addrSum (f : MemForm) (m : ExecMode) (next : Addr) (a : MemRef) (s : State) : Addr :=
  match a with
  | .base rm d => gprVal (gprNum f.b rm) s + dispVal f.dispN d
  | .disp d =>
    match m with
    | .m64 => next + d.signExtend 64
    | .m32 => d.signExtend 64
  | .sib scale index base d => gprVal (gprNum f.b base) s + indexPart f.x scale index s + dispVal f.dispN d
  | .sibDisp scale index d => d.signExtend 64 + indexPart f.x scale index s

/-- `ea` of R57: the sum modulo 2^A, zero-extended. -/
def effAddr (f : MemForm) (size : Nat) (m : ExecMode) (next : Addr) (a : MemRef) (s : State) : Addr :=
  ((addrSum f m next a s).setWidth size).setWidth 64

/-- The segment override among the prefixes (R51). -/
def segOverride : List Pfx → Option Seg
  | [] => none
  | .seg s :: _ => some s
  | .opSize :: ps => segOverride ps
  | .addrSize :: ps => segOverride ps

/-- SS when the base register is rSP or rBP, else DS (R60). -/
def defaultSeg (b : Bool) : MemRef → Seg
  | .base rm d => if b = false ∧ d ≠ .none ∧ rm = 5#3 then .ss else .ds
  | .disp _ => .ds
  | .sib _ _ base _ => if b = false ∧ (base = 4#3 ∨ base = 5#3) then .ss else .ds
  | .sibDisp _ _ _ => .ds

def segOf (f : MemForm) (a : MemRef) : Seg := (segOverride f.pfx).getD (defaultSeg f.b a)

/-- The `w`-bit memory operand `a`. -/
def memOperand (w : Nat) (f : MemForm) (m : ExecMode) (next : Addr) (a : MemRef) (s : State) : Result (BitVec w) :=
  match addrSize m f.pfx with
  | none => .refused .addr16
  | some size => memRead w f.al f.ac m (segOf f a) (effAddr f size m next a s) s

/-! ## The memory operand of each class -/

/-- MMX `m64`: no alignment demanded, 8 under `AC_ENABLED` (R33 (a)). -/
def mmxMemForm (e : LegacyEnc) : MemForm := { pfx := e.pfx, x := e.x, b := e.b, dispN := 1, al := 1, ac := 8 }

/-- Legacy SSE `m128`: a multiple of 16 (R33 (b)). -/
def xmmMemForm (e : LegacyEnc) : MemForm := { pfx := e.pfx, x := e.x, b := e.b, dispN := 1, al := 16, ac := 1 }

/-- VEX `m128`, `m256`: no alignment (R33 (c)). -/
def vexMemForm (e : VexEnc) : MemForm := { pfx := e.pfx, x := e.head.x, b := e.head.b, dispN := 1, al := 1, ac := 1 }

/-- EVEX full-width operand: no alignment, `N` = VL/8 (R33 (d), R66). -/
def evexMemForm (vl : Nat) (e : EvexEnc) : MemForm :=
  { pfx := e.pfx, x := e.x, b := e.b, dispN := vl / 8, al := 1, ac := 1 }

/-- EVEX `m32bcst`: 4 under `AC_ENABLED`, `N` = 4 (R33 (d), R66). -/
def bcstMemForm (e : EvexEnc) : MemForm := { pfx := e.pfx, x := e.x, b := e.b, dispN := 4, al := 1, ac := 4 }

end Sys2Proof.Machine
end

