-- ==== Sys2Proof/Machine/Evex.lean ====
section
/-! DEFINITION. The EVEX forms, which write an opmask register (spec 43_vpcmpeq_evex.md). -/

namespace Sys2Proof.Machine

/-- `k2`: none when `aaa` = 000 (R141). -/
def writemask (e : EvexEnc) (s : State) : Option (BitVec 64) := if e.aaa = 0#3 then none else some (kVal e.aaa s)

/-- The low `vl` bits of the first source, `V[V':vvvv]` (R139). -/
def evexSource1 (vl : Nat) (e : EvexEnc) (s : State) : BitVec vl := (vecVal e.v5 s).extractLsb' 0 vl

/-- The second source of VPCMPEQB and VPCMPEQW (section 4 of the file): a register or the whole memory operand. The
whole operand is read whatever the writemask is (R141, D27). -/
def evexSourceBW (vl : Nat) (m : ExecMode) (e : EvexEnc) (s : State) : Result (Src2 vl) :=
  match e.rm with
  | .reg rm => .next (.full ((vecVal (vecNum5 e.x e.b rm) s).extractLsb' 0 vl))
  | .mem a => andThen (memOperand vl (evexMemForm vl e) m (pcNext e.len s) a s) fun v => .next (.full v)

/-- The second source of VPCMPEQD (section 3 of the file): as above, or one broadcast doubleword when EVEX.b = 1. -/
def evexSourceD (vl : Nat) (m : ExecMode) (e : EvexEnc) (s : State) : Result (Src2 vl) :=
  match e.rm with
  | .reg rm => .next (.full ((vecVal (vecNum5 e.x e.b rm) s).extractLsb' 0 vl))
  | .mem a =>
    if e.bcst then andThen (memOperand 32 (bcstMemForm e) m (pcNext e.len s) a s) fun v => .next (.bcst v)
    else andThen (memOperand vl (evexMemForm vl e) m (pcNext e.len s) a s) fun v => .next (.full v)

/-- Checks, source read, compare under the writemask, one write of `K[reg]`, pc (R139). -/
def evexForm (esz vl : Nat) (feature : Bool) (source : ExecMode → EvexEnc → State → Result (Src2 vl)) (e : EvexEnc)
    (s : State) : Result State :=
  andThen (startInstr e.len s) fun m =>
  andThen (checkEvex feature s) fun _ =>
  andThen (source m e s) fun s2 =>
  .next (advance e.len (writeK e.reg (evexCmpEq esz vl (evexSource1 vl e s) s2 (writemask e s)) s))

/-- `VPCMPEQD k1 {k2}, xmm2, xmm3/m128/m32bcst` (R130). -/
def execVpcmpeqdEvex128 (e : EvexEnc) (s : State) : Result State :=
  evexForm 32 128 (featEvexDVl s) (evexSourceD 128) e s

/-- `VPCMPEQD k1 {k2}, ymm2, ymm3/m256/m32bcst` (R131). -/
def execVpcmpeqdEvex256 (e : EvexEnc) (s : State) : Result State :=
  evexForm 32 256 (featEvexDVl s) (evexSourceD 256) e s

/-- `VPCMPEQD k1 {k2}, zmm2, zmm3/m512/m32bcst` (R132). -/
def execVpcmpeqdEvex512 (e : EvexEnc) (s : State) : Result State :=
  evexForm 32 512 (featEvexD512 s) (evexSourceD 512) e s

/-- `VPCMPEQB k1 {k2}, xmm2, xmm3/m128` (R133). -/
def execVpcmpeqbEvex128 (e : EvexEnc) (s : State) : Result State :=
  evexForm 8 128 (featEvexBWVl s) (evexSourceBW 128) e s

/-- `VPCMPEQB k1 {k2}, ymm2, ymm3/m256` (R134). -/
def execVpcmpeqbEvex256 (e : EvexEnc) (s : State) : Result State :=
  evexForm 8 256 (featEvexBWVl s) (evexSourceBW 256) e s

/-- `VPCMPEQB k1 {k2}, zmm2, zmm3/m512` (R135). -/
def execVpcmpeqbEvex512 (e : EvexEnc) (s : State) : Result State :=
  evexForm 8 512 (featEvexBW512 s) (evexSourceBW 512) e s

/-- `VPCMPEQW k1 {k2}, xmm2, xmm3/m128` (R136). -/
def execVpcmpeqwEvex128 (e : EvexEnc) (s : State) : Result State :=
  evexForm 16 128 (featEvexBWVl s) (evexSourceBW 128) e s

/-- `VPCMPEQW k1 {k2}, ymm2, ymm3/m256` (R137). -/
def execVpcmpeqwEvex256 (e : EvexEnc) (s : State) : Result State :=
  evexForm 16 256 (featEvexBWVl s) (evexSourceBW 256) e s

/-- `VPCMPEQW k1 {k2}, zmm2, zmm3/m512` (R138). -/
def execVpcmpeqwEvex512 (e : EvexEnc) (s : State) : Result State :=
  evexForm 16 512 (featEvexBW512 s) (evexSourceBW 512) e s

end Sys2Proof.Machine
end

