-- ==== Sys2Proof/Machine/Mmx.lean ====
section
/-! DEFINITION. The MMX forms (spec 40_pcmpeqw_mmx.md, 41_pcmpeq_legacy.md section 3). -/

namespace Sys2Proof.Machine

/-- `mm/m64`: `MM[rm]` or 8 bytes of memory (R100 Operands). -/
def mmxSource (m : ExecMode) (e : LegacyEnc) (s : State) : Result (BitVec 64) :=
  match e.rm with
  | .reg rm => .next (mmVal rm s)
  | .mem a => memOperand 64 (mmxMemForm e) m (pcNext e.len s) a s

/-- The order of R102: checks, source read, compare with the old destination, one write, pc. -/
def mmxForm (esz : Nat) (e : LegacyEnc) (s : State) : Result State :=
  andThen (startInstr e.len s) fun m =>
  andThen (checkMmx s) fun _ =>
  andThen (mmxSource m e s) fun src =>
  .next (advance e.len (writeMm e.reg (cmpEq 64 esz (mmVal e.reg s) src) s))

/-- `PCMPEQB mm, mm/m64` (R110). -/
def execPcmpeqbMmx (e : LegacyEnc) (s : State) : Result State := mmxForm 8 e s

/-- `PCMPEQW mm, mm/m64` (R100). -/
def execPcmpeqwMmx (e : LegacyEnc) (s : State) : Result State := mmxForm 16 e s

/-- `PCMPEQD mm, mm/m64` (R111). -/
def execPcmpeqdMmx (e : LegacyEnc) (s : State) : Result State := mmxForm 32 e s

end Sys2Proof.Machine
end

