-- ==== Sys2Proof/Machine/Sse.lean ====
section
/-! DEFINITION. The legacy SSE forms (spec 41_pcmpeq_legacy.md section 4). -/

namespace Sys2Proof.Machine

/-- `xmm2/m128`: `XMM[B:rm]` or 16 bytes of memory (R112 Operands). -/
def xmmSource (m : ExecMode) (e : LegacyEnc) (s : State) : Result (BitVec 128) :=
  match e.rm with
  | .reg rm => .next ((vecVal (vecNum4 e.b rm) s).extractLsb' 0 128)
  | .mem a => memOperand 128 (xmmMemForm e) m (pcNext e.len s) a s

/-- Checks, source read, compare with the old destination, one write of bits 127:0, pc (R118). -/
def xmmForm (esz : Nat) (e : LegacyEnc) (s : State) : Result State :=
  andThen (startInstr e.len s) fun m =>
  andThen (checkSse s) fun _ =>
  andThen (xmmSource m e s) fun src =>
  let d := vecNum4 e.r e.reg
  .next (advance e.len (writeXmm d (cmpEq 128 esz ((vecVal d s).extractLsb' 0 128) src) s))

/-- `PCMPEQB xmm1, xmm2/m128` (R112). -/
def execPcmpeqbXmm (e : LegacyEnc) (s : State) : Result State := xmmForm 8 e s

/-- `PCMPEQW xmm1, xmm2/m128` (R113). -/
def execPcmpeqwXmm (e : LegacyEnc) (s : State) : Result State := xmmForm 16 e s

/-- `PCMPEQD xmm1, xmm2/m128` (R114). -/
def execPcmpeqdXmm (e : LegacyEnc) (s : State) : Result State := xmmForm 32 e s

end Sys2Proof.Machine
end

