-- ==== Sys2Proof/Machine/Vex.lean ====
section
/-! DEFINITION. The VEX forms (spec 42_vpcmpeq_vex.md). -/

namespace Sys2Proof.Machine

/-- `SRC2`: the low `w` bits of `V[B:rm]`, or `w/8` bytes of memory (R120, R123). -/
def vexSource (w : Nat) (m : ExecMode) (e : VexEnc) (s : State) : Result (BitVec w) :=
  match e.rm with
  | .reg rm => .next ((vecVal (vecNum4 e.head.b rm) s).extractLsb' 0 w)
  | .mem a => memOperand w (vexMemForm e) m (pcNext e.len s) a s

/-- The low `w` bits of `SRC1`, `V[vvvv]` (R126). -/
def vexSource1 (w : Nat) (e : VexEnc) (s : State) : BitVec w := (vecVal (0#1 ++ e.vvvv) s).extractLsb' 0 w

/-- Checks, source read, compare, one write of the whole register, pc (R126). -/
def vexForm (w : Nat) (cmp : BitVec w → BitVec w → BitVec w) (feature : Bool) (e : VexEnc) (s : State) :
    Result State :=
  andThen (startInstr e.len s) fun m =>
  andThen (checkVex feature s) fun _ =>
  andThen (vexSource w m e s) fun s2 =>
  .next (advance e.len (writeVecZext (vecNum4 e.head.r e.reg) (cmp (vexSource1 w e s) s2) s))

/-- `VPCMPEQB xmm1, xmm2, xmm3/m128` (R120). -/
def execVpcmpeqbVex128 (e : VexEnc) (s : State) : Result State := vexForm 128 (cmpEq 128 8) (featVex128 s) e s

/-- `VPCMPEQW xmm1, xmm2, xmm3/m128` (R121). -/
def execVpcmpeqwVex128 (e : VexEnc) (s : State) : Result State := vexForm 128 (cmpEq 128 16) (featVex128 s) e s

/-- `VPCMPEQD xmm1, xmm2, xmm3/m128` (R122). -/
def execVpcmpeqdVex128 (e : VexEnc) (s : State) : Result State := vexForm 128 (cmpEq 128 32) (featVex128 s) e s

/-- `VPCMPEQB ymm1, ymm2, ymm3/m256` (R123). -/
def execVpcmpeqbVex256 (e : VexEnc) (s : State) : Result State := vexForm 256 (cmpEq256 8) (featVex256 s) e s

/-- `VPCMPEQW ymm1, ymm2, ymm3/m256` (R124). -/
def execVpcmpeqwVex256 (e : VexEnc) (s : State) : Result State := vexForm 256 (cmpEq256 16) (featVex256 s) e s

/-- `VPCMPEQD ymm1, ymm2, ymm3/m256` (R125). -/
def execVpcmpeqdVex256 (e : VexEnc) (s : State) : Result State := vexForm 256 (cmpEq256 32) (featVex256 s) e s

end Sys2Proof.Machine
end

