-- ==== Sys2Proof/Machine/Dispatch.lean ====
section
/-! DEFINITION. One arm for each row of spec/opcode_table.json. -/

namespace Sys2Proof.Machine

def exec (i : Instr) (s : State) : Host.Outcome State Fault Refusal :=
  match i with
  | .pcmpeqbMmx e => Sys2Proof.Machine.execPcmpeqbMmx e s
  | .pcmpeqbXmm e => Sys2Proof.Machine.execPcmpeqbXmm e s
  | .pcmpeqwMmx e => Sys2Proof.Machine.execPcmpeqwMmx e s
  | .pcmpeqwXmm e => Sys2Proof.Machine.execPcmpeqwXmm e s
  | .pcmpeqdMmx e => Sys2Proof.Machine.execPcmpeqdMmx e s
  | .pcmpeqdXmm e => Sys2Proof.Machine.execPcmpeqdXmm e s
  | .vpcmpeqbVex128 e => Sys2Proof.Machine.execVpcmpeqbVex128 e s
  | .vpcmpeqwVex128 e => Sys2Proof.Machine.execVpcmpeqwVex128 e s
  | .vpcmpeqdVex128 e => Sys2Proof.Machine.execVpcmpeqdVex128 e s
  | .vpcmpeqbVex256 e => Sys2Proof.Machine.execVpcmpeqbVex256 e s
  | .vpcmpeqwVex256 e => Sys2Proof.Machine.execVpcmpeqwVex256 e s
  | .vpcmpeqdVex256 e => Sys2Proof.Machine.execVpcmpeqdVex256 e s
  | .vpcmpeqdEvex128 e => Sys2Proof.Machine.execVpcmpeqdEvex128 e s
  | .vpcmpeqdEvex256 e => Sys2Proof.Machine.execVpcmpeqdEvex256 e s
  | .vpcmpeqdEvex512 e => Sys2Proof.Machine.execVpcmpeqdEvex512 e s
  | .vpcmpeqbEvex128 e => Sys2Proof.Machine.execVpcmpeqbEvex128 e s
  | .vpcmpeqbEvex256 e => Sys2Proof.Machine.execVpcmpeqbEvex256 e s
  | .vpcmpeqbEvex512 e => Sys2Proof.Machine.execVpcmpeqbEvex512 e s
  | .vpcmpeqwEvex128 e => Sys2Proof.Machine.execVpcmpeqwEvex128 e s
  | .vpcmpeqwEvex256 e => Sys2Proof.Machine.execVpcmpeqwEvex256 e s
  | .vpcmpeqwEvex512 e => Sys2Proof.Machine.execVpcmpeqwEvex512 e s

end Sys2Proof.Machine
end

