-- ==== Sys2Proof/Machine/Fetch.lean ====
section
/-! DEFINITION. Fetching and decoding the instruction at the pc (spec 10_state.md rule R14, 20_memory.md rule R36,
60_exceptions.md rule R159 (1), (2), 70_reset_and_hazards.md rules R181, R183). -/

namespace Sys2Proof.Machine

/-- The most bytes an instruction may have (R61, R159 (2)). -/
def fetchLimit : Nat := 15

/-- The address lies in the program (R183). -/
def inProgram (a : Nat) (s : State) : Bool :=
  decide (s.code.base.toNat ≤ a) && decide (a < s.code.base.toNat + s.code.len)

/-- Why the byte at `a` cannot be fetched, if it cannot: no such address (R14), outside the program (R183), not
accessible (R181). For a code address that is not canonical R181's table and R159 (1) name FetchFault, R14 and D10 name
PcWrap: the model answers PcWrap, DESIGN CHOICE (log 13). The order of the three is log 15's. -/
def fetchStopAt (m : ExecMode) (a : Nat) (s : State) : Option FetchStop :=
  if 2 ^ m.addrBits ≤ a ∨ canonicalRange m s.cpu.vaBits a 1 = false then some .pcWrap
  else if inProgram a s = false then some .runsPastEnd
  else if accessible s.access a 1 = false then some .fetchFault
  else none

/-- The bytes that can be fetched from `a` on, at most `n`. -/
def fetchBytes (m : ExecMode) (s : State) : Nat → Nat → List Byte
  | 0, _ => []
  | n + 1, a => if (fetchStopAt m a s).isSome then [] else Memory.read s.mem a :: fetchBytes m s n (a + 1)

/-- Why `fetchBytes` ends where it does. -/
def fetchStop (m : ExecMode) (s : State) : Nat → Nat → FetchStop
  | 0, _ => .tooLong
  | n + 1, a =>
    match fetchStopAt m a s with
    | some r => r
    | none => fetchStop m s n (a + 1)

/-- The outcome when the instruction needs a byte that cannot be fetched; over 15 bytes is `#GP(0)` (R159 (2)). -/
def stopOfFetch {α : Type} : FetchStop → Result α
  | .pcWrap => .refused .pcWrap
  | .runsPastEnd => .refused .runsPastEnd
  | .fetchFault => .refused .fetchFault
  | .tooLong => raise .gp

/-- The outcome when the decoder answers no instruction (R69, D3). -/
def stopOfDecode {α : Type} (stop : FetchStop) : DecodeError → Result α
  | .truncated => stopOfFetch stop
  | .ud => raise .ud
  | .unknownOpcode => .refused .unknownOpcode
  | .misplacedRex => .refused .misplacedRex
  | .repeatedPrefix => .refused .repeatedPrefix
  | .reservedPrefix => .refused .reservedPrefix
  | .rexOnMmxRegister => .refused .rexOnMmxRegister
  | .vexHighRegIn32 => .refused .vexHighRegIn32
  | .evexReservedField => .refused .evexReservedField
  | .addr16 => .refused .addr16

/-- The bytes at the pc, in execution mode `m`. -/
def window (m : ExecMode) (s : State) : List Byte := fetchBytes m s fetchLimit s.pc.toNat

/-- The instruction at the pc (R72). DESIGN CHOICE (log 27): what the decoder answers from the bytes it has read stands,
`#UD` included. A byte that cannot be fetched stops the step only where R72 asks for that byte, though R159 (1) and D14
put the fetch of all of them first. And a decode-time `#UD` or refusal comes before R14's and D10's PcWrap, which the spec
does not order against R72: PcWrap is answered only for a byte R72 asks for, or for the `pc + ilen` of an instruction
that has decoded. -/
def fetchDecodeIn (m : ExecMode) (s : State) : Result Instr :=
  match decode m (window m s) with
  | .ok (i, _) => .next i
  | .error e => stopOfDecode (fetchStop m s fetchLimit s.pc.toNat) e

/-- Fetch and decode, in the two modes the forms run in (D2). -/
def fetchDecode (s : State) : Result Instr :=
  match s.mode with
  | .admitted m => fetchDecodeIn m s
  | .realAddress => .refused .mode
  | .virtual8086 => .refused .mode
  | .code16 => .refused .mode
  | .systemManagement => .refused .mode

/-- The state with the instruction a table word stands for launched at the pc (R73, R181, log 10). -/
def launchTableWord (s : State) (nbits w : Nat) : State := launch (tableBytes nbits w) s

end Sys2Proof.Machine
end

