-- ==== Sys2Proof/Machine/Step.lean ====
section
/-! DEFINITION. One step: fetch, decode, execute (spec 00_scope.md rule R9). -/

namespace Sys2Proof.Machine

/-- One step of the machine (R9). Each meaning advances the pc itself (R14). -/
def step (s : State) : Host.Outcome State Fault Refusal := andThen (fetchDecode s) fun i => exec i s

/-- The state with the instruction of an opcode-table word launched at the pc, so that the next step runs it. -/
def State.withFetchWord (s : State) (nbits w : Nat) : State := launchTableWord s nbits w

end Sys2Proof.Machine
end

