-- ==== Sys2Proof/Safety.lean ====
section
/-! DEFINITION. The terms claims use: the launch premises of each class (spec 70_reset_and_hazards.md rule R181), a
readable memory operand (20_memory.md rules R33, R43), the value of a source operand, the room an instruction needs
(10_state.md rule R14), the end of a run (R183), and the invariant of the machine. Each is spelled out here in the
spec's words, apart from the functions the meanings compute with. -/

namespace Sys2Proof.Machine

/-! ## Premises -/

/-- Bits 63 down to `VA_BITS - 1` of `a` are all equal, in the words of R43. -/
def CanonicalBits (va : VaBits) (a : Nat) : Prop :=
  ∀ j k, va.bits - 1 ≤ j → j < 64 → va.bits - 1 ≤ k → k < 64 → a.testBit j = a.testBit k

/-- The low or the high half of the 64-bit addresses: what `CanonicalBits` says of one (R43). -/
def IsCanonical (va : VaBits) (a : Nat) : Prop :=
  a < 2 ^ (va.bits - 1) ∨ (2 ^ 64 - 2 ^ (va.bits - 1) ≤ a ∧ a < 2 ^ 64)

/-- `pc + ilen` is an address; in 64-bit mode it and every byte of the instruction are canonical (R14, D10). -/
def PcRoom (m : ExecMode) (len : Nat) (s : State) : Prop :=
  s.pc.toNat + len < 2 ^ m.addrBits ∧ (m = .m64 → ∀ i, i ≤ len → IsCanonical s.cpu.vaBits (s.pc.toNat + i))

/-- R181 for the MMX forms: the feature, CR0.EM = 0, CR0.TS = 0, no pending x87 exception. -/
def MmxReady (s : State) : Prop :=
  s.cpu.features.mmx = true ∧ s.cr0.getLsbD 2 = false ∧ s.cr0.getLsbD 3 = false ∧ s.fsw.getLsbD 7 = false

/-- R181 for the legacy SSE forms. -/
def SseReady (s : State) : Prop :=
  s.cpu.features.sse2 = true ∧ s.cr0.getLsbD 2 = false ∧ s.cr0.getLsbD 3 = false ∧ s.cr4.getLsbD 9 = true

/-- R181 for the VEX forms but the feature: CR0.TS = 0, CR4.OSXSAVE = 1, XCR0[2:1] = 11. -/
def VexReady (s : State) : Prop :=
  s.cr0.getLsbD 3 = false ∧ s.cr4.getLsbD 18 = true ∧ s.xcr0.getLsbD 1 = true ∧ s.xcr0.getLsbD 2 = true

/-- R181 for the EVEX forms but the feature: also XCR0[7:5] = 111. -/
def EvexReady (s : State) : Prop :=
  VexReady s ∧ s.xcr0.getLsbD 5 = true ∧ s.xcr0.getLsbD 6 = true ∧ s.xcr0.getLsbD 7 = true

/-- The CPUID column of R68 for a VEX form. -/
def VexFeature (wide : Bool) (s : State) : Prop :=
  if wide then s.cpu.features.avx2 = true else s.cpu.features.avx = true

/-- The CPUID column of R68 for an EVEX form. -/
def EvexFeature (vl : VecLen) (el : Elem) (s : State) : Prop :=
  s.cpu.features.avx10 = true ∨
    ((vl = .v512 ∨ s.cpu.features.avx512vl = true) ∧
      (if el = .dword then s.cpu.features.avx512f = true else s.cpu.features.avx512bw = true))

/-- R154: the feature expression of the form holds. -/
def FormFeature (i : Instr) (s : State) : Prop :=
  match i with
  | .pcmpeqbMmx _ => s.cpu.features.mmx = true
  | .pcmpeqwMmx _ => s.cpu.features.mmx = true
  | .pcmpeqdMmx _ => s.cpu.features.mmx = true
  | .pcmpeqbXmm _ => s.cpu.features.sse2 = true
  | .pcmpeqwXmm _ => s.cpu.features.sse2 = true
  | .pcmpeqdXmm _ => s.cpu.features.sse2 = true
  | .vpcmpeqbVex128 _ => s.cpu.features.avx = true
  | .vpcmpeqwVex128 _ => s.cpu.features.avx = true
  | .vpcmpeqdVex128 _ => s.cpu.features.avx = true
  | .vpcmpeqbVex256 _ => s.cpu.features.avx2 = true
  | .vpcmpeqwVex256 _ => s.cpu.features.avx2 = true
  | .vpcmpeqdVex256 _ => s.cpu.features.avx2 = true
  | .vpcmpeqdEvex128 _ =>
    (s.cpu.features.avx512vl = true ∧ s.cpu.features.avx512f = true) ∨ s.cpu.features.avx10 = true
  | .vpcmpeqdEvex256 _ =>
    (s.cpu.features.avx512vl = true ∧ s.cpu.features.avx512f = true) ∨ s.cpu.features.avx10 = true
  | .vpcmpeqdEvex512 _ => s.cpu.features.avx512f = true ∨ s.cpu.features.avx10 = true
  | .vpcmpeqbEvex128 _ =>
    (s.cpu.features.avx512vl = true ∧ s.cpu.features.avx512bw = true) ∨ s.cpu.features.avx10 = true
  | .vpcmpeqbEvex256 _ =>
    (s.cpu.features.avx512vl = true ∧ s.cpu.features.avx512bw = true) ∨ s.cpu.features.avx10 = true
  | .vpcmpeqbEvex512 _ => s.cpu.features.avx512bw = true ∨ s.cpu.features.avx10 = true
  | .vpcmpeqwEvex128 _ =>
    (s.cpu.features.avx512vl = true ∧ s.cpu.features.avx512bw = true) ∨ s.cpu.features.avx10 = true
  | .vpcmpeqwEvex256 _ =>
    (s.cpu.features.avx512vl = true ∧ s.cpu.features.avx512bw = true) ∨ s.cpu.features.avx10 = true
  | .vpcmpeqwEvex512 _ => s.cpu.features.avx512bw = true ∨ s.cpu.features.avx10 = true

/-! ## Widths -/

/-- Bits of an element. -/
def elemBits : Elem → Nat
  | .byte => 8
  | .word => 16
  | .dword => 32

/-- Bits of a vector, `VL`. -/
def vecBits : VecLen → Nat
  | .v128 => 128
  | .v256 => 256
  | .v512 => 512

/-- Bits of a VEX form's vector. -/
def vexBits (wide : Bool) : Nat := if wide then 256 else 128

/-! ## Memory operands -/

/-- The byte at `a` can be read as data. -/
def ByteAccessible (s : State) (a : Nat) : Prop := ∃ r ∈ s.access, r.base ≤ a ∧ a < r.base + r.size

/-- A read of `n` bytes at the linear address `la` raises nothing (R43). -/
def Readable (n al ac : Nat) (m : ExecMode) (la : Nat) (s : State) : Prop :=
  la + n ≤ 2 ^ m.addrBits ∧ (m = .m64 → ∀ i, i < n → IsCanonical s.cpu.vaBits (la + i)) ∧ la % al = 0 ∧
    (∀ i, i < n → ByteAccessible s (la + i)) ∧ (acEnabled s = true → la % ac = 0)

/-- The linear address of a form's memory operand is `la`: there is an address size (R59) and `la` is R43's. -/
def OperandAt (f : MemForm) (m : ExecMode) (next : Addr) (a : MemRef) (s : State) (la : Nat) : Prop :=
  ∃ size, addrSize m f.pfx = some size ∧ la = linearAddr m (segOf f a) (effAddr f size m next a s) s

/-- The memory operand `a` is readable and its `w`-bit value is `v`. -/
def MemOperandIs (w : Nat) (f : MemForm) (m : ExecMode) (next : Addr) (a : MemRef) (s : State) (v : BitVec w) : Prop :=
  ∃ la, OperandAt f m next a s la ∧ Readable (w / 8) f.al f.ac m la s ∧ v = memValue s.mem la w

/-- The r/m operand has the value `v`: the register's, or a readable memory operand's. -/
def SourceIs (w : Nat) (f : MemForm) (m : ExecMode) (next : Addr) (reg : BitVec 3 → BitVec w) (rm : RegMem) (s : State)
    (v : BitVec w) : Prop :=
  match rm with
  | .reg r => v = reg r
  | .mem a => MemOperandIs w f m next a s v

/-- The source of an MMX form: `MM[rm]` or `m64` (R100). -/
def MmxSourceIs (m : ExecMode) (e : LegacyEnc) (s : State) (v : BitVec 64) : Prop :=
  SourceIs 64 (mmxMemForm e) m (pcNext e.len s) (fun r => mmVal r s) e.rm s v

/-- The source of a legacy SSE form: `XMM[B:rm]` or `m128` (R112). -/
def XmmSourceIs (m : ExecMode) (e : LegacyEnc) (s : State) (v : BitVec 128) : Prop :=
  SourceIs 128 (xmmMemForm e) m (pcNext e.len s) (fun r => (vecVal (vecNum4 e.b r) s).extractLsb' 0 128) e.rm s v

/-- The second source of a VEX form: the low bits of `V[B:rm]`, or memory (R126). -/
def VexSourceIs (w : Nat) (m : ExecMode) (e : VexEnc) (s : State) (v : BitVec w) : Prop :=
  SourceIs w (vexMemForm e) m (pcNext e.len s) (fun r => (vecVal (vecNum4 e.head.b r) s).extractLsb' 0 w) e.rm s v

/-- The whole-vector second source of an EVEX form: the low bits of `V[X:B:rm]`, or memory (R139). -/
def EvexSourceIs (vl : Nat) (m : ExecMode) (e : EvexEnc) (s : State) (v : BitVec vl) : Prop :=
  SourceIs vl (evexMemForm vl e) m (pcNext e.len s) (fun r => (vecVal (vecNum5 e.x e.b r) s).extractLsb' 0 vl) e.rm s v

/-- The broadcast second source of VPCMPEQD, `m32bcst` (R139). -/
def BcstSourceIs (m : ExecMode) (e : EvexEnc) (s : State) (v : BitVec 32) : Prop :=
  ∃ a, e.rm = .mem a ∧ MemOperandIs 32 (bcstMemForm e) m (pcNext e.len s) a s v

/-! ## Addresses as numbers (R57, R58, R66) -/

/-- The displacement as a number; an 8-bit one scaled by `N`. -/
def dispInt (n : Nat) : Disp → Int
  | .none => 0
  | .d8 d => d.toInt * n
  | .d32 d => d.toInt

/-- `G(n)` of R57: general register `n` truncated to `size` bits. -/
def gprTrunc (size : Nat) (n : BitVec 4) (s : State) : Int := ((gprVal n s).toNat % 2 ^ size : Nat)

/-- `indexpart` of R58: no index when `X:index` = 0100b. -/
def indexInt (size : Nat) (x : Bool) (scale : BitVec 2) (index : BitVec 3) (s : State) : Int :=
  if x = false ∧ index = 4#3 then 0 else gprTrunc size (gprNum x index) s * 2 ^ scale.toNat

/-- The sum of R57 and R58 over the integers. -/
def addrInt (f : MemForm) (size : Nat) (m : ExecMode) (next : Addr) (a : MemRef) (s : State) : Int :=
  match a with
  | .base rm d => gprTrunc size (gprNum f.b rm) s + dispInt f.dispN d
  | .disp d =>
    match m with
    | .m64 => next.toNat + d.toInt
    | .m32 => d.toInt
  | .sib scale index base d =>
    gprTrunc size (gprNum f.b base) s + indexInt size f.x scale index s + dispInt f.dispN d
  | .sibDisp scale index d => d.toInt + indexInt size f.x scale index s

/-! ## Code -/

/-- The byte at `a` can be fetched: it has an address of the mode (R14), lies in the program (R183) and is accessible
(R181). -/
def Fetchable (m : ExecMode) (s : State) (a : Nat) : Prop :=
  a < 2 ^ m.addrBits ∧ (m = .m64 → IsCanonical s.cpu.vaBits a) ∧ s.code.base.toNat ≤ a ∧
    a < s.code.base.toNat + s.code.len ∧ ByteAccessible s a

/-- The bytes `bs` stand at the pc and each can be fetched. -/
def CodeAtPc (m : ExecMode) (bs : List Byte) (s : State) : Prop :=
  ∀ j (h : j < bs.length), Fetchable m s (s.pc.toNat + j) ∧ Memory.read s.mem (s.pc.toNat + j) = bs[j]

/-- `t` is the state after `n` completed steps from `s`. -/
def Reaches : Nat → State → State → Prop
  | 0, s, t => t = s
  | n + 1, s, t => ∃ u, step s = .next u ∧ Reaches n u t

/-! ## End of a run, invariant -/

/-- `t` is the final state of the run from `s` (R183 (a)): the run starts at `CODE_BASE`, at least one instruction has
completed, and the pc is at `CODE_BASE + CODE_LEN` exactly. So an empty program has no final state. -/
def Final (s t : State) : Prop :=
  s.pc = s.code.base ∧ (∃ n, Reaches (n + 1) s t) ∧ t.pc.toNat = t.code.base.toNat + t.code.len

/-- `t` is where the run from `s` ends by a stop (R183 (b)): the next step answers a fault or a refusal, and `t` is not
final. -/
def StopsAt (s t : State) : Prop :=
  s.pc = s.code.base ∧ (∃ n, Reaches n s t) ∧ ¬ Final s t ∧
    ((∃ e, step t = .fault e) ∨ ∃ r, step t = .refused r)

/-- Bits at and above `MAXVL` of a vector register and at and above `MAX_KL` of an opmask register do not exist: the
container holds 0 there (R11, R12). -/
def RegsFit (s : State) : Prop :=
  (∀ i, (vecVal i s).toNat < 2 ^ s.cpu.maxVl.bits) ∧ (∀ i, (kVal i s).toNat < 2 ^ s.cpu.maxKl.bits)

/-- The pc is an address of the mode, canonical in 64-bit mode (R14, D10). -/
def PcIsAddress (s : State) : Prop :=
  ∀ m, s.mode = .admitted m →
    s.pc.toNat < 2 ^ m.addrBits ∧ (m = .m64 → IsCanonical s.cpu.vaBits s.pc.toNat)

/-- The invariant every step keeps: canonical memory, registers inside their widths, an address in the pc, and a
processor whose register widths suit its features (R4, D18). -/
def Inv (s : State) : Prop :=
  Memory.wf s.mem = true ∧ RegsFit s ∧ PcIsAddress s ∧ s.cpu.consistent = true

/-- What a launch fixes and no form writes: mode, parameters, program range, accessible ranges, segment bases, control
registers and privilege level (R4, R16, R24). -/
def SameLaunch (s t : State) : Prop :=
  t.mode = s.mode ∧ t.cpu = s.cpu ∧ t.code = s.code ∧ t.access = s.access ∧ t.fsBase = s.fsBase ∧
    t.gsBase = s.gsBase ∧ t.cr0 = s.cr0 ∧ t.cr4 = s.cr4 ∧ t.xcr0 = s.xcr0 ∧ t.cpl = s.cpl

/-- No form writes these (R24): EFLAGS, MXCSR, general registers, memory. -/
def SameFlagsAndMemory (s t : State) : Prop :=
  t.eflags = s.eflags ∧ t.mxcsr = s.mxcsr ∧ t.gpr = s.gpr ∧ ∀ a, Memory.read t.mem a = Memory.read s.mem a

/-- The x87 registers and status (R10, R17). -/
def SameX87 (s t : State) : Prop := t.mm = s.mm ∧ t.fpHigh = s.fpHigh ∧ t.fsw = s.fsw ∧ t.ftw = s.ftw

/-- Apply `f` to the next state of an outcome. -/
def mapNext (f : State → State) : Host.Outcome State Fault Refusal → Host.Outcome State Fault Refusal
  | .next s => .next (f s)
  | .fault e => .fault e
  | .refused r => .refused r

end Sys2Proof.Machine
end

