-- ==== Sys2Proof/Certificates/Slice0/Obligations.lean ====
section
/-! DEFINITION. The statements for the provers. Each docstring names the rule of spec/ it formalises; where it rests on
a choice of the model it names the log entry. Instructions are named by their constructors, so that no statement leans
on the decoder's own choice of constructor. -/

open Sys2Proof Sys2Proof.Machine

/-! ## Lane functions -/

/-- R101: `EQ8`, `EQ16`, `EQ32`. -/
def Obligations.EqualElementsGiveAllOnesElseZero : Prop :=
  (∀ a b : BitVec 16, (a = b → eqLane a b = 0xFFFF#16) ∧ (a ≠ b → eqLane a b = 0x0000#16)) ∧
  (∀ a b : BitVec 8, (a = b → eqLane a b = 0xFF#8) ∧ (a ≠ b → eqLane a b = 0x00#8)) ∧
  (∀ a b : BitVec 32, (a = b → eqLane a b = 0xFFFFFFFF#32) ∧ (a ≠ b → eqLane a b = 0x00000000#32))

/-- The laws R101 derives from its definition ("Laws [derived: from the definition]"), at each width. -/
def Obligations.EqualityLawsOfTheLaneFunction : Prop :=
  (∀ a b : BitVec 8, eqLane a a = 0xFF#8 ∧ eqLane a b = eqLane b a ∧ (eqLane a b = 0xFF#8 ↔ a ^^^ b = 0#8) ∧
    eqLane (eqLane a b) 0#8 = ~~~ eqLane a b) ∧
  (∀ a b : BitVec 16, eqLane a a = 0xFFFF#16 ∧ eqLane a b = eqLane b a ∧ (eqLane a b = 0xFFFF#16 ↔ a ^^^ b = 0#16) ∧
    eqLane (eqLane a b) 0#16 = ~~~ eqLane a b) ∧
  (∀ a b : BitVec 32, eqLane a a = 0xFFFFFFFF#32 ∧ eqLane a b = eqLane b a ∧
    (eqLane a b = 0xFFFFFFFF#32 ↔ a ^^^ b = 0#32) ∧ eqLane (eqLane a b) 0#32 = ~~~ eqLane a b)

/-- R116 `COMPARE_WORDS_EQUAL` and R117 `COMPARE_DWORDS_EQUAL`. -/
def Obligations.CompareWordsAndDwordsLaneByLane : Prop :=
  ∀ a b : BitVec 128,
    (∀ i, i < 8 → (cmpEq 128 16 a b).extractLsb' (16 * i) 16 =
      if a.extractLsb' (16 * i) 16 = b.extractLsb' (16 * i) 16 then 0xFFFF#16 else 0#16) ∧
    (∀ i, i < 4 → (cmpEq 128 32 a b).extractLsb' (32 * i) 32 =
      if a.extractLsb' (32 * i) 32 = b.extractLsb' (32 * i) 32 then 0xFFFFFFFF#32 else 0#32)

/-- R115 `COMPARE_BYTES_EQUAL` (its elided bytes are the spec's own inference) and R123 to R125: a 256-bit compare is
two independent 128-bit halves, that is 32, 16 or 8 independent elements. -/
def Obligations.CompareBytesAndHalvesLaneByLane : Prop :=
  (∀ a b : BitVec 128, ∀ i, i < 16 → (cmpEq 128 8 a b).extractLsb' (8 * i) 8 =
    if a.extractLsb' (8 * i) 8 = b.extractLsb' (8 * i) 8 then 0xFF#8 else 0#8) ∧
  (∀ (el : Elem) (a b : BitVec 256), ∀ i, i < 256 / elemBits el →
    (cmpEq256 (elemBits el) a b).extractLsb' (elemBits el * i) (elemBits el) =
      if a.extractLsb' (elemBits el * i) (elemBits el) = b.extractLsb' (elemBits el * i) (elemBits el)
      then BitVec.allOnes (elemBits el) else 0#(elemBits el))

/-- R140 `EVEX_CMPEQ`: bit `j` below `KL = VL / esz` compares element `j` (the broadcast value when `bcst`, only with
32-bit elements) where the mask lets it; every other bit of the result is 0. -/
def Obligations.OpmaskCompareBitByBit : Prop :=
  (∀ (el : Elem) (vl : VecLen) (s1 s2 : BitVec (vecBits vl)) (j : Nat),
    (evexCmpEq (elemBits el) (vecBits vl) s1 (.full s2) none).getLsbD j =
      (decide (j < vecBits vl / elemBits el) &&
        (s1.extractLsb' (j * elemBits el) (elemBits el) == s2.extractLsb' (j * elemBits el) (elemBits el))) ∧
    ∀ km : BitVec 64, (evexCmpEq (elemBits el) (vecBits vl) s1 (.full s2) (some km)).getLsbD j =
      (decide (j < vecBits vl / elemBits el) && km.getLsbD j &&
        (s1.extractLsb' (j * elemBits el) (elemBits el) == s2.extractLsb' (j * elemBits el) (elemBits el)))) ∧
  (∀ (vl : VecLen) (s1 : BitVec (vecBits vl)) (s2 : BitVec 32) (j : Nat),
    (evexCmpEq 32 (vecBits vl) s1 (.bcst s2) none).getLsbD j =
      (decide (j < vecBits vl / 32) && (s1.extractLsb' (j * 32) 32 == s2)) ∧
    ∀ km : BitVec 64, (evexCmpEq 32 (vecBits vl) s1 (.bcst s2) (some km)).getLsbD j =
      (decide (j < vecBits vl / 32) && km.getLsbD j && (s1.extractLsb' (j * 32) 32 == s2)))

/-! ## Memory -/

/-- R31 (byte order is the spec's decision D5): little-endian values, the word, doubleword and quadword views of one operand, and a displacement stored low
byte first. -/
def Obligations.MemoryIsLittleEndian : Prop :=
  (∀ (mem : Memory) (a n : Nat), (memValue mem a (8 * n)).toNat =
    ((List.range n).map fun i => (Memory.read mem (a + i)).toNat * 2 ^ (8 * i)).sum) ∧
  (∀ (mem : Memory) (a i : Nat), i < 4 → (memValue mem a 64).extractLsb' (16 * i) 16 =
    Memory.read mem (a + 2 * i + 1) ++ Memory.read mem (a + 2 * i)) ∧
  (∀ (mem : Memory) (a i : Nat), i < 2 → (memValue mem a 64).extractLsb' (32 * i) 32 = memValue mem (a + 4 * i) 32) ∧
  (∀ (b0 b1 b2 b3 : Byte) (rest : List Byte), ∃ d, readDisp32 (b0 :: b1 :: b2 :: b3 :: rest) = .ok (d, rest) ∧
    d.toNat = b0.toNat + 256 * b1.toNat + 65536 * b2.toNat + 16777216 * b3.toNat)

/-- R43 `MemRead(seg, ea, n)`, check by check in its order (the order is the spec's decision D20, the refused wrap its
D3), and the alignments each form asks of it (R33, D6). Two clauses are the model's choice: that an inaccessible byte
raises `#PF` (log 17: R37 and R43 leave `#PF`, `#GP` or `#SS` to the platform, D4 gives the default), and that `#SS` goes by
the segment R60 selects, an override included (log 18: R43, where D20 speaks of the base register). -/
def Obligations.MemReadChecksInOrder : Prop :=
  (∀ (n al ac : Nat) (m : ExecMode) (seg : Seg) (ea : Addr) (s : State) (base : Addr) (la : Nat),
    (seg = .fs → base = s.fsBase) → (seg = .gs → base = s.gsBase) → (seg ≠ .fs → seg ≠ .gs → base = 0#64) →
    la = (base.toNat + ea.toNat) % 2 ^ m.addrBits →
    (2 ^ m.addrBits < la + n → memRead (8 * n) al ac m seg ea s = .refused .addressWrap) ∧
    (la + n ≤ 2 ^ m.addrBits →
      ((m = .m64 ∧ ∃ i, i < n ∧ ¬ CanonicalBits s.cpu.vaBits (la + i)) →
        (seg = .ss → memRead (8 * n) al ac m seg ea s = .fault .ss) ∧
        (seg ≠ .ss → memRead (8 * n) al ac m seg ea s = .fault .gp)) ∧
      ((m = .m64 → ∀ i, i < n → CanonicalBits s.cpu.vaBits (la + i)) →
        (la % al ≠ 0 → memRead (8 * n) al ac m seg ea s = .fault .gp) ∧
        (la % al = 0 →
          ((∃ i, i < n ∧ ¬ ByteAccessible s (la + i)) → memRead (8 * n) al ac m seg ea s = .fault .pf) ∧
          ((∀ i, i < n → ByteAccessible s (la + i)) →
            ((s.cr0.getLsbD 18 = true ∧ s.eflags.getLsbD 18 = true ∧ s.cpl = 3#2 ∧ la % ac ≠ 0) →
              memRead (8 * n) al ac m seg ea s = .fault .ac) ∧
            (¬ (s.cr0.getLsbD 18 = true ∧ s.eflags.getLsbD 18 = true ∧ s.cpl = 3#2 ∧ la % ac ≠ 0) →
              ∃ v, memRead (8 * n) al ac m seg ea s = .next v ∧
                v.toNat = ((List.range n).map fun i => (Memory.read s.mem (la + i)).toNat * 2 ^ (8 * i)).sum)))))) ∧
  (∀ e : LegacyEnc, (mmxMemForm e).al = 1 ∧ (mmxMemForm e).ac = 8 ∧ (xmmMemForm e).al = 16 ∧ (xmmMemForm e).ac = 1) ∧
  (∀ e : VexEnc, (vexMemForm e).al = 1 ∧ (vexMemForm e).ac = 1) ∧
  (∀ (vl : Nat) (e : EvexEnc), (evexMemForm vl e).al = 1 ∧ (evexMemForm vl e).ac = 1 ∧ (bcstMemForm e).al = 1 ∧
    (bcstMemForm e).ac = 4)

/-- R57, R58, R66: the effective address is the sum over the integers taken modulo 2^A, for every addressing form, and
`N` scales an 8-bit displacement of an EVEX form only. R57: A is 64 or 32 in 64-bit mode, 32 in 32-bit mode. -/
def Obligations.EffectiveAddressIsTheSumModuloAddressSize : Prop :=
  (∀ (f : MemForm) (size : Nat) (m : ExecMode) (next : Addr) (a : MemRef) (s : State), (size = 32 ∨ size = 64) →
    ((effAddr f size m next a s).toNat : Int) = addrInt f size m next a s % (2 : Int) ^ size) ∧
  (∀ pfx : List Pfx, (.addrSize ∉ pfx → addrSize .m64 pfx = some 64 ∧ addrSize .m32 pfx = some 32) ∧
    (.addrSize ∈ pfx → addrSize .m64 pfx = some 32 ∧ addrSize .m32 pfx = none)) ∧
  (∀ e : LegacyEnc, (mmxMemForm e).dispN = 1 ∧ (xmmMemForm e).dispN = 1) ∧
  (∀ e : VexEnc, (vexMemForm e).dispN = 1) ∧
  (∀ e : EvexEnc, (evexMemForm 128 e).dispN = 16 ∧ (evexMemForm 256 e).dispN = 32 ∧ (evexMemForm 512 e).dispN = 64 ∧
    (bcstMemForm e).dispN = 4)

/-- R60: an override replaces the default; the default is SS when the base register is rSP or rBP (number 4 or 5 with
`B` = 0 as SIB base, or `rm` = 101 with a displacement), else DS. -/
def Obligations.SegmentOfTheMemoryOperand : Prop :=
  (∀ (f : MemForm) (a : MemRef) (seg : Seg), pfxWf f.pfx = true → Pfx.seg seg ∈ f.pfx → segOf f a = seg) ∧
  (∀ f : MemForm, (∀ seg, Pfx.seg seg ∉ f.pfx) →
    (∀ (rm : BitVec 3) (d : Disp), (MemRef.base rm d).wf = true →
      segOf f (.base rm d) = if f.b = false ∧ rm = 5#3 then .ss else .ds) ∧
    (∀ (scale : BitVec 2) (index base : BitVec 3) (d : Disp), (MemRef.sib scale index base d).wf = true →
      segOf f (.sib scale index base d) = if f.b = false ∧ (base = 4#3 ∨ base = 5#3) then .ss else .ds) ∧
    (∀ d : BitVec 32, segOf f (.disp d) = .ds) ∧
    ∀ (scale : BitVec 2) (index : BitVec 3) (d : BitVec 32), segOf f (.sibDisp scale index d) = .ds)

/-- R56: the register numbers, as numbers. -/
def Obligations.RegisterNumbersOfTheFields : Prop :=
  ∀ (r x b : Bool) (n : BitVec 3) (v : BitVec 4),
    (gprNum b n).toNat = 8 * b.toNat + n.toNat ∧ (vecNum4 r n).toNat = 8 * r.toNat + n.toNat ∧
    (vecNum5 x b n).toNat = 16 * x.toNat + 8 * b.toNat + n.toNat ∧ (0#1 ++ v).toNat = v.toNat

/-- R33 (the spec's decision D6) at the instructions: what a misaligned, otherwise readable operand does in each class. -/
def Obligations.AlignmentOfEachClass : Prop :=
  (∀ (e : LegacyEnc) (m : ExecMode) (s : State) (a : MemRef) (la : Nat) (i : Instr),
    i ∈ [Instr.pcmpeqbMmx e, .pcmpeqwMmx e, .pcmpeqdMmx e] → s.mode = .admitted m → PcRoom m (encode i).length s →
    MmxReady s → e.rm = .mem a → OperandAt (mmxMemForm e) m (pcNext e.len s) a s la → Readable 8 1 1 m la s →
    (acEnabled s = true ∧ la % 8 ≠ 0 → exec i s = .fault .ac) ∧
    (¬ (acEnabled s = true ∧ la % 8 ≠ 0) → ∃ t, exec i s = .next t)) ∧
  (∀ (e : LegacyEnc) (m : ExecMode) (s : State) (a : MemRef) (la : Nat) (i : Instr),
    i ∈ [Instr.pcmpeqbXmm e, .pcmpeqwXmm e, .pcmpeqdXmm e] → s.mode = .admitted m → PcRoom m (encode i).length s →
    SseReady s → e.rm = .mem a → OperandAt (xmmMemForm e) m (pcNext e.len s) a s la → Readable 16 1 1 m la s →
    (la % 16 ≠ 0 → exec i s = .fault .gp) ∧ (la % 16 = 0 → ∃ t, exec i s = .next t)) ∧
  (∀ (e : VexEnc) (m : ExecMode) (s : State) (a : MemRef) (la : Nat) (wide : Bool) (i : Instr),
    (wide, i) ∈ [(false, Instr.vpcmpeqbVex128 e), (false, .vpcmpeqwVex128 e), (false, .vpcmpeqdVex128 e),
      (true, .vpcmpeqbVex256 e), (true, .vpcmpeqwVex256 e), (true, .vpcmpeqdVex256 e)] →
    s.mode = .admitted m → PcRoom m (encode i).length s → VexFeature wide s → VexReady s → e.rm = .mem a →
    OperandAt (vexMemForm e) m (pcNext e.len s) a s la → Readable (vexBits wide / 8) 1 1 m la s →
    ∃ t, exec i s = .next t) ∧
  (∀ (e : EvexEnc) (m : ExecMode) (s : State) (a : MemRef) (la : Nat) (vl : VecLen) (el : Elem) (i : Instr),
    (vl, el, i) ∈ [(VecLen.v128, Elem.dword, Instr.vpcmpeqdEvex128 e), (.v256, .dword, .vpcmpeqdEvex256 e),
      (.v512, .dword, .vpcmpeqdEvex512 e), (.v128, .byte, .vpcmpeqbEvex128 e), (.v256, .byte, .vpcmpeqbEvex256 e),
      (.v512, .byte, .vpcmpeqbEvex512 e), (.v128, .word, .vpcmpeqwEvex128 e), (.v256, .word, .vpcmpeqwEvex256 e),
      (.v512, .word, .vpcmpeqwEvex512 e)] →
    s.mode = .admitted m → PcRoom m (encode i).length s → EvexFeature vl el s → EvexReady s → e.rm = .mem a →
    (e.bcst = false → OperandAt (evexMemForm (vecBits vl) e) m (pcNext e.len s) a s la →
      Readable (vecBits vl / 8) 1 1 m la s → ∃ t, exec i s = .next t) ∧
    (e.bcst = true → el = .dword → OperandAt (bcstMemForm e) m (pcNext e.len s) a s la → Readable 4 1 1 m la s →
      (acEnabled s = true ∧ la % 4 ≠ 0 → exec i s = .fault .ac) ∧
      (¬ (acEnabled s = true ∧ la % 4 ≠ 0) → ∃ t, exec i s = .next t)))

/-! ## Encoding -/

/-- Words written out from the encodings of R68 (the examples of R100, R110 to R138) decode to their forms. -/
def Obligations.TableEncodingsDecode : Prop :=
  decode .m64 [0x0F, 0x74, 0xC1] = .ok (.pcmpeqbMmx ⟨[], none, 0, .reg 1⟩, []) ∧
  decode .m64 [0x0F, 0x75, 0xFA] = .ok (.pcmpeqwMmx ⟨[], none, 7, .reg 2⟩, []) ∧
  decode .m64 [0x66, 0x0F, 0x76, 0xC1] = .ok (.pcmpeqdXmm ⟨[.opSize], none, 0, .reg 1⟩, []) ∧
  decode .m64 [0xC5, 0xF1, 0x75, 0xC2] = .ok (.vpcmpeqwVex128 ⟨[], .two false, 1, 0, .reg 2⟩, []) ∧
  decode .m64 [0xC5, 0xF5, 0x76, 0xC2] = .ok (.vpcmpeqdVex256 ⟨[], .two false, 1, 0, .reg 2⟩, []) ∧
  decode .m64 [0x62, 0xF1, 0x6D, 0x08, 0x74, 0xCB] =
    .ok (.vpcmpeqbEvex128 ⟨[], false, false, false, 2, false, 0, 1, .reg 3⟩, []) ∧
  decode .m64 [0x62, 0xF1, 0x6D, 0x58, 0x76, 0x08] =
    .ok (.vpcmpeqdEvex512 ⟨[], false, false, false, 2, true, 0, 1, .mem (.base 0 .none)⟩, [])

/-- R72 with R50 to R66: decoding the bytes of a well-formed instruction gives it back, whatever follows. -/
def Obligations.DecodeOfEncodeIsTheInstruction : Prop :=
  ∀ (m : ExecMode) (i : Instr) (rest : List Byte), i.wf m = true → decode m (encode i ++ rest) = .ok (i, rest)

/-- R72, D1: what the decoder answers is a well-formed instruction whose bytes are the ones consumed; no other bytes
decode. And D1's answer for bytes of no form, wherever R72 gives it: a first byte that starts no form (40H to 4FH in 32-bit
mode among them), a byte after REX that is neither a prefix, another REX, 0FH nor a VEX or EVEX prefix, an opcode that is
not 74H to 76H in any of the layouts, `pp` or the map not 01, and the two fixed EVEX bits. -/
def Obligations.DecodeAnswersOnlyEncodedInstructions : Prop :=
  (∀ (m : ExecMode) (bs : List Byte) (i : Instr) (rest : List Byte), decode m bs = .ok (i, rest) →
    bs = encode i ++ rest ∧ i.wf m = true) ∧
  (∀ (m : ExecMode) (ps qs : List Pfx) (lock : List Byte) (b : Byte) (rest : List Byte), pfxWf (ps ++ qs) = true →
    lock ∈ [[], [0xF0#8], [0xF2#8], [0xF3#8]] →
    b ∉ [0x26#8, 0x2E#8, 0x36#8, 0x3E#8, 0x64#8, 0x65#8, 0x66#8, 0x67#8, 0xF0#8, 0xF2#8, 0xF3#8] →
    b ∉ [0x0F#8, 0xC4#8, 0xC5#8, 0x62#8] →
    ((m = .m32 ∨ b < 0x40#8 ∨ 0x4F#8 < b) →
      decode m (ps.map Pfx.byte ++ lock ++ qs.map Pfx.byte ++ b :: rest) = .error .unknownOpcode) ∧
    ((b < 0x40#8 ∨ 0x4F#8 < b) → ∀ rex : Rex,
      decode .m64 (ps.map Pfx.byte ++ lock ++ qs.map Pfx.byte ++ rex.byte :: b :: rest) = .error .unknownOpcode)) ∧
  (∀ (m : ExecMode) (ps qs : List Pfx) (lock : List Byte) (rex : Option Rex) (op : Byte) (rest : List Byte),
    pfxWf (ps ++ qs) = true → lock ∈ [[], [0xF0#8], [0xF2#8], [0xF3#8]] → (rex.isSome = true → m = .m64) →
    op ∉ [0x74#8, 0x75#8, 0x76#8] →
    decode m (ps.map Pfx.byte ++ lock ++ qs.map Pfx.byte ++ rexBytes rex ++ 0x0F#8 :: op :: rest) =
      .error .unknownOpcode) ∧
  (∀ (m : ExecMode) (ps : List Pfx) (b1 b2 b3 op : Byte) (rest : List Byte), pfxWf ps = true → .opSize ∉ ps →
    (m = .m64 ∨ b1.extractLsb' 6 2 = 3#2) →
    ((b1.extractLsb' 0 2 ≠ 1#2 ∨ op ∉ [0x74#8, 0x75#8, 0x76#8]) →
      decode m (ps.map Pfx.byte ++ 0xC5#8 :: b1 :: op :: rest) = .error .unknownOpcode) ∧
    ((b1.extractLsb' 0 5 ≠ 1#5 ∨ b2.extractLsb' 0 2 ≠ 1#2 ∨ op ∉ [0x74#8, 0x75#8, 0x76#8]) →
      decode m (ps.map Pfx.byte ++ 0xC4#8 :: b1 :: b2 :: op :: rest) = .error .unknownOpcode) ∧
    ((b1.getLsbD 3 = true ∨ b1.extractLsb' 0 3 ≠ 1#3 ∨ b2.getLsbD 2 = false ∨ b2.extractLsb' 0 2 ≠ 1#2 ∨
        op ∉ [0x74#8, 0x75#8, 0x76#8]) →
      decode m (ps.map Pfx.byte ++ 0x62#8 :: b1 :: b2 :: b3 :: op :: rest) = .error .unknownOpcode))

/-- R50, R61: the shortest and the longest encodings of each layout. -/
def Obligations.LengthsOfAdmittedEncodings : Prop :=
  (∀ (m : ExecMode) (i : Instr), i.wf m = true → 3 ≤ (encode i).length ∧ (encode i).length ≤ 13) ∧
  (∀ (m : ExecMode) (e : LegacyEnc) (i : Instr), i ∈ [Instr.pcmpeqbMmx e, .pcmpeqwMmx e, .pcmpeqdMmx e,
    .pcmpeqbXmm e, .pcmpeqwXmm e, .pcmpeqdXmm e] → i.wf m = true → (encode i).length ≤ 12) ∧
  (∀ (m : ExecMode) (e : VexEnc) (i : Instr), i ∈ [Instr.vpcmpeqbVex128 e, .vpcmpeqwVex128 e, .vpcmpeqdVex128 e,
    .vpcmpeqbVex256 e, .vpcmpeqwVex256 e, .vpcmpeqdVex256 e] → i.wf m = true →
    4 ≤ (encode i).length ∧ (encode i).length ≤ 12) ∧
  (∀ (m : ExecMode) (e : EvexEnc) (i : Instr), i ∈ [Instr.vpcmpeqdEvex128 e, .vpcmpeqdEvex256 e, .vpcmpeqdEvex512 e,
    .vpcmpeqbEvex128 e, .vpcmpeqbEvex256 e, .vpcmpeqbEvex512 e, .vpcmpeqwEvex128 e, .vpcmpeqwEvex256 e,
    .vpcmpeqwEvex512 e] → i.wf m = true → 6 ≤ (encode i).length) ∧
  (∃ e, (Instr.pcmpeqwXmm e).wf .m64 = true ∧ (encode (Instr.pcmpeqwXmm e)).length = 12) ∧
  (∃ e, (Instr.vpcmpeqwVex128 e).wf .m64 = true ∧ (encode (Instr.vpcmpeqwVex128 e)).length = 12) ∧
  (∃ e, (Instr.vpcmpeqwEvex128 e).wf .m64 = true ∧ (encode (Instr.vpcmpeqwEvex128 e)).length = 13)

/-- R69, R72: F0H before a legacy form is `#UD`, F2H and F3H there are refused (the spec's decision D15). That this holds
whatever follows the opcode, nothing included, is the model's choice (log 27: R72 against R159 (1) and D14). -/
def Obligations.LockOrRepBeforeALegacyForm : Prop :=
  ∀ (m : ExecMode) (ps qs : List Pfx) (rex : Option Rex) (el : Elem) (rest : List Byte),
    pfxWf (ps ++ qs) = true → (rex.isSome = true → m = .m64) →
    decode m (ps.map Pfx.byte ++ 0xF0#8 :: (qs.map Pfx.byte ++ rexBytes rex ++ 0x0F#8 :: el.opcode :: rest)) =
      .error .ud ∧
    decode m (ps.map Pfx.byte ++ 0xF2#8 :: (qs.map Pfx.byte ++ rexBytes rex ++ 0x0F#8 :: el.opcode :: rest)) =
      .error .reservedPrefix ∧
    decode m (ps.map Pfx.byte ++ 0xF3#8 :: (qs.map Pfx.byte ++ rexBytes rex ++ 0x0F#8 :: el.opcode :: rest)) =
      .error .reservedPrefix

/-- R51, R69, R72 (D15): 66H, F0H, F2H, F3H or REX before a VEX or EVEX prefix is `#UD`. In 32-bit mode C4H, C5H and 62H are
such a prefix when bits 7:6 of the next byte are 11b, else another instruction. That `#UD` comes whatever bytes follow, none
included, is the model's choice (log 27: R72 against R159 (1) and D14). -/
def Obligations.PrefixBeforeVexOrEvexIsUd : Prop :=
  ∀ (m : ExecMode) (ps qs : List Pfx) (b next : Byte) (rest : List Byte), b ∈ [0xC4#8, 0xC5#8, 0x62#8] →
    pfxWf (ps ++ qs) = true →
    ((m = .m64 ∨ next.extractLsb' 6 2 = 3#2) →
      (.opSize ∈ ps → decode m (ps.map Pfx.byte ++ b :: next :: rest) = .error .ud) ∧
      (∀ l, l ∈ [0xF0#8, 0xF2#8, 0xF3#8] →
        decode m (ps.map Pfx.byte ++ l :: (qs.map Pfx.byte ++ b :: next :: rest)) = .error .ud)) ∧
    (m = .m32 → next.extractLsb' 6 2 ≠ 3#2 →
      decode m (ps.map Pfx.byte ++ b :: next :: rest) = .error .unknownOpcode) ∧
    (m = .m64 → ∀ rex : Rex, decode m (ps.map Pfx.byte ++ rex.byte :: b :: rest) = .error .ud)

/-- R51, R52, D15: a second prefix of a group is refused, and so is a REX byte that a prefix or another REX follows. -/
def Obligations.RepeatedPrefixAndMisplacedRexAreRefused : Prop :=
  (∀ (m : ExecMode) (ps : List Pfx) (p q : Pfx) (rest : List Byte), pfxWf ps = true → q ∈ ps → q.sameGroup p = true →
    decode m (ps.map Pfx.byte ++ p.byte :: rest) = .error .repeatedPrefix) ∧
  (∀ (m : ExecMode) (ps qs : List Pfx) (l l' : Byte) (rest : List Byte), pfxWf (ps ++ qs) = true →
    l ∈ [0xF0#8, 0xF2#8, 0xF3#8] → l' ∈ [0xF0#8, 0xF2#8, 0xF3#8] →
    decode m (ps.map Pfx.byte ++ l :: (qs.map Pfx.byte ++ l' :: rest)) = .error .repeatedPrefix) ∧
  (∀ (ps : List Pfx) (rex : Rex) (b : Byte) (rest : List Byte), pfxWf ps = true →
    (b ∈ [0x26#8, 0x2E#8, 0x36#8, 0x3E#8, 0x64#8, 0x65#8, 0x66#8, 0x67#8, 0xF0#8, 0xF2#8, 0xF3#8] ∨
      (0x40#8 ≤ b ∧ b ≤ 0x4F#8)) →
    decode .m64 (ps.map Pfx.byte ++ rex.byte :: b :: rest) = .error .misplacedRex)

/-- R56 (a), D22: on an MMX form REX.R = 1, or REX.B = 1 with a register source, is refused; REX.B and REX.X with a
memory source are admitted. -/
def Obligations.RexBitsOnMmxRegisters : Prop :=
  ∀ (ps : List Pfx) (rex : Rex) (el : Elem) (reg : BitVec 3) (rm : RegMem) (rest : List Byte),
    pfxWf ps = true → .opSize ∉ ps → rm.wf = true →
    ((rex.r = true ∨ (rex.b = true ∧ rm.isReg = true)) →
      decode .m64 (encodeLegacy el ⟨ps, some rex, reg, rm⟩ ++ rest) = .error .rexOnMmxRegister) ∧
    (rex.r = false → rm.isReg = false →
      ∃ i, i ∈ [Instr.pcmpeqbMmx ⟨ps, some rex, reg, rm⟩, .pcmpeqwMmx ⟨ps, some rex, reg, rm⟩,
          .pcmpeqdMmx ⟨ps, some rex, reg, rm⟩] ∧
        decode .m64 (encodeLegacy el ⟨ps, some rex, reg, rm⟩ ++ rest) = .ok (i, rest))

/-- R59, D26: a memory operand with a 16-bit address size is refused, in all three layouts, the broadcast operand of
VPCMPEQD included. -/
def Obligations.SixteenBitAddressingIsRefused : Prop :=
  ∀ (ps : List Pfx) (el : Elem) (reg : BitVec 3) (a : MemRef) (rest : List Byte), pfxWf ps = true → .addrSize ∈ ps →
    decode .m32 (encodeLegacy el ⟨ps, none, reg, .mem a⟩ ++ rest) = .error .addr16 ∧
    (.opSize ∉ ps →
      (∀ (head : VexHead) (vvvv : BitVec 4) (l : Bool), head.r = false → head.x = false → head.b = false →
        vvvv.toNat < 8 → decode .m32 (encodeVex l el ⟨ps, head, vvvv, reg, .mem a⟩ ++ rest) = .error .addr16) ∧
      (∀ (vl : VecLen) (w bcst : Bool) (v5 : BitVec 5) (aaa : BitVec 3), v5.toNat < 8 → (el = .dword → w = false) →
        (bcst = true → el = .dword) →
        decode .m32 (encodeEvex vl el ⟨ps, false, false, w, v5, bcst, aaa, reg, .mem a⟩ ++ rest) =
          .error .addr16))

/-- R65, D23: the reserved EVEX combinations are refused, in 64-bit mode and, with the high register bits added, in
32-bit mode. -/
def Obligations.ReservedEvexFieldsAreRefused : Prop :=
  ∀ (ps : List Pfx) (p0 p1 p2 : Byte) (el : Elem) (rest : List Byte), pfxWf ps = true → .opSize ∉ ps →
    p0.extractLsb' 0 4 = 1#4 → p1.extractLsb' 0 3 = 5#3 →
    (∀ m : ExecMode, (m = .m64 ∨ p0.extractLsb' 6 2 = 3#2) →
      (p2.getLsbD 7 = true ∨ p2.extractLsb' 5 2 = 3#2 ∨ p0.getLsbD 7 = false ∨ p0.getLsbD 4 = false ∨
        (el = .dword ∧ p1.getLsbD 7 = true) ∨ (el ≠ .dword ∧ p2.getLsbD 4 = true)) →
      decode m (ps.map Pfx.byte ++ 0x62#8 :: p0 :: p1 :: p2 :: el.opcode :: rest) = .error .evexReservedField) ∧
    (p0.extractLsb' 6 2 = 3#2 → (p0.getLsbD 5 = false ∨ p1.getLsbD 6 = false ∨ p2.getLsbD 3 = false) →
      decode .m32 (ps.map Pfx.byte ++ 0x62#8 :: p0 :: p1 :: p2 :: el.opcode :: rest) = .error .evexReservedField) ∧
    (p2.getLsbD 4 = true → ∀ (m : ExecMode) (reg rm : BitVec 3) (rest' : List Byte),
      (m = .m64 ∨ p0.extractLsb' 6 2 = 3#2) → rest = modRmByte 3#2 reg rm :: rest' →
      decode m (ps.map Pfx.byte ++ 0x62#8 :: p0 :: p1 :: p2 :: el.opcode :: rest) = .error .evexReservedField)

/-- R63, D2: in 32-bit mode a VEX form that names a register above 7 is refused. -/
def Obligations.VexHighRegistersInThirtyTwoBitMode : Prop :=
  ∀ (ps : List Pfx) (b1 b2 : Byte) (el : Elem) (rest : List Byte), pfxWf ps = true → .opSize ∉ ps →
    (b1.extractLsb' 6 2 = 3#2 → b1.extractLsb' 0 5 = 1#5 → b2.extractLsb' 0 2 = 1#2 →
      (b1.getLsbD 5 = false ∨ b2.getLsbD 6 = false) →
      decode .m32 (ps.map Pfx.byte ++ 0xC4#8 :: b1 :: b2 :: el.opcode :: rest) = .error .vexHighRegIn32) ∧
    (b1.extractLsb' 6 2 ≠ 3#2 →
      decode .m32 (ps.map Pfx.byte ++ 0xC5#8 :: b1 :: el.opcode :: rest) = .error .unknownOpcode)

/-- R52, R63, R65 (I4, I12): REX.W, VEX.W, and EVEX.W on byte and word forms change nothing the instruction does. -/
def Obligations.IgnoredWidthBitsChangeNothing : Prop :=
  (∀ (e : LegacyEnc) (rex : Rex) (w : Bool) (s : State), e.rex = some rex →
    exec (.pcmpeqbMmx { e with rex := some { rex with w := w } }) s = exec (.pcmpeqbMmx e) s ∧
    exec (.pcmpeqwMmx { e with rex := some { rex with w := w } }) s = exec (.pcmpeqwMmx e) s ∧
    exec (.pcmpeqdMmx { e with rex := some { rex with w := w } }) s = exec (.pcmpeqdMmx e) s ∧
    exec (.pcmpeqbXmm { e with rex := some { rex with w := w } }) s = exec (.pcmpeqbXmm e) s ∧
    exec (.pcmpeqwXmm { e with rex := some { rex with w := w } }) s = exec (.pcmpeqwXmm e) s ∧
    exec (.pcmpeqdXmm { e with rex := some { rex with w := w } }) s = exec (.pcmpeqdXmm e) s) ∧
  (∀ (e : VexEnc) (r x b w w' : Bool) (s : State),
    exec (.vpcmpeqbVex128 { e with head := .three r x b w }) s = exec (.vpcmpeqbVex128 { e with head := .three r x b w' }) s ∧
    exec (.vpcmpeqwVex128 { e with head := .three r x b w }) s = exec (.vpcmpeqwVex128 { e with head := .three r x b w' }) s ∧
    exec (.vpcmpeqdVex128 { e with head := .three r x b w }) s = exec (.vpcmpeqdVex128 { e with head := .three r x b w' }) s ∧
    exec (.vpcmpeqbVex256 { e with head := .three r x b w }) s = exec (.vpcmpeqbVex256 { e with head := .three r x b w' }) s ∧
    exec (.vpcmpeqwVex256 { e with head := .three r x b w }) s = exec (.vpcmpeqwVex256 { e with head := .three r x b w' }) s ∧
    exec (.vpcmpeqdVex256 { e with head := .three r x b w }) s = exec (.vpcmpeqdVex256 { e with head := .three r x b w' }) s) ∧
  (∀ (e : EvexEnc) (w : Bool) (s : State),
    exec (.vpcmpeqbEvex128 { e with w := w }) s = exec (.vpcmpeqbEvex128 e) s ∧
    exec (.vpcmpeqbEvex256 { e with w := w }) s = exec (.vpcmpeqbEvex256 e) s ∧
    exec (.vpcmpeqbEvex512 { e with w := w }) s = exec (.vpcmpeqbEvex512 e) s ∧
    exec (.vpcmpeqwEvex128 { e with w := w }) s = exec (.vpcmpeqwEvex128 e) s ∧
    exec (.vpcmpeqwEvex256 { e with w := w }) s = exec (.vpcmpeqwEvex256 e) s ∧
    exec (.vpcmpeqwEvex512 { e with w := w }) s = exec (.vpcmpeqwEvex512 e) s)

/-- R62: the C5 prefix and its C4 equivalent (`~X` = `~B` = 1, `W` any, R63) are the same instruction but for the
length: with a register source they leave states that differ in the pc only, by one byte. -/
def Obligations.TwoAndThreeByteVexAgree : Prop :=
  ∀ (e : VexEnc) (r w : Bool) (n : BitVec 3) (m : ExecMode) (s t : State) (i2 i3 : Instr), e.rm = .reg n →
    (i2, i3) ∈ [
      (Instr.vpcmpeqbVex128 { e with head := .two r }, Instr.vpcmpeqbVex128 { e with head := .three r false false w }),
      (.vpcmpeqwVex128 { e with head := .two r }, .vpcmpeqwVex128 { e with head := .three r false false w }),
      (.vpcmpeqdVex128 { e with head := .two r }, .vpcmpeqdVex128 { e with head := .three r false false w }),
      (.vpcmpeqbVex256 { e with head := .two r }, .vpcmpeqbVex256 { e with head := .three r false false w }),
      (.vpcmpeqwVex256 { e with head := .two r }, .vpcmpeqwVex256 { e with head := .three r false false w }),
      (.vpcmpeqdVex256 { e with head := .two r }, .vpcmpeqdVex256 { e with head := .three r false false w })] →
    s.mode = .admitted m → PcRoom m (encode i3).length s → exec i2 s = .next t →
    exec i3 s = .next (setPc (t.pc + 1#64) t)

/-! ## Steps -/

/-- R9 (D3), R69: a step in which the bytes at the pc decode to an instruction is that instruction's execution; one in
which the decoder raises `#UD` is that fault; one in which it refuses is the refusal of the same name. That a decoder's
answer stands where a later byte cannot be fetched, or where R14 and D10 would give PcWrap for a later byte or for
`pc + ilen`, is the model's choice (log 27). -/
def Obligations.StepRunsTheDecodedInstruction : Prop :=
  ∀ (s : State) (m : ExecMode), s.mode = .admitted m →
    (∀ (i : Instr) (rest : List Byte), decode m (window m s) = .ok (i, rest) → step s = exec i s) ∧
    (decode m (window m s) = .error .ud → step s = .fault .ud) ∧
    (∀ (d : DecodeError) (r : Refusal),
      (d, r) ∈ [(DecodeError.unknownOpcode, Refusal.unknownOpcode), (.misplacedRex, .misplacedRex),
        (.repeatedPrefix, .repeatedPrefix), (.reservedPrefix, .reservedPrefix), (.rexOnMmxRegister, .rexOnMmxRegister),
        (.vexHighRegIn32, .vexHighRegIn32), (.evexReservedField, .evexReservedField), (.addr16, .addr16)] →
      decode m (window m s) = .error d → step s = .refused r)

/-- R9, R33 (fetch has no alignment), R181 and R183 (D9, D14): where the bytes of a well-formed instruction stand at the pc and can
be fetched, the step executes it. -/
def Obligations.StepExecutesTheBytesAtThePc : Prop :=
  ∀ (s : State) (m : ExecMode) (i : Instr), s.mode = .admitted m → i.wf m = true → CodeAtPc m (encode i) s →
    step s = exec i s

/-- R183, D14: where a well-formed instruction starts at the pc but the program ends inside it, and its bytes up to
there can be fetched, the step is refused. At `k` = 0 the pc is at the end of the program: R183 (a) and D14 say that a run
ends there and name no outcome of a further step, so that clause is the model's choice (log 15). -/
def Obligations.InstructionPastTheProgramEndIsRefused : Prop :=
  ∀ (s : State) (m : ExecMode) (i : Instr) (k : Nat), s.mode = .admitted m → i.wf m = true → k < (encode i).length →
    CodeAtPc m ((encode i).take k) s → s.pc.toNat + k = s.code.base.toNat + s.code.len →
    s.pc.toNat + k < 2 ^ m.addrBits → (m = .m64 → IsCanonical s.cpu.vaBits (s.pc.toNat + k)) →
    step s = .refused .runsPastEnd

/-- D2, R181: outside the two modes of the forms every step and every instruction is refused. -/
def Obligations.OtherModesAreRefused : Prop :=
  ∀ (s : State) (i : Instr), (∀ m, s.mode ≠ .admitted m) → step s = .refused .mode ∧ exec i s = .refused .mode

/-- R181 (D9): a program byte that is not accessible refuses the fetch, as the first byte of the instruction or, after bytes
of a well-formed instruction, a later one. -/
def Obligations.InaccessibleCodeIsRefused : Prop :=
  ∀ (s : State) (m : ExecMode) (i : Instr) (k : Nat), s.mode = .admitted m → i.wf m = true → k < (encode i).length →
    CodeAtPc m ((encode i).take k) s → s.pc.toNat + k < 2 ^ m.addrBits →
    (m = .m64 → IsCanonical s.cpu.vaBits (s.pc.toNat + k)) → s.code.base.toNat ≤ s.pc.toNat + k →
    s.pc.toNat + k < s.code.base.toNat + s.code.len → ¬ ByteAccessible s (s.pc.toNat + k) →
    step s = .refused .fetchFault

/-- R14 (D10): an instruction that completes leaves the pc at the next instruction. -/
def Obligations.CompletedInstructionAdvancesThePc : Prop :=
  ∀ (i : Instr) (s t : State), exec i s = .next t → t.pc.toNat = s.pc.toNat + (encode i).length

/-- R14 and D10 together (log 13): in an admitted mode an instruction that does not fit below the top of the address
space or, in 64-bit mode, has a byte or a next address that is not canonical, is refused; and so is the step where, after
bytes of a well-formed instruction or at the pc itself, the next byte has no address of the mode or no canonical one. That
the name is PcWrap and not R181's FetchFault is the model's choice (log 13). -/
def Obligations.PcWrapIsRefused : Prop :=
  (∀ (i : Instr) (s : State) (m : ExecMode), s.mode = .admitted m →
    (2 ^ m.addrBits ≤ s.pc.toNat + (encode i).length ∨
      (m = .m64 ∧ ∃ j, j ≤ (encode i).length ∧ ¬ IsCanonical s.cpu.vaBits (s.pc.toNat + j))) →
    exec i s = .refused .pcWrap) ∧
  (∀ (s : State) (m : ExecMode) (i : Instr) (k : Nat), s.mode = .admitted m → i.wf m = true →
    k < (encode i).length → CodeAtPc m ((encode i).take k) s →
    (2 ^ m.addrBits ≤ s.pc.toNat + k ∨ (m = .m64 ∧ ¬ IsCanonical s.cpu.vaBits (s.pc.toNat + k))) →
    step s = .refused .pcWrap)

/-! ## Results -/

/-- R100, R110, R111, R102: the MMX forms complete and write the mask of equal bytes, words or doublewords. -/
def Obligations.MmxFormsWriteTheEqualityMask : Prop :=
  ∀ (e : LegacyEnc) (m : ExecMode) (s : State) (src : BitVec 64) (el : Elem) (i : Instr),
    (el, i) ∈ [(Elem.byte, Instr.pcmpeqbMmx e), (.word, .pcmpeqwMmx e), (.dword, .pcmpeqdMmx e)] →
    s.mode = .admitted m → PcRoom m (encode i).length s → MmxReady s → MmxSourceIs m e s src →
    ∃ t, exec i s = .next t ∧ t.pc.toNat = s.pc.toNat + (encode i).length ∧
      ∀ j, j < 64 / elemBits el → (mmVal e.reg t).extractLsb' (j * elemBits el) (elemBits el) =
        if (mmVal e.reg s).extractLsb' (j * elemBits el) (elemBits el) = src.extractLsb' (j * elemBits el) (elemBits el)
        then BitVec.allOnes (elemBits el) else 0#(elemBits el)

/-- R112, R113, R114: the legacy SSE forms complete, write bits 127:0 of the destination and leave the rest of that
register. -/
def Obligations.SseFormsWriteTheEqualityMask : Prop :=
  ∀ (e : LegacyEnc) (m : ExecMode) (s : State) (src : BitVec 128) (el : Elem) (i : Instr),
    (el, i) ∈ [(Elem.byte, Instr.pcmpeqbXmm e), (.word, .pcmpeqwXmm e), (.dword, .pcmpeqdXmm e)] →
    s.mode = .admitted m → PcRoom m (encode i).length s → SseReady s → XmmSourceIs m e s src →
    ∃ t, exec i s = .next t ∧ t.pc.toNat = s.pc.toNat + (encode i).length ∧
      (∀ j, j < 128 / elemBits el →
        (vecVal (vecNum4 e.r e.reg) t).extractLsb' (j * elemBits el) (elemBits el) =
          if (vecVal (vecNum4 e.r e.reg) s).extractLsb' (j * elemBits el) (elemBits el) =
            src.extractLsb' (j * elemBits el) (elemBits el)
          then BitVec.allOnes (elemBits el) else 0#(elemBits el)) ∧
      (∀ b, 128 ≤ b → (vecVal (vecNum4 e.r e.reg) t).getLsbD b = (vecVal (vecNum4 e.r e.reg) s).getLsbD b)

/-- R120 to R126: the VEX forms complete, write the compare of the first source `vvvv` with the second, and zero the
destination above it. `Cpu.consistent` is R4's and D18's demand that `MAXVL` is wide enough for the features (log 6). -/
def Obligations.VexFormsWriteTheEqualityMask : Prop :=
  ∀ (e : VexEnc) (m : ExecMode) (s : State) (wide : Bool) (s2 : BitVec (vexBits wide)) (el : Elem) (i : Instr),
    (wide, el, i) ∈ [(false, Elem.byte, Instr.vpcmpeqbVex128 e), (false, .word, .vpcmpeqwVex128 e),
      (false, .dword, .vpcmpeqdVex128 e), (true, .byte, .vpcmpeqbVex256 e), (true, .word, .vpcmpeqwVex256 e),
      (true, .dword, .vpcmpeqdVex256 e)] →
    s.mode = .admitted m → PcRoom m (encode i).length s → s.cpu.consistent = true → VexFeature wide s → VexReady s →
    VexSourceIs (vexBits wide) m e s s2 →
    ∃ t, exec i s = .next t ∧ t.pc.toNat = s.pc.toNat + (encode i).length ∧
      (∀ j, j < vexBits wide / elemBits el →
        (vecVal (vecNum4 e.head.r e.reg) t).extractLsb' (j * elemBits el) (elemBits el) =
          if (vecVal (0#1 ++ e.vvvv) s).extractLsb' (j * elemBits el) (elemBits el) =
            s2.extractLsb' (j * elemBits el) (elemBits el)
          then BitVec.allOnes (elemBits el) else 0#(elemBits el)) ∧
      (∀ b, vexBits wide ≤ b → (vecVal (vecNum4 e.head.r e.reg) t).getLsbD b = false)

/-- R130 to R141 with a register or whole-vector second source: the EVEX forms complete and write every bit of the
opmask register: bit `j` below `KL` is set where the elements are equal and the writemask lets it, all others are 0. -/
def Obligations.EvexFormsWriteTheOpmask : Prop :=
  ∀ (e : EvexEnc) (m : ExecMode) (s : State) (vl : VecLen) (s2 : BitVec (vecBits vl)) (el : Elem) (i : Instr),
    (vl, el, i) ∈ [(VecLen.v128, Elem.dword, Instr.vpcmpeqdEvex128 e), (.v256, .dword, .vpcmpeqdEvex256 e),
      (.v512, .dword, .vpcmpeqdEvex512 e), (.v128, .byte, .vpcmpeqbEvex128 e), (.v256, .byte, .vpcmpeqbEvex256 e),
      (.v512, .byte, .vpcmpeqbEvex512 e), (.v128, .word, .vpcmpeqwEvex128 e), (.v256, .word, .vpcmpeqwEvex256 e),
      (.v512, .word, .vpcmpeqwEvex512 e)] →
    s.mode = .admitted m → PcRoom m (encode i).length s → s.cpu.consistent = true → EvexFeature vl el s → EvexReady s →
    (el = .dword → e.bcst = false ∨ e.rm.isReg = true) → EvexSourceIs (vecBits vl) m e s s2 →
    ∃ t, exec i s = .next t ∧ t.pc.toNat = s.pc.toNat + (encode i).length ∧
      ∀ j, (kVal e.reg t).getLsbD j =
        (decide (j < vecBits vl / elemBits el) && (e.aaa == 0#3 || (kVal e.aaa s).getLsbD j) &&
          ((vecVal e.v5 s).extractLsb' (j * elemBits el) (elemBits el) ==
            s2.extractLsb' (j * elemBits el) (elemBits el)))

/-- R130 to R132, R140, R141 with the broadcast second source `m32bcst`: the forms complete and write every bit of the
opmask register. -/
def Obligations.BroadcastFormsWriteTheOpmask : Prop :=
  ∀ (e : EvexEnc) (m : ExecMode) (s : State) (vl : VecLen) (s2 : BitVec 32) (i : Instr),
    (vl, i) ∈ [(VecLen.v128, Instr.vpcmpeqdEvex128 e), (.v256, .vpcmpeqdEvex256 e), (.v512, .vpcmpeqdEvex512 e)] →
    s.mode = .admitted m → PcRoom m (encode i).length s → EvexFeature vl .dword s → EvexReady s →
    e.bcst = true → BcstSourceIs m e s s2 →
    ∃ t, exec i s = .next t ∧ t.pc.toNat = s.pc.toNat + (encode i).length ∧
      ∀ j, (kVal e.reg t).getLsbD j =
        (decide (j < vecBits vl / 32) && (e.aaa == 0#3 || (kVal e.aaa s).getLsbD j) &&
          ((vecVal e.v5 s).extractLsb' (j * 32) 32 == s2))

/-- R100 corner case (1), R118, R126, R139: comparing a register with itself gives all ones over the compared width
(and zeros above it for VEX), and `2^KL - 1` for an EVEX form without writemask, whatever the register holds. -/
def Obligations.SameRegisterComparesAllOnes : Prop :=
  (∀ (e : LegacyEnc) (m : ExecMode) (s : State) (i : Instr), i ∈ [Instr.pcmpeqbMmx e, .pcmpeqwMmx e, .pcmpeqdMmx e] →
    s.mode = .admitted m → PcRoom m (encode i).length s → MmxReady s → e.rm = .reg e.reg →
    ∃ t, exec i s = .next t ∧ mmVal e.reg t = 0xFFFFFFFFFFFFFFFF#64) ∧
  (∀ (e : LegacyEnc) (m : ExecMode) (s : State) (i : Instr), i ∈ [Instr.pcmpeqbXmm e, .pcmpeqwXmm e, .pcmpeqdXmm e] →
    s.mode = .admitted m → PcRoom m (encode i).length s → SseReady s → e.rm = .reg e.reg → e.b = e.r →
    ∃ t, exec i s = .next t ∧ (vecVal (vecNum4 e.r e.reg) t).extractLsb' 0 128 = BitVec.allOnes 128) ∧
  (∀ (e : VexEnc) (m : ExecMode) (s : State) (n : BitVec 3) (wide : Bool) (i : Instr),
    (wide, i) ∈ [(false, Instr.vpcmpeqbVex128 e), (false, .vpcmpeqwVex128 e), (false, .vpcmpeqdVex128 e),
      (true, .vpcmpeqbVex256 e), (true, .vpcmpeqwVex256 e), (true, .vpcmpeqdVex256 e)] →
    s.mode = .admitted m → PcRoom m (encode i).length s → s.cpu.consistent = true → VexFeature wide s → VexReady s →
    e.rm = .reg n → 0#1 ++ e.vvvv = vecNum4 e.head.b n →
    ∃ t, exec i s = .next t ∧ (vecVal (vecNum4 e.head.r e.reg) t).toNat = 2 ^ vexBits wide - 1) ∧
  (∀ (e : EvexEnc) (m : ExecMode) (s : State) (n : BitVec 3) (vl : VecLen) (el : Elem) (i : Instr),
    (vl, el, i) ∈ [(VecLen.v128, Elem.dword, Instr.vpcmpeqdEvex128 e), (.v256, .dword, .vpcmpeqdEvex256 e),
      (.v512, .dword, .vpcmpeqdEvex512 e), (.v128, .byte, .vpcmpeqbEvex128 e), (.v256, .byte, .vpcmpeqbEvex256 e),
      (.v512, .byte, .vpcmpeqbEvex512 e), (.v128, .word, .vpcmpeqwEvex128 e), (.v256, .word, .vpcmpeqwEvex256 e),
      (.v512, .word, .vpcmpeqwEvex512 e)] →
    s.mode = .admitted m → PcRoom m (encode i).length s → s.cpu.consistent = true → EvexFeature vl el s → EvexReady s →
    e.rm = .reg n → e.v5 = vecNum5 e.x e.b n → e.aaa = 0#3 →
    ∃ t, exec i s = .next t ∧ (kVal e.reg t).toNat = 2 ^ (vecBits vl / elemBits el) - 1)

/-- R141, R139: an EVEX form under a writemask that is 0 writes 0 whatever the sources are; an element whose writemask
bit is 0 gives a 0 bit; `aaa` = 000 is no writemask, so k0 masks nothing off. -/
def Obligations.WritemaskZeroesMaskedElements : Prop :=
  ∀ (e : EvexEnc) (s t : State) (i : Instr),
    i ∈ [Instr.vpcmpeqdEvex128 e, .vpcmpeqdEvex256 e, .vpcmpeqdEvex512 e, .vpcmpeqbEvex128 e, .vpcmpeqbEvex256 e,
      .vpcmpeqbEvex512 e, .vpcmpeqwEvex128 e, .vpcmpeqwEvex256 e, .vpcmpeqwEvex512 e] → exec i s = .next t →
    (e.aaa ≠ 0#3 → ∀ j, (kVal e.aaa s).getLsbD j = false → (kVal e.reg t).getLsbD j = false) ∧
    (e.aaa ≠ 0#3 → kVal e.aaa s = 0#64 → kVal e.reg t = 0#64) ∧
    (e.aaa = 0#3 → e.reg ≠ 0#3 → ∀ v, exec i { s with k := s.k.set 0 v } = .next { t with k := t.k.set 0 v })

/-! ## Frames -/

/-- R24, R100: what the MMX forms leave unchanged: every other MMX register and its high part, the x87 status word
outside TOS, vector and opmask registers, flags, general registers, every byte of memory, and all that a launch
fixes. -/
def Obligations.MmxFormsFrame : Prop :=
  ∀ (e : LegacyEnc) (s t : State) (i : Instr), i ∈ [Instr.pcmpeqbMmx e, .pcmpeqwMmx e, .pcmpeqdMmx e] →
    exec i s = .next t →
    (∀ r, r ≠ e.reg → mmVal r t = mmVal r s ∧ t.fpHigh.get r.toFin = s.fpHigh.get r.toFin) ∧
    (∀ b, ¬ (11 ≤ b ∧ b ≤ 13) → t.fsw.getLsbD b = s.fsw.getLsbD b) ∧
    t.vec = s.vec ∧ t.k = s.k ∧ SameFlagsAndMemory s t ∧ SameLaunch s t

/-- R17 (a) to (c), which the spec leaves out of its own model (D13) and asks of a model that holds x87 state (log 12):
an MMX form that completes sets TOS to 0, every tag to valid, and the high part of the register it writes to ones. -/
def Obligations.MmxFormsMarkTheX87State : Prop :=
  ∀ (e : LegacyEnc) (s t : State) (i : Instr), i ∈ [Instr.pcmpeqbMmx e, .pcmpeqwMmx e, .pcmpeqdMmx e] →
    exec i s = .next t →
    t.fsw.extractLsb' 11 3 = 0#3 ∧ t.ftw = 0#16 ∧ t.fpHigh.get e.reg.toFin = 0xFFFF#16

/-- R24, R112 to R114: what the legacy SSE forms leave unchanged. -/
def Obligations.SseFormsFrame : Prop :=
  ∀ (e : LegacyEnc) (s t : State) (i : Instr), i ∈ [Instr.pcmpeqbXmm e, .pcmpeqwXmm e, .pcmpeqdXmm e] →
    exec i s = .next t →
    (∀ r, r ≠ vecNum4 e.r e.reg → vecVal r t = vecVal r s) ∧
    (∀ b, 128 ≤ b → (vecVal (vecNum4 e.r e.reg) t).getLsbD b = (vecVal (vecNum4 e.r e.reg) s).getLsbD b) ∧
    t.k = s.k ∧ SameX87 s t ∧ SameFlagsAndMemory s t ∧ SameLaunch s t

/-- R24, R126: what the VEX forms leave unchanged. -/
def Obligations.VexFormsFrame : Prop :=
  ∀ (e : VexEnc) (s t : State) (i : Instr), i ∈ [Instr.vpcmpeqbVex128 e, .vpcmpeqwVex128 e, .vpcmpeqdVex128 e,
      .vpcmpeqbVex256 e, .vpcmpeqwVex256 e, .vpcmpeqdVex256 e] → exec i s = .next t →
    (∀ r, r ≠ vecNum4 e.head.r e.reg → vecVal r t = vecVal r s) ∧
    t.k = s.k ∧ SameX87 s t ∧ SameFlagsAndMemory s t ∧ SameLaunch s t

/-- R24, R139: what the EVEX forms leave unchanged; vector registers are only read. -/
def Obligations.EvexFormsFrame : Prop :=
  ∀ (e : EvexEnc) (s t : State) (i : Instr), i ∈ [Instr.vpcmpeqdEvex128 e, .vpcmpeqdEvex256 e, .vpcmpeqdEvex512 e,
      .vpcmpeqbEvex128 e, .vpcmpeqbEvex256 e, .vpcmpeqbEvex512 e, .vpcmpeqwEvex128 e, .vpcmpeqwEvex256 e,
      .vpcmpeqwEvex512 e] → exec i s = .next t →
    (∀ r, r ≠ e.reg → kVal r t = kVal r s) ∧
    t.vec = s.vec ∧ SameX87 s t ∧ SameFlagsAndMemory s t ∧ SameLaunch s t

/-- R126, R141: the old value of the destination of a VEX form that names it as no source, and of an opmask
destination that is not the writemask, plays no part. -/
def Obligations.OldDestinationPlaysNoPart : Prop :=
  (∀ (e : VexEnc) (s : State) (v : BitVec 512) (i : Instr), i ∈ [Instr.vpcmpeqbVex128 e, .vpcmpeqwVex128 e,
      .vpcmpeqdVex128 e, .vpcmpeqbVex256 e, .vpcmpeqwVex256 e, .vpcmpeqdVex256 e] →
    vecNum4 e.head.r e.reg ≠ 0#1 ++ e.vvvv → (∀ n, e.rm = .reg n → vecNum4 e.head.r e.reg ≠ vecNum4 e.head.b n) →
    exec i (setVec (vecNum4 e.head.r e.reg) v s) = exec i s) ∧
  (∀ (e : EvexEnc) (s : State) (v : BitVec 64) (i : Instr), i ∈ [Instr.vpcmpeqdEvex128 e, .vpcmpeqdEvex256 e,
      .vpcmpeqdEvex512 e, .vpcmpeqbEvex128 e, .vpcmpeqbEvex256 e, .vpcmpeqbEvex512 e, .vpcmpeqwEvex128 e,
      .vpcmpeqwEvex256 e, .vpcmpeqwEvex512 e] →
    (e.aaa = 0#3 ∨ e.aaa ≠ e.reg) → exec i { s with k := s.k.set e.reg.toNat v e.reg.isLt } = exec i s)

/-! ## Flags, MXCSR, privilege -/

/-- R15: no form writes a flag, and none reads one but AC, which is read through `AC_ENABLED`. -/
def Obligations.FlagsAreNeitherWrittenNorReadButAc : Prop :=
  (∀ (i : Instr) (s t : State), exec i s = .next t → t.eflags = s.eflags) ∧
  (∀ (i : Instr) (s : State) (f : BitVec 32), f.getLsbD 18 = s.eflags.getLsbD 18 →
    exec i { s with eflags := f } = mapNext (fun t => { t with eflags := f }) (exec i s)) ∧
  (∀ (i : Instr) (s : State) (f : BitVec 32), acEnabled { s with eflags := f } = acEnabled s →
    exec i { s with eflags := f } = mapNext (fun t => { t with eflags := f }) (exec i s))

/-- R18: MXCSR is neither read nor written. -/
def Obligations.MxcsrIsNeitherReadNorWritten : Prop :=
  (∀ (i : Instr) (s t : State), exec i s = .next t → t.mxcsr = s.mxcsr) ∧
  (∀ (i : Instr) (s : State) (v : BitVec 32),
    exec i { s with mxcsr := v } = mapNext (fun t => { t with mxcsr := v }) (exec i s))

/-- R160 (D24): no form is privileged: the privilege level enters through `AC_ENABLED` only. -/
def Obligations.PrivilegeLevelOnlyThroughAlignmentCheck : Prop :=
  ∀ (i : Instr) (s : State) (c : BitVec 2), acEnabled { s with cpl := c } = acEnabled s →
    exec i { s with cpl := c } = mapNext (fun t => { t with cpl := c }) (exec i s)

/-! ## Exceptions -/

/-- R154 (D19): a form whose feature expression is false raises `#UD`, in a mode the forms run in and where the instruction
fits its address space. -/
def Obligations.MissingFeatureIsUd : Prop :=
  ∀ (i : Instr) (m : ExecMode) (s : State), s.mode = .admitted m → PcRoom m (encode i).length s →
    ¬ FormFeature i s →
    exec i s = .fault .ud

/-- R155, R159 (order D20): what the control bits raise before an MMX form reads its source, in order. -/
def Obligations.MmxControlBitsRaiseInOrder : Prop :=
  ∀ (e : LegacyEnc) (m : ExecMode) (s : State) (i : Instr), i ∈ [Instr.pcmpeqbMmx e, .pcmpeqwMmx e, .pcmpeqdMmx e] →
    s.mode = .admitted m → PcRoom m (encode i).length s →
    ((s.cr0.getLsbD 2 = true ∨ s.cpu.features.mmx = false) → exec i s = .fault .ud) ∧
    (s.cr0.getLsbD 2 = false → s.cpu.features.mmx = true →
      (s.cr0.getLsbD 3 = true → exec i s = .fault .nm) ∧
      (s.cr0.getLsbD 3 = false → s.fsw.getLsbD 7 = true → exec i s = .fault .mf))

/-- R156, R159 (order D20): what the control bits raise before a legacy SSE form reads its source, in order. -/
def Obligations.SseControlBitsRaiseInOrder : Prop :=
  ∀ (e : LegacyEnc) (m : ExecMode) (s : State) (i : Instr), i ∈ [Instr.pcmpeqbXmm e, .pcmpeqwXmm e, .pcmpeqdXmm e] →
    s.mode = .admitted m → PcRoom m (encode i).length s →
    ((s.cr0.getLsbD 2 = true ∨ s.cr4.getLsbD 9 = false ∨ s.cpu.features.sse2 = false) → exec i s = .fault .ud) ∧
    (s.cr0.getLsbD 2 = false → s.cr4.getLsbD 9 = true → s.cpu.features.sse2 = true → s.cr0.getLsbD 3 = true →
      exec i s = .fault .nm)

/-- R157, R158, R159 (order D20): what the control bits raise before a VEX or an EVEX form reads its source, in order. -/
def Obligations.VexAndEvexControlBitsRaiseInOrder : Prop :=
  (∀ (e : VexEnc) (m : ExecMode) (s : State) (wide : Bool) (i : Instr),
    (wide, i) ∈ [(false, Instr.vpcmpeqbVex128 e), (false, .vpcmpeqwVex128 e), (false, .vpcmpeqdVex128 e),
      (true, .vpcmpeqbVex256 e), (true, .vpcmpeqwVex256 e), (true, .vpcmpeqdVex256 e)] →
    s.mode = .admitted m → PcRoom m (encode i).length s →
    ((s.cr4.getLsbD 18 = false ∨ s.xcr0.extractLsb' 1 2 ≠ 3#2 ∨ ¬ VexFeature wide s) → exec i s = .fault .ud) ∧
    (s.cr4.getLsbD 18 = true → s.xcr0.extractLsb' 1 2 = 3#2 → VexFeature wide s → s.cr0.getLsbD 3 = true →
      exec i s = .fault .nm)) ∧
  (∀ (e : EvexEnc) (m : ExecMode) (s : State) (vl : VecLen) (el : Elem) (i : Instr),
    (vl, el, i) ∈ [(VecLen.v128, Elem.dword, Instr.vpcmpeqdEvex128 e), (.v256, .dword, .vpcmpeqdEvex256 e),
      (.v512, .dword, .vpcmpeqdEvex512 e), (.v128, .byte, .vpcmpeqbEvex128 e), (.v256, .byte, .vpcmpeqbEvex256 e),
      (.v512, .byte, .vpcmpeqbEvex512 e), (.v128, .word, .vpcmpeqwEvex128 e), (.v256, .word, .vpcmpeqwEvex256 e),
      (.v512, .word, .vpcmpeqwEvex512 e)] →
    s.mode = .admitted m → PcRoom m (encode i).length s →
    ((s.cr4.getLsbD 18 = false ∨ s.xcr0.extractLsb' 5 3 ≠ 7#3 ∨ s.xcr0.extractLsb' 1 2 ≠ 3#2 ∨
      ¬ EvexFeature vl el s) → exec i s = .fault .ud) ∧
    (s.cr4.getLsbD 18 = true → s.xcr0.extractLsb' 5 3 = 7#3 → s.xcr0.extractLsb' 1 2 = 3#2 → EvexFeature vl el s →
      s.cr0.getLsbD 3 = true → exec i s = .fault .nm))

/-- R159 (6) (order D20): once the checks of its class pass, a form whose memory operand stops the read stops with that
outcome. For the EVEX forms that this holds whatever the writemask, `#PF` under a partial mask included, is the model's
choice after the spec's D27 (log 11): R141 says that the chip suppresses faults of masked-off elements, and D27 that no claim
about the chip may be made of it. -/
def Obligations.SourceReadStopsTheInstruction : Prop :=
  (∀ (e : LegacyEnc) (m : ExecMode) (s : State) (a : MemRef) (i : Instr), s.mode = .admitted m → e.rm = .mem a →
    PcRoom m e.len s →
    (i ∈ [Instr.pcmpeqbMmx e, .pcmpeqwMmx e, .pcmpeqdMmx e] → MmxReady s →
      (∀ f, memOperand 64 (mmxMemForm e) m (pcNext e.len s) a s = .fault f → exec i s = .fault f) ∧
      (∀ r, memOperand 64 (mmxMemForm e) m (pcNext e.len s) a s = .refused r → exec i s = .refused r)) ∧
    (i ∈ [Instr.pcmpeqbXmm e, .pcmpeqwXmm e, .pcmpeqdXmm e] → SseReady s →
      (∀ f, memOperand 128 (xmmMemForm e) m (pcNext e.len s) a s = .fault f → exec i s = .fault f) ∧
      (∀ r, memOperand 128 (xmmMemForm e) m (pcNext e.len s) a s = .refused r → exec i s = .refused r))) ∧
  (∀ (e : VexEnc) (m : ExecMode) (s : State) (a : MemRef) (wide : Bool) (i : Instr),
    (wide, i) ∈ [(false, Instr.vpcmpeqbVex128 e), (false, .vpcmpeqwVex128 e), (false, .vpcmpeqdVex128 e),
      (true, .vpcmpeqbVex256 e), (true, .vpcmpeqwVex256 e), (true, .vpcmpeqdVex256 e)] →
    s.mode = .admitted m → e.rm = .mem a → PcRoom m e.len s → VexFeature wide s → VexReady s →
    (∀ f, memOperand (vexBits wide) (vexMemForm e) m (pcNext e.len s) a s = .fault f → exec i s = .fault f) ∧
    (∀ r, memOperand (vexBits wide) (vexMemForm e) m (pcNext e.len s) a s = .refused r → exec i s = .refused r)) ∧
  (∀ (e : EvexEnc) (m : ExecMode) (s : State) (a : MemRef) (vl : VecLen) (el : Elem) (i : Instr),
    (vl, el, i) ∈ [(VecLen.v128, Elem.dword, Instr.vpcmpeqdEvex128 e), (.v256, .dword, .vpcmpeqdEvex256 e),
      (.v512, .dword, .vpcmpeqdEvex512 e), (.v128, .byte, .vpcmpeqbEvex128 e), (.v256, .byte, .vpcmpeqbEvex256 e),
      (.v512, .byte, .vpcmpeqbEvex512 e), (.v128, .word, .vpcmpeqwEvex128 e), (.v256, .word, .vpcmpeqwEvex256 e),
      (.v512, .word, .vpcmpeqwEvex512 e)] →
    s.mode = .admitted m → e.rm = .mem a → PcRoom m e.len s → EvexFeature vl el s → EvexReady s →
    ((el = .dword → e.bcst = false) →
      (∀ f, memOperand (vecBits vl) (evexMemForm (vecBits vl) e) m (pcNext e.len s) a s = .fault f →
        exec i s = .fault f) ∧
      (∀ r, memOperand (vecBits vl) (evexMemForm (vecBits vl) e) m (pcNext e.len s) a s = .refused r →
        exec i s = .refused r)) ∧
    (el = .dword → e.bcst = true →
      (∀ f, memOperand 32 (bcstMemForm e) m (pcNext e.len s) a s = .fault f → exec i s = .fault f) ∧
      (∀ r, memOperand 32 (bcstMemForm e) m (pcNext e.len s) a s = .refused r → exec i s = .refused r)))

/-- R151, R155 to R158: which exceptions each class can raise at execution: `#MF` only MMX forms, `#AC` only an MMX form
or VPCMPEQD of the EVEX forms, and with a register source only `#UD`, `#NM` and `#MF`. -/
def Obligations.ExceptionsOfEachClass : Prop :=
  (∀ (i : Instr) (s : State), exec i s = .fault .mf → ∃ e, i ∈ [Instr.pcmpeqbMmx e, .pcmpeqwMmx e, .pcmpeqdMmx e]) ∧
  (∀ (i : Instr) (s : State), exec i s = .fault .ac →
    (∃ e, i ∈ [Instr.pcmpeqbMmx e, .pcmpeqwMmx e, .pcmpeqdMmx e] ∧ e.rm.isReg = false) ∨
    ∃ e, i ∈ [Instr.vpcmpeqdEvex128 e, .vpcmpeqdEvex256 e, .vpcmpeqdEvex512 e] ∧ e.rm.isReg = false ∧ e.bcst = true) ∧
  (∀ (e : LegacyEnc) (i : Instr) (s : State) (f : Fault), i ∈ [Instr.pcmpeqbMmx e, .pcmpeqwMmx e, .pcmpeqdMmx e,
    .pcmpeqbXmm e, .pcmpeqwXmm e, .pcmpeqdXmm e] → e.rm.isReg = true → exec i s = .fault f → f ∈ [Fault.ud, .nm, .mf]) ∧
  (∀ (e : VexEnc) (i : Instr) (s : State) (f : Fault), i ∈ [Instr.vpcmpeqbVex128 e, .vpcmpeqwVex128 e,
    .vpcmpeqdVex128 e, .vpcmpeqbVex256 e, .vpcmpeqwVex256 e, .vpcmpeqdVex256 e] → e.rm.isReg = true →
    exec i s = .fault f → f ∈ [Fault.ud, .nm]) ∧
  (∀ (e : EvexEnc) (i : Instr) (s : State) (f : Fault), i ∈ [Instr.vpcmpeqdEvex128 e, .vpcmpeqdEvex256 e,
    .vpcmpeqdEvex512 e, .vpcmpeqbEvex128 e, .vpcmpeqbEvex256 e, .vpcmpeqbEvex512 e, .vpcmpeqwEvex128 e,
    .vpcmpeqwEvex256 e, .vpcmpeqwEvex512 e] → e.rm.isReg = true → exec i s = .fault f → f ∈ [Fault.ud, .nm])

/-! ## Whole machine -/

/-- R35, R19: no instruction and no run of any length changes a byte of memory; so the program text is constant (R41). -/
def Obligations.NothingStoresToMemory : Prop :=
  (∀ (i : Instr) (s t : State), exec i s = .next t → ∀ a, Memory.read t.mem a = Memory.read s.mem a) ∧
  (∀ (n : Nat) (s t : State), Reaches n s t → t.mem = s.mem)

/-- R16, R24, R41: along a run of any length no control register, flag, general register or parameter changes, nor the
program's place. -/
def Obligations.RunKeepsWhatTheLaunchFixed : Prop :=
  ∀ (n : Nat) (s t : State), Reaches n s t → SameLaunch s t ∧ t.gpr = s.gpr ∧ t.eflags = s.eflags ∧ t.mxcsr = s.mxcsr

/-- R11, R12, R14 and the canonical form of memory: every step keeps the invariant, from every state that meets it. -/
def Obligations.StepKeepsTheMachineInvariant : Prop := ∀ s t : State, Inv s → step s = .next t → Inv t

/-- The state after reset meets the invariant (with the reset values of R21 and of logs 2, 4, 6). -/
def Obligations.ResetMeetsTheMachineInvariant : Prop := Inv State.reset

/-- R183 (D14): a step that completes starts in the program, moves the pc by at least 3 bytes and leaves it in the program
or at its end. So from the start of the program no run has more than `CODE_LEN / 3` steps, and it comes to a state with no
next step: the final one, after a completed instruction, or one at which the step faults or is refused. An empty program
has no final state. -/
def Obligations.EveryRunEndsWithinAThirdOfTheProgram : Prop :=
  (∀ s t : State, step s = .next t →
    s.code.base.toNat ≤ s.pc.toNat ∧ s.pc.toNat + 3 ≤ t.pc.toNat ∧ t.pc.toNat ≤ s.code.base.toNat + s.code.len) ∧
  (∀ s : State, s.pc = s.code.base →
    (∀ (n : Nat) (t : State), Reaches n s t →
      3 * n ≤ s.code.len ∧ s.code.base.toNat ≤ t.pc.toNat ∧ t.pc.toNat ≤ s.code.base.toNat + s.code.len) ∧
    (∃ (n : Nat) (t : State), Reaches n s t ∧ 3 * n ≤ s.code.len ∧ (Final s t ∨ StopsAt s t)) ∧
    (∀ t, Final s t → ∀ u, step t ≠ .next u) ∧
    (s.code.len = 0 → StopsAt s s))

/-- R21, the values it gives for hardware reset. The pc folds CS base and IP into one linear address (log 3). -/
def Obligations.ResetValues : Prop :=
  (∀ i, mmVal i State.reset = 0#64) ∧ State.reset.ftw = 0x5555#16 ∧
  (∀ i : BitVec 5, i.toNat < 16 → vecVal i State.reset = 0#512) ∧ (∀ i, kVal i State.reset = 0#64) ∧
  (∀ i : BitVec 4, i ≠ 0#4 → i ≠ 2#4 → gprVal i State.reset = 0#64) ∧ State.reset.eflags = 0x00000002#32 ∧
  State.reset.cr0 = 0x60000010#64 ∧ State.reset.cr4 = 0#64 ∧ State.reset.xcr0 = 1#64 ∧ State.reset.mxcsr = 0x1F80#32 ∧
  State.reset.mode = .realAddress ∧ State.reset.pc = 0xFFFF0000#64 + 0xFFF0#64

/-- R21, D2: straight after reset, in real-address mode, no step runs and no form executes. -/
def Obligations.NothingRunsStraightAfterReset : Prop :=
  step State.reset = .refused .mode ∧ ∀ i : Instr, exec i State.reset = .refused .mode
end

