-- ==== Sys2Proof/Laws/Decode.lean ====
section
/-! SUPPORT. The decoder's parts read back what the encoder's parts write. -/

set_option Elab.async false

namespace Sys2Proof

@[simp] theorem except_bind_ok {ε α β : Type} (a : α) (f : α → Except ε β) :
    ((Except.ok a : Except ε α) >>= f) = f a := rfl

@[simp] theorem except_bind_error {ε α β : Type} (e : ε) (f : α → Except ε β) :
    ((Except.error e : Except ε α) >>= f) = .error e := rfl

@[simp] theorem except_pure {ε α : Type} (a : α) : (pure a : Except ε α) = .ok a := rfl

theorem except_bind_eq_ok_iff {ε α β : Type} (x : Except ε α) (f : α → Except ε β) (b : β) :
    (x >>= f) = .ok b ↔ ∃ a, x = .ok a ∧ f a = .ok b := by
  cases x <;> simp

/-! ## Prefixes -/

@[simp] theorem pfxByteOf_byte (p : Pfx) : pfxByteOf p.byte = some (.plain p) := by
  cases p with
  | seg s => cases s <;> decide
  | opSize => decide
  | addrSize => decide

/-- Only a prefix's own byte reads as that prefix. -/
theorem byte_of_pfxByteOf {b : Byte} {p : Pfx} (h : pfxByteOf b = some (.plain p)) : p.byte = b := by
  unfold pfxByteOf at h
  repeat' split at h
  all_goals first | (cases h; subst_vars; rfl) | cases h

/-- Well-formed prefixes read back, up to the first byte that is none. -/
theorem readPrefixes_map : ∀ (ps acc : List Pfx) (b : Byte) (rest : List Byte), pfxWf ps = true →
    (∀ q ∈ acc, ∀ p ∈ ps, q.sameGroup p = false) → pfxByteOf b = none →
    readPrefixes acc none (ps.map Pfx.byte ++ b :: rest) = .ok (acc ++ ps, none, b :: rest)
  | [], acc, b, rest, _, _, hb => by simp [readPrefixes, hb]
  | p :: ps, acc, b, rest, hw, hacc, hb => by
    simp only [pfxWf, Bool.and_eq_true, List.all_eq_true, Bool.not_eq_true'] at hw
    have hany : acc.any (fun q => q.sameGroup p) = false := by
      rw [List.any_eq_false]
      intro q hq
      simp [hacc q hq p (by simp)]
    rw [List.map_cons, List.cons_append, readPrefixes]
    simp only [pfxByteOf_byte, hany, Bool.false_eq_true, if_false]
    rw [readPrefixes_map ps (acc ++ [p]) b rest hw.2 _ hb, List.append_assoc]
    · rfl
    · intro q hq r hr
      rcases List.mem_append.mp hq with h | h
      · exact hacc q h r (by simp [hr])
      · rw [List.mem_singleton.mp h]
        exact hw.1 r hr

theorem sameGroup_comm (p q : Pfx) : p.sameGroup q = q.sameGroup p := by cases p <;> cases q <;> rfl

/-- What was read is what stood there: the prefixes read, in order, then the remaining bytes. -/
theorem readPrefixes_sound : ∀ (bs : List Byte) (acc : List Pfx) (lr : Option LockRep) (pfx : List Pfx)
    (lr' : Option LockRep) (rest : List Byte), readPrefixes acc lr bs = .ok (pfx, lr', rest) →
    (lr' = none → lr = none) ∧ (lr' = none → ∃ ps, pfx = acc ++ ps ∧ bs = ps.map Pfx.byte ++ rest ∧
      pfxWf ps = true ∧ (∀ q ∈ acc, ∀ p ∈ ps, q.sameGroup p = false))
  | [], _, _, _, _, _, h => by simp [readPrefixes] at h
  | b :: bs, acc, lr, pfx, lr', rest, h => by
    rw [readPrefixes] at h
    split at h
    · simp only [Except.ok.injEq, Prod.mk.injEq] at h
      obtain ⟨rfl, rfl, rfl⟩ := h
      exact ⟨id, fun _ => ⟨[], by simp, by simp, rfl, by simp⟩⟩
    · rename_i l _
      split at h
      · cases h
      · have ih := readPrefixes_sound bs acc (some l) pfx lr' rest h
        exact ⟨fun hn => absurd (ih.1 hn) (by simp), fun hn => absurd (ih.1 hn) (by simp)⟩
    · rename_i p hp
      split at h
      · cases h
      · rename_i hany
        have ih := readPrefixes_sound bs (acc ++ [p]) lr pfx lr' rest h
        refine ⟨ih.1, fun hn => ?_⟩
        obtain ⟨ps, rfl, rfl, hw, hacc⟩ := ih.2 hn
        have hany' : ∀ q ∈ acc, q.sameGroup p = false := by
          intro q hq
          have := List.any_eq_false.mp (Bool.eq_false_iff.mpr hany) q hq
          simpa using this
        refine ⟨p :: ps, by simp, by simp [byte_of_pfxByteOf hp], ?_, ?_⟩
        · simp only [pfxWf, Bool.and_eq_true, List.all_eq_true, Bool.not_eq_true']
          exact ⟨fun q hq => hacc p (by simp) q hq, hw⟩
        · intro q hq r hr
          rcases List.mem_cons.mp hr with rfl | hr
          · exact hany' q hq
          · exact hacc q (by simp [hq]) r hr

/-! ## Displacements -/

@[simp] theorem readDisp32_le32 (d : BitVec 32) (rest : List Byte) : readDisp32 (le32 d ++ rest) = .ok (d, rest) := by
  simp only [le32, List.cons_append, List.nil_append, readDisp32, Except.ok.injEq, Prod.mk.injEq, and_true]
  apply BitVec.eq_of_getLsbD_eq
  intro i hi
  simp only [BitVec.getLsbD_append, BitVec.getLsbD_extractLsb']
  by_cases h1 : i < 8
  · simp [h1]
  by_cases h2 : i < 16
  · simp [h1, show i - 8 < 8 by omega, show 8 + (i - 8) = i by omega]
  by_cases h3 : i < 24
  · simp [h1, show ¬ i - 8 < 8 by omega, show i - 8 - 8 < 8 by omega, show 16 + (i - 8 - 8) = i by omega]
  · simp [h1, show ¬ i - 8 < 8 by omega, show ¬ i - 8 - 8 < 8 by omega, show i - 8 - 8 - 8 < 8 by omega,
      show 24 + (i - 8 - 8 - 8) = i by omega]

theorem readDisp32_sound {bs : List Byte} {d : BitVec 32} {rest : List Byte} (h : readDisp32 bs = .ok (d, rest)) :
    bs = le32 d ++ rest := by
  unfold readDisp32 at h
  split at h
  · rename_i b0 b1 b2 b3 bs'
    simp only [Except.ok.injEq, Prod.mk.injEq] at h
    obtain ⟨rfl, rfl⟩ := h
    simp only [le32, List.cons_append, List.nil_append, List.cons.injEq, and_true]
    refine ⟨?_, ?_, ?_, ?_⟩ <;> apply BitVec.eq_of_getLsbD_eq <;> intro i hi <;>
      simp only [BitVec.getLsbD_append, BitVec.getLsbD_extractLsb', hi, decide_true, Bool.true_and]
    · simp [hi]
    · simp [show 8 + i - 8 = i by omega, hi]
    · simp [show ¬ 16 + i < 8 by omega, show ¬ 16 + i - 8 < 8 by omega, show 16 + i - 8 - 8 = i by omega, hi]
    · simp [show ¬ 24 + i < 8 by omega, show ¬ 24 + i - 8 < 8 by omega, show ¬ 24 + i - 8 - 8 < 8 by omega,
        show 24 + i - 8 - 8 - 8 = i by omega]
  · cases h

@[simp] theorem readDisp_bytes (d : Disp) (rest : List Byte) : readDisp d.md (d.bytes ++ rest) = .ok (d, rest) := by
  cases d <;> simp [readDisp, Disp.md, Disp.bytes]

theorem readDisp_sound {md : BitVec 2} (hmd : md ≠ 3#2) {bs : List Byte} {d : Disp} {rest : List Byte}
    (h : readDisp md bs = .ok (d, rest)) : bs = d.bytes ++ rest ∧ d.md = md := by
  unfold readDisp at h
  split at h
  · split at h
    · simp only [Except.ok.injEq, Prod.mk.injEq] at h
      obtain ⟨rfl, rfl⟩ := h
      exact ⟨rfl, by simp_all [Disp.md]⟩
    · cases h
  · split at h
    · rw [except_bind_eq_ok_iff] at h
      obtain ⟨⟨d', rest'⟩, h1, h2⟩ := h
      simp only [except_pure, Except.ok.injEq, Prod.mk.injEq] at h2
      obtain ⟨rfl, rfl⟩ := h2
      exact ⟨readDisp32_sound h1, by simp_all [Disp.md]⟩
    · simp only [Except.ok.injEq, Prod.mk.injEq] at h
      obtain ⟨rfl, rfl⟩ := h
      refine ⟨rfl, ?_⟩
      have : ∀ x : BitVec 2, x ≠ 3#2 → ¬ x = 1#2 → ¬ x = 2#2 → 0#2 = x := by decide
      exact this md hmd (by assumption) (by assumption)

/-! ## ModRM and SIB -/

theorem sibByte_fields : ∀ (s : BitVec 2) (i b : BitVec 3), (sibByte s i b).extractLsb' 6 2 = s ∧
    (sibByte s i b).extractLsb' 3 3 = i ∧ (sibByte s i b).extractLsb' 0 3 = b := by decide

theorem sibByte_of_fields : ∀ b : Byte, sibByte (b.extractLsb' 6 2) (b.extractLsb' 3 3) (b.extractLsb' 0 3) = b := by
  decide

/-- SIB and ModRM have one layout. -/
theorem modRmByte_eq (md : BitVec 2) (reg rm : BitVec 3) : modRmByte md reg rm = sibByte md reg rm := rfl

theorem readRm_tail (rm : RegMem) (rest : List Byte) (h : rm.wf = true) :
    readRm rm.md rm.rmField (rm.tail ++ rest) = .ok (rm, rest) := by
  cases rm with
  | reg r => simp [readRm, RegMem.md, RegMem.rmField, RegMem.tail]
  | mem a =>
    cases a with
    | base rm d =>
      simp only [RegMem.wf, MemRef.wf, Bool.and_eq_true, bne_iff_ne, ne_eq, Bool.or_eq_true] at h
      have h3 : d.md ≠ 3#2 := by cases d <;> simp [Disp.md]
      have h5 : ¬ (d.md = 0#2 ∧ rm = 5#3) := by
        rintro ⟨hd, hr⟩
        cases d <;> simp_all [Disp.md]
      simp [readRm, RegMem.md, RegMem.rmField, RegMem.tail, h3, h5, h.1]
    | disp d => simp [readRm, RegMem.md, RegMem.rmField, RegMem.tail]
    | sib s i b d =>
      simp only [RegMem.wf, MemRef.wf, bne_iff_ne, ne_eq, Bool.or_eq_true] at h
      have h3 : d.md ≠ 3#2 := by cases d <;> simp [Disp.md]
      have h5 : ¬ (d.md = 0#2 ∧ b = 5#3) := by
        rintro ⟨hd, hr⟩
        cases d <;> simp_all [Disp.md]
      obtain ⟨e1, e2, e3⟩ := sibByte_fields s i b
      simp [readRm, readSib, RegMem.md, RegMem.rmField, RegMem.tail, h3, h5, e1, e2, e3]
    | sibDisp s i d =>
      obtain ⟨e1, e2, e3⟩ := sibByte_fields s i 5#3
      simp [readRm, readSib, RegMem.md, RegMem.rmField, RegMem.tail, e1, e2, e3]

theorem readRm_sound {md : BitVec 2} {r : BitVec 3} {bs : List Byte} {rm : RegMem} {rest : List Byte}
    (h : readRm md r bs = .ok (rm, rest)) :
    bs = rm.tail ++ rest ∧ rm.md = md ∧ rm.rmField = r ∧ rm.wf = true := by
  unfold readRm at h
  split at h
  · simp only [Except.ok.injEq, Prod.mk.injEq] at h
    obtain ⟨rfl, rfl⟩ := h
    simp_all [RegMem.tail, RegMem.md, RegMem.rmField, RegMem.wf]
  rename_i hmd
  split at h
  · rename_i hr
    subst hr
    rw [except_bind_eq_ok_iff] at h
    obtain ⟨⟨a, rest'⟩, h1, h2⟩ := h
    simp only [except_pure, Except.ok.injEq, Prod.mk.injEq] at h2
    obtain ⟨rfl, rfl⟩ := h2
    unfold readSib at h1
    split at h1
    · cases h1
    · rename_i sib bs'
      have hs := sibByte_of_fields sib
      simp only at h1
      split at h1
      · rename_i h0
        rw [except_bind_eq_ok_iff] at h1
        obtain ⟨⟨d, r2⟩, h3, h4⟩ := h1
        simp only [except_pure, Except.ok.injEq, Prod.mk.injEq] at h4
        obtain ⟨rfl, rfl⟩ := h4
        rw [readDisp32_sound h3]
        rw [h0.2] at hs
        simp [RegMem.tail, RegMem.md, RegMem.rmField, RegMem.wf, MemRef.wf, hs, h0.1]
      · rename_i h0
        rw [except_bind_eq_ok_iff] at h1
        obtain ⟨⟨d, r2⟩, h3, h4⟩ := h1
        simp only [except_pure, Except.ok.injEq, Prod.mk.injEq] at h4
        obtain ⟨rfl, rfl⟩ := h4
        obtain ⟨rfl, hd⟩ := readDisp_sound hmd h3
        simp only [RegMem.tail, RegMem.md, RegMem.rmField, RegMem.wf, MemRef.wf, hs, hd, List.cons_append, true_and,
          bne_iff_ne, ne_eq, Bool.or_eq_true]
        by_cases hdn : d = .none
        · right; intro h5; exact h0 ⟨by rw [← hd, hdn]; rfl, h5⟩
        · exact Or.inl hdn
  · rename_i hr4
    split at h
    · rename_i h0
      rw [except_bind_eq_ok_iff] at h
      obtain ⟨⟨d, r2⟩, h3, h4⟩ := h
      simp only [except_pure, Except.ok.injEq, Prod.mk.injEq] at h4
      obtain ⟨rfl, rfl⟩ := h4
      rw [readDisp32_sound h3]
      simp [RegMem.tail, RegMem.md, RegMem.rmField, RegMem.wf, MemRef.wf, h0.1, h0.2]
    · rename_i h0
      rw [except_bind_eq_ok_iff] at h
      obtain ⟨⟨d, r2⟩, h3, h4⟩ := h
      simp only [except_pure, Except.ok.injEq, Prod.mk.injEq] at h4
      obtain ⟨rfl, rfl⟩ := h4
      obtain ⟨rfl, hd⟩ := readDisp_sound hmd h3
      simp only [RegMem.tail, RegMem.md, RegMem.rmField, RegMem.wf, MemRef.wf, hd, true_and, Bool.and_eq_true,
        bne_iff_ne, ne_eq, Bool.or_eq_true]
      refine ⟨hr4, ?_⟩
      by_cases hdn : d = .none
      · right; intro h5; exact h0 ⟨by rw [← hd, hdn]; rfl, h5⟩
      · exact Or.inl hdn

theorem isReg_iff_md (rm : RegMem) (h : rm.md = 3#2) : rm.isReg = true := by
  cases rm with
  | reg r => rfl
  | mem a => cases a <;> rename_i d <;> revert h <;> (try cases d) <;> simp [RegMem.md, Disp.md]

/-- The ModRM byte, SIB and displacement read back. -/
theorem readModRm_bytes (m : ExecMode) (pfx : List Pfx) (reg : BitVec 3) (rm : RegMem) (rest : List Byte)
    (h : rm.wf = true) (ha : addrSizeOk m pfx rm = true) :
    readModRm m pfx (modRmBytes reg rm ++ rest) = .ok (reg, rm, rest) := by
  obtain ⟨e1, e2, e3⟩ := sibByte_fields rm.md reg rm.rmField
  have hno : ¬ (rm.md ≠ 3#2 ∧ m = .m32 ∧ pfx.contains .addrSize = true) := by
    rintro ⟨hmd, rfl, hc⟩
    simp only [addrSizeOk, hc, beq_self_eq_true, Bool.and_self, Bool.not_true, Bool.false_or] at ha
    cases rm with
    | reg r => exact hmd rfl
    | mem a => cases ha
  simp only [readModRm, modRmBytes, List.cons_append, modRmByte_eq, e1, e2, e3, if_neg hno, readRm_tail rm rest h,
    except_bind_ok, except_pure]

theorem readModRm_sound {m : ExecMode} {pfx : List Pfx} {bs : List Byte} {reg : BitVec 3} {rm : RegMem}
    {rest : List Byte} (h : readModRm m pfx bs = .ok (reg, rm, rest)) :
    bs = modRmBytes reg rm ++ rest ∧ rm.wf = true ∧ addrSizeOk m pfx rm = true := by
  unfold readModRm at h
  split at h
  · cases h
  · rename_i b bs'
    simp only at h
    split at h
    · cases h
    · rename_i hno
      rw [except_bind_eq_ok_iff] at h
      obtain ⟨⟨rm', r2⟩, h3, h4⟩ := h
      simp only [except_pure, Except.ok.injEq, Prod.mk.injEq] at h4
      obtain ⟨rfl, rfl, rfl⟩ := h4
      obtain ⟨rfl, hmd, hrm, hwf⟩ := readRm_sound h3
      refine ⟨?_, hwf, ?_⟩
      · rw [modRmBytes, modRmByte_eq, hmd, hrm, sibByte_of_fields, List.cons_append]
      · by_cases h3' : rm'.md = 3#2
        · simp [addrSizeOk, isReg_iff_md _ h3']
        · rw [hmd] at h3'
          simp only [addrSizeOk, Bool.or_eq_true, Bool.not_eq_true']
          left
          rw [Bool.eq_false_iff]
          intro hc
          simp only [Bool.and_eq_true, beq_iff_eq] at hc
          exact hno ⟨h3', hc.1, hc.2⟩

/-! ## Opcode -/

@[simp] theorem elemOf_opcode (el : Elem) : elemOf el.opcode = some el := by cases el <;> decide

theorem opcode_of_elemOf {op : Byte} {el : Elem} (h : elemOf op = some el) : op = el.opcode := by
  unfold elemOf at h
  repeat' split at h
  all_goals first | (cases h; assumption) | cases h

@[simp] theorem vecLenOf_ll (vl : VecLen) : vecLenOf vl.ll = some vl := by cases vl <;> decide

theorem ll_of_vecLenOf {x : BitVec 2} {vl : VecLen} (h : vecLenOf x = some vl) : x = vl.ll := by
  unfold vecLenOf at h
  repeat' split at h
  all_goals first | (cases h; assumption) | cases h

theorem isRex_byte (r : Rex) : isRex r.byte = true ∧ rexOf r.byte = r ∧ pfxByteOf r.byte = none := by
  obtain ⟨w, r, x, b⟩ := r
  cases w <;> cases r <;> cases x <;> cases b <;> decide

/-! ## Lengths (R61) -/

@[simp] theorem length_le32 (d : BitVec 32) : (le32 d).length = 4 := rfl

@[simp] theorem length_tail (rm : RegMem) : rm.tail.length = rm.len := by
  have hd : ∀ d : Disp, d.bytes.length = d.len := by intro d; cases d <;> rfl
  cases rm with
  | reg r => rfl
  | mem a => cases a <;> simp [RegMem.tail, RegMem.len, hd, Nat.add_comm]

theorem length_encodeLegacy (el : Elem) (e : LegacyEnc) : (encodeLegacy el e).length = e.len := by
  have hr : (rexBytes e.rex).length = if e.rex.isSome then 1 else 0 := by cases e.rex <;> rfl
  simp only [encodeLegacy, modRmBytes, List.length_append, List.length_map, List.length_cons, hr, length_tail,
    LegacyEnc.len]
  omega

theorem length_encodeVex (l : Bool) (el : Elem) (e : VexEnc) : (encodeVex l el e).length = e.len := by
  have hh : (e.head.bytes e.vvvv l).length = e.head.len := by cases e.head <;> rfl
  simp only [encodeVex, modRmBytes, List.length_append, List.length_map, List.length_cons, hh, length_tail, VexEnc.len]
  omega

theorem length_encodeEvex (vl : VecLen) (el : Elem) (e : EvexEnc) : (encodeEvex vl el e).length = e.len := by
  simp only [encodeEvex, modRmBytes, List.length_append, List.length_map, List.length_cons, length_tail, EvexEnc.len]
  omega

end Sys2Proof
end

