-- ==== Sys2Proof/Laws/Bytes.lean ====
section
/-! SUPPORT. Reading a well-formed instruction's prefixes and its VEX and EVEX bytes: the fields the encoder packs are
the fields the decoder takes out, both ways, and the bounds on lengths (R51, R61, R62, R64). -/

set_option Elab.async false

namespace Sys2Proof

/-! ## Prefixes -/

/-- Well-formed prefixes read one after another. -/
theorem readPrefixes_append (lr : Option LockRep) : ∀ (ps acc : List Pfx) (tail : List Byte), pfxWf ps = true →
    (∀ q ∈ acc, ∀ p ∈ ps, q.sameGroup p = false) →
    readPrefixes acc lr (ps.map Pfx.byte ++ tail) = readPrefixes (acc ++ ps) lr tail
  | [], acc, tail, _, _ => by simp
  | p :: ps, acc, tail, hw, hacc => by
    simp only [pfxWf, Bool.and_eq_true, List.all_eq_true, Bool.not_eq_true'] at hw
    have hany : acc.any (fun q => q.sameGroup p) = false := by
      rw [List.any_eq_false]; intro q hq; simp [hacc q hq p (by simp)]
    rw [List.map_cons, List.cons_append, readPrefixes]
    simp only [pfxByteOf_byte, hany, Bool.false_eq_true, if_false]
    rw [readPrefixes_append lr ps (acc ++ [p]) tail hw.2, List.append_assoc]
    · rfl
    · intro q hq r hr
      rcases List.mem_append.mp hq with h | h
      · exact hacc q h r (by simp [hr])
      · rw [List.mem_singleton.mp h]; exact hw.1 r hr

theorem pfxWf_append : ∀ ps qs : List Pfx, pfxWf (ps ++ qs) = true →
    pfxWf ps = true ∧ pfxWf qs = true ∧ (∀ q ∈ ps, ∀ p ∈ qs, q.sameGroup p = false)
  | [], qs, h => ⟨rfl, h, by simp⟩
  | p :: ps, qs, h => by
    simp only [List.cons_append, pfxWf, Bool.and_eq_true, List.all_eq_true, Bool.not_eq_true', List.mem_append] at h
    obtain ⟨a, b, c⟩ := pfxWf_append ps qs h.2
    refine ⟨?_, b, ?_⟩
    · simp only [pfxWf, Bool.and_eq_true, List.all_eq_true, Bool.not_eq_true']
      exact ⟨fun q hq => h.1 q (.inl hq), a⟩
    · intro q hq r hr
      rcases List.mem_cons.mp hq with rfl | hq
      · exact h.1 r (.inr hr)
      · exact c q hq r hr

/-- After well-formed prefixes the decoder is at the first byte that is none. -/
theorem decode_pfx (m : ExecMode) (ps : List Pfx) (b : Byte) (rest : List Byte) (hw : pfxWf ps = true)
    (hb : pfxByteOf b = none) : decode m (ps.map Pfx.byte ++ b :: rest) = decodeOpcode m ps none (b :: rest) := by
  unfold decode
  rw [readPrefixes_append none ps [] _ hw (by simp), List.nil_append, readPrefixes, hb]
  rfl

/-- The same with one prefix of the group F0H, F2H, F3H among them. -/
theorem decode_pfx_lockRep (m : ExecMode) (ps qs : List Pfx) (l : Byte) (x : LockRep) (b : Byte) (rest : List Byte)
    (hw : pfxWf (ps ++ qs) = true) (hl : pfxByteOf l = some (.lockRep x)) (hb : pfxByteOf b = none) :
    decode m (ps.map Pfx.byte ++ l :: (qs.map Pfx.byte ++ b :: rest)) =
      decodeOpcode m (ps ++ qs) (some x) (b :: rest) := by
  obtain ⟨a, b', c⟩ := pfxWf_append ps qs hw
  unfold decode
  rw [readPrefixes_append none ps [] _ a (by simp), List.nil_append, readPrefixes]
  simp only [hl, Option.isSome_none, Bool.false_eq_true, if_false]
  rw [readPrefixes_append _ _ _ _ b' c, readPrefixes, hb]
  rfl

/-- Both at once: with at most one of F0H, F2H, F3H among the prefixes. -/
theorem decode_prefixes (m : ExecMode) (ps qs : List Pfx) {lock : List Byte} (b : Byte) (rest : List Byte)
    (hw : pfxWf (ps ++ qs) = true) (hl : lock ∈ [[], [0xF0#8], [0xF2#8], [0xF3#8]]) (hb : pfxByteOf b = none) :
    ∃ lr, decode m (ps.map Pfx.byte ++ lock ++ qs.map Pfx.byte ++ b :: rest) =
      decodeOpcode m (ps ++ qs) lr (b :: rest) := by
  simp only [List.mem_cons, List.not_mem_nil, or_false] at hl
  rcases hl with rfl | rfl | rfl | rfl
  · exact ⟨none, by rw [List.append_nil, ← List.map_append, decode_pfx m _ b rest hw hb]⟩
  · exact ⟨some .lock, by simpa using decode_pfx_lockRep m ps qs _ .lock b rest hw rfl hb⟩
  · exact ⟨some .repne, by simpa using decode_pfx_lockRep m ps qs _ .repne b rest hw rfl hb⟩
  · exact ⟨some .rep, by simpa using decode_pfx_lockRep m ps qs _ .rep b rest hw rfl hb⟩

theorem decodeOpcode_rex (ps : List Pfx) (lr : Option LockRep) (r : Rex) (rest : List Byte) :
    decodeOpcode .m64 ps lr (r.byte :: rest) = decodeAfterRex .m64 ps lr r rest := by
  obtain ⟨h1, h2, h3⟩ := isRex_byte r
  simp [decodeOpcode, h1, h2]

theorem rexOf_byte : ∀ b : Byte, isRex b = true → (rexOf b).byte = b := by decide

theorem isVexIn_of_bits {m : ExecMode} {b : Byte} (rest : List Byte) (h : m = .m64 ∨ b.extractLsb' 6 2 = 3#2) :
    isVexIn m (b :: rest) = .ok () := by
  cases m
  · rfl
  · rcases h with h | h
    · cases h
    · simp [isVexIn, h]

theorem vexPrefixesOk_of_no_opSize {ps : List Pfx} (h : ps.contains .opSize = false) :
    vexPrefixesOk ps none = .ok () := by
  unfold vexPrefixesOk
  rw [h]
  rfl

theorem vexPrefixesOk_sound {ps : List Pfx} {lr : Option LockRep} {u : Unit} (h : vexPrefixesOk ps lr = .ok u) :
    lr = none ∧ ps.contains .opSize = false := by
  unfold vexPrefixesOk at h
  split at h
  · cases h
  · rename_i hx
    simp only [Bool.or_eq_true, not_or, Bool.not_eq_true] at hx
    exact ⟨by cases lr; rfl; simp at hx, hx.2⟩

/-! ## Fields of the VEX bytes -/

theorem vexTwo_fields : ∀ (r : Bool) (v : BitVec 4) (l : Bool), let b : Byte := bit (!r) ++ ~~~ v ++ bit l ++ 1#2
    (!b.getLsbD 7) = r ∧ (~~~ b.extractLsb' 3 4) = v ∧ b.getLsbD 2 = l ∧ b.extractLsb' 0 2 = 1#2 ∧
    (b.extractLsb' 6 2 = 3#2 ↔ r = false ∧ v.msb = false) := by decide

theorem vexThree1_fields : ∀ (r x b : Bool), let c : Byte := bit (!r) ++ bit (!x) ++ bit (!b) ++ 1#5
    (!c.getLsbD 7) = r ∧ (!c.getLsbD 6) = x ∧ (!c.getLsbD 5) = b ∧ c.extractLsb' 0 5 = 1#5 ∧
    (c.extractLsb' 6 2 = 3#2 ↔ r = false ∧ x = false) := by decide

theorem vexThree2_fields : ∀ (w : Bool) (v : BitVec 4) (l : Bool), let b : Byte := bit w ++ ~~~ v ++ bit l ++ 1#2
    b.getLsbD 7 = w ∧ (~~~ b.extractLsb' 3 4) = v ∧ b.getLsbD 2 = l ∧ b.extractLsb' 0 2 = 1#2 := by decide

theorem vexTwo_of_fields : ∀ b : Byte, b.extractLsb' 0 2 = 1#2 →
    bit (!(!b.getLsbD 7)) ++ ~~~ (~~~ b.extractLsb' 3 4) ++ bit (b.getLsbD 2) ++ 1#2 = b := by decide

theorem vexThree1_of_fields : ∀ b : Byte, b.extractLsb' 0 5 = 1#5 →
    bit (!(!b.getLsbD 7)) ++ bit (!(!b.getLsbD 6)) ++ bit (!(!b.getLsbD 5)) ++ 1#5 = b := by decide

theorem vexThree2_of_fields : ∀ b : Byte, b.extractLsb' 0 2 = 1#2 →
    bit (b.getLsbD 7) ++ ~~~ (~~~ b.extractLsb' 3 4) ++ bit (b.getLsbD 2) ++ 1#2 = b := by decide

/-! ## Fields of the EVEX bytes -/

theorem evexP0_fields : ∀ (x b : Bool), let p : Byte := 1#1 ++ bit (!x) ++ bit (!b) ++ 0x11#5
    p.extractLsb' 0 4 = 1#4 ∧ p.getLsbD 7 = true ∧ p.getLsbD 4 = true ∧ (!p.getLsbD 6) = x ∧ (!p.getLsbD 5) = b ∧
    (p.extractLsb' 6 2 = 3#2 ↔ x = false) := by decide

theorem evexP1_fields : ∀ (w : Bool) (v : BitVec 4), let p : Byte := bit w ++ ~~~ v ++ 5#3
    p.extractLsb' 0 3 = 5#3 ∧ p.getLsbD 7 = w ∧ ~~~ p.extractLsb' 3 4 = v ∧ (!p.getLsbD 6) = v.getLsbD 3 := by decide

theorem evexP2_fields : ∀ (vl : VecLen) (b : Bool) (v : BitVec 1) (a : BitVec 3),
    let p : Byte := 0#1 ++ vl.ll ++ bit b ++ ~~~ v ++ a
    p.getLsbD 7 = false ∧ p.extractLsb' 5 2 = vl.ll ∧ p.getLsbD 4 = b ∧ ~~~ p.extractLsb' 3 1 = v ∧
    p.extractLsb' 0 3 = a ∧ (!p.getLsbD 3) = v.getLsbD 0 := by
  intro vl
  cases vl <;> decide

theorem evexP0_of_fields : ∀ p : Byte, p.extractLsb' 0 4 = 1#4 → p.getLsbD 7 = true → p.getLsbD 4 = true →
    1#1 ++ bit (!(!p.getLsbD 6)) ++ bit (!(!p.getLsbD 5)) ++ 0x11#5 = p := by decide

theorem evexP1_of_fields : ∀ p : Byte, p.extractLsb' 0 3 = 5#3 →
    bit (p.getLsbD 7) ++ p.extractLsb' 3 4 ++ 5#3 = p := by decide

theorem evexP2_of_fields : ∀ p : Byte, p.getLsbD 7 = false →
    0#1 ++ p.extractLsb' 5 2 ++ bit (p.getLsbD 4) ++ p.extractLsb' 3 1 ++ p.extractLsb' 0 3 = p := by decide

theorem v5_of_halves : ∀ v : BitVec 5, v.extractLsb' 4 1 ++ v.extractLsb' 0 4 = v := by decide

theorem not_append_v5 : ∀ (a : BitVec 1) (b : BitVec 4), ~~~ (a ++ b) = ~~~ a ++ ~~~ b := by decide

/-! ## Lengths -/

theorem RegMem.len_le (rm : RegMem) : rm.len ≤ 5 := by
  cases rm with
  | reg => simp [RegMem.len]
  | mem a => cases a <;> rename_i d <;> simp [RegMem.len] <;> (try cases d) <;> simp [Disp.len]

/-- The three groups of admitted prefixes, as numbers. -/
def Pfx.group : Pfx → Fin 3
  | .seg _ => 0
  | .opSize => 1
  | .addrSize => 2

theorem sameGroup_eq (p q : Pfx) : p.sameGroup q = decide (p.group = q.group) := by cases p <;> cases q <;> rfl

theorem nodup_groups : ∀ ps : List Pfx, pfxWf ps = true → (ps.map Pfx.group).Nodup
  | [], _ => by simp
  | p :: ps, h => by
    simp only [pfxWf, Bool.and_eq_true, List.all_eq_true, Bool.not_eq_true', sameGroup_eq,
      decide_eq_false_iff_not] at h
    rw [List.map_cons, List.nodup_cons]
    refine ⟨fun hm => ?_, nodup_groups ps h.2⟩
    obtain ⟨q, hq, he⟩ := List.mem_map.mp hm
    exact h.1 q hq he.symm

theorem length_le_of_pfxWf (ps : List Pfx) (h : pfxWf ps = true) : ps.length ≤ 3 := by
  have := (nodup_groups ps h).length_le_card
  simpa using this

theorem length_le_of_no_opSize (ps : List Pfx) (h : pfxWf ps = true) (ho : ps.contains .opSize = false) :
    ps.length ≤ 2 := by
  have : ((1 : Fin 3) :: ps.map Pfx.group).Nodup := by
    rw [List.nodup_cons]
    refine ⟨fun hm => ?_, nodup_groups ps h⟩
    obtain ⟨q, hq, he⟩ := List.mem_map.mp hm
    cases q <;> simp [Pfx.group] at he
    simp at ho
    exact ho hq
  have := this.length_le_card
  simp at this
  omega

end Sys2Proof
end

