-- ==== Sys2Proof/Laws/Lanes.lean ====
section
/-! SUPPORT. What packing lanes does, bit by bit and element by element. -/

set_option Elab.async false

namespace Sys2Proof.Machine

theorem getLsbD_packLanes {w esz : Nat} (hesz : 0 < esz) (f : Nat → BitVec esz) :
    ∀ n, n * esz ≤ w → ∀ p,
      (packLanes w esz f n).getLsbD p = (decide (p < n * esz) && (f (p / esz)).getLsbD (p % esz))
  | 0, _, p => by simp [packLanes]
  | n + 1, hw, p => by
    have hn : n * esz ≤ w := by rw [Nat.add_mul] at hw; omega
    have hw' : n * esz + esz ≤ w := by rw [Nat.add_mul] at hw; omega
    rw [packLanes, BitVec.getLsbD_or, getLsbD_packLanes hesz f n hn p, BitVec.getLsbD_shiftLeft,
      BitVec.getLsbD_setWidth, Nat.add_mul, Nat.one_mul]
    by_cases hlt : p < n * esz
    · simp [hlt, show p < n * esz + esz by omega]
    · by_cases hin : p < n * esz + esz
      · have hdiv : p / esz = n := Nat.div_eq_of_lt_le (by omega) (by rw [Nat.add_mul]; omega)
        have hmod : p % esz = p - n * esz := by
          have := Nat.div_add_mod p esz
          rw [hdiv, Nat.mul_comm] at this
          omega
        simp [hlt, hin, hdiv, hmod, show p < w by omega, show p - n * esz < w by omega]
      · simp [hlt, hin]
        intro _ _
        exact BitVec.getLsbD_of_ge _ _ (by omega)

/-- Element `i` of packed elements is that element. -/
theorem lane_packLanes {w esz : Nat} (hesz : 0 < esz) (f : Nat → BitVec esz) {n i : Nat} (hw : n * esz ≤ w) (hi : i < n) :
    lane esz (packLanes w esz f n) i = f i := by
  apply BitVec.eq_of_getLsbD_eq
  intro j hj
  have hlt : i * esz + j < n * esz := by
    have := Nat.mul_le_mul_right esz (show i + 1 ≤ n from hi)
    rw [Nat.add_mul] at this
    omega
  have hd : (i * esz + j) / esz = i := Nat.div_eq_of_lt_le (by omega) (by rw [Nat.add_mul]; omega)
  have hm : (i * esz + j) % esz = j := by
    rw [Nat.mul_comm, Nat.mul_add_mod]
    exact Nat.mod_eq_of_lt hj
  simp [lane, hj, getLsbD_packLanes hesz f n hw, hlt, hd, hm]

/-- A bit of packed one-bit elements. -/
theorem getLsbD_packBits {w : Nat} (f : Nat → Bool) {n : Nat} (hw : n ≤ w) (p : Nat) :
    (packLanes w 1 (fun j => BitVec.ofBool (f j)) n).getLsbD p = (decide (p < n) && f p) := by
  rw [getLsbD_packLanes Nat.one_pos _ n (by omega)]
  simp [Nat.mod_one]

/-- A lane of a truncation is the lane, when it lies inside. -/
theorem lane_extractLsb' {w : Nat} (esz lo len i : Nat) (v : BitVec w) (h : i * esz + esz ≤ len) :
    lane esz (v.extractLsb' lo len) i = v.extractLsb' (lo + i * esz) esz := by
  apply BitVec.eq_of_getLsbD_eq
  intro j hj
  simp [lane, hj, show i * esz + j < len by omega, Nat.add_assoc]

@[simp] theorem eqLane_self {esz : Nat} (a : BitVec esz) : eqLane a a = BitVec.allOnes esz := by simp [eqLane]

theorem eqLane_comm {esz : Nat} (a b : BitVec esz) : eqLane a b = eqLane b a := by simp [eqLane, eq_comm]

/-- Element `i` of a packed compare is the compare of elements `i` (R100, R110, R111, R115 to R117). -/
theorem lane_cmpEq {w esz i : Nat} (he : 0 < esz) (a b : BitVec w) (hi : i < w / esz) :
    lane esz (cmpEq w esz a b) i = eqLane (lane esz a i) (lane esz b i) :=
  lane_packLanes he _ (Nat.div_mul_le_self _ _) hi

/-- Elements of a concatenation, the lower part holding `k` of them. -/
theorem lane_append {n m esz i k : Nat} (hi : BitVec n) (lo : BitVec m) (hk : m = k * esz) :
    lane esz (hi ++ lo) i = if i < k then lane esz lo i else lane esz hi (i - k) := by
  apply BitVec.eq_of_getLsbD_eq
  intro j hj
  simp only [lane, BitVec.getLsbD_extractLsb', hj, decide_true, Bool.true_and, BitVec.getLsbD_append]
  subst hk
  by_cases h : i < k
  · have : i * esz + esz ≤ k * esz := by
      have := Nat.mul_le_mul_right esz h
      simpa [Nat.succ_mul] using this
    simp [h, show i * esz + j < k * esz by omega, hj]
  · have h2 : k * esz ≤ i * esz := Nat.mul_le_mul_right esz (by omega)
    simp [h, show ¬ i * esz + j < k * esz by omega, Nat.sub_mul, hj,
      show i * esz + j - k * esz = i * esz - k * esz + j by omega]

/-- Element `i` of a 256-bit compare is the compare of elements `i` (R123 to R125). -/
theorem lane_cmpEq256 {esz k i : Nat} (he : 0 < esz) (hk : 128 = k * esz) (a b : BitVec 256) (hi : i < 2 * k) :
    lane esz (cmpEq256 esz a b) i = eqLane (lane esz a i) (lane esz b i) := by
  have hd : 128 / esz = k := by rw [hk]; exact Nat.mul_div_cancel k he
  have h1 : ∀ v : BitVec 256, i < k → lane esz (v.extractLsb' 0 128) i = lane esz v i := by
    intro v h
    have := Nat.mul_le_mul_right esz h
    rw [Nat.succ_mul] at this
    rw [lane_extractLsb' _ _ _ _ _ (by omega), Nat.zero_add, lane]
  have h2 : ∀ v : BitVec 256, ¬ i < k → lane esz (v.extractLsb' 128 128) (i - k) = lane esz v i := by
    intro v h
    have h3 := Nat.mul_le_mul_right esz (show i - k + 1 ≤ k by omega)
    have h4 := Nat.mul_le_mul_right esz (show k ≤ i by omega)
    rw [Nat.add_mul, Nat.one_mul] at h3
    rw [lane_extractLsb' _ _ _ _ _ (by omega), lane, Nat.sub_mul]
    congr 1
    omega
  rw [cmpEq256, lane_append _ _ hk]
  split
  · rename_i h
    rw [lane_cmpEq he _ _ (by omega), h1 _ h, h1 _ h]
  · rename_i h
    rw [lane_cmpEq he _ _ (by omega), h2 _ h, h2 _ h]

/-- A bit of an opmask compare (R140). -/
theorem getLsbD_evexCmpEq {esz vl : Nat} (h : vl / esz ≤ 64) (s1 : BitVec vl) (s2 : Src2 vl)
    (km : Option (BitVec 64)) (j : Nat) : (evexCmpEq esz vl s1 s2 km).getLsbD j =
      (decide (j < vl / esz) && (maskBit km j && lane esz s1 j == src2Lane esz s2 j)) :=
  getLsbD_packBits _ h j

end Sys2Proof.Machine
end

