-- ==== Sys2Proof/Laws/State.lean ====
section
/-! SUPPORT. One lemma for each field and each update of the state, and the reads of a register after a write. -/

set_option Elab.async false

namespace Sys2Proof.Machine

variable (s : State)

/-! ## setPc -/

section
variable (v : Addr)

@[simp] theorem setPc_mode : (setPc v s).mode = s.mode := rfl
@[simp] theorem setPc_pc : (setPc v s).pc = v := rfl
@[simp] theorem setPc_gpr : (setPc v s).gpr = s.gpr := rfl
@[simp] theorem setPc_mm : (setPc v s).mm = s.mm := rfl
@[simp] theorem setPc_fpHigh : (setPc v s).fpHigh = s.fpHigh := rfl
@[simp] theorem setPc_fsw : (setPc v s).fsw = s.fsw := rfl
@[simp] theorem setPc_ftw : (setPc v s).ftw = s.ftw := rfl
@[simp] theorem setPc_vec : (setPc v s).vec = s.vec := rfl
@[simp] theorem setPc_k : (setPc v s).k = s.k := rfl
@[simp] theorem setPc_eflags : (setPc v s).eflags = s.eflags := rfl
@[simp] theorem setPc_mxcsr : (setPc v s).mxcsr = s.mxcsr := rfl
@[simp] theorem setPc_cr0 : (setPc v s).cr0 = s.cr0 := rfl
@[simp] theorem setPc_cr4 : (setPc v s).cr4 = s.cr4 := rfl
@[simp] theorem setPc_xcr0 : (setPc v s).xcr0 = s.xcr0 := rfl
@[simp] theorem setPc_cpl : (setPc v s).cpl = s.cpl := rfl
@[simp] theorem setPc_fsBase : (setPc v s).fsBase = s.fsBase := rfl
@[simp] theorem setPc_gsBase : (setPc v s).gsBase = s.gsBase := rfl
@[simp] theorem setPc_cpu : (setPc v s).cpu = s.cpu := rfl
@[simp] theorem setPc_code : (setPc v s).code = s.code := rfl
@[simp] theorem setPc_access : (setPc v s).access = s.access := rfl
@[simp] theorem setPc_mem : (setPc v s).mem = s.mem := rfl
end

/-! ## writeMm -/

section
variable (i : BitVec 3) (v : BitVec 64)

@[simp] theorem writeMm_mode : (writeMm i v s).mode = s.mode := rfl
@[simp] theorem writeMm_pc : (writeMm i v s).pc = s.pc := rfl
@[simp] theorem writeMm_gpr : (writeMm i v s).gpr = s.gpr := rfl
@[simp] theorem writeMm_mm : (writeMm i v s).mm = s.mm.set i.toNat v i.isLt := rfl
@[simp] theorem writeMm_fpHigh : (writeMm i v s).fpHigh = s.fpHigh.set i.toNat 0xFFFF#16 i.isLt := rfl
@[simp] theorem writeMm_fsw : (writeMm i v s).fsw = s.fsw &&& 0xC7FF#16 := rfl
@[simp] theorem writeMm_ftw : (writeMm i v s).ftw = 0#16 := rfl
@[simp] theorem writeMm_vec : (writeMm i v s).vec = s.vec := rfl
@[simp] theorem writeMm_k : (writeMm i v s).k = s.k := rfl
@[simp] theorem writeMm_eflags : (writeMm i v s).eflags = s.eflags := rfl
@[simp] theorem writeMm_mxcsr : (writeMm i v s).mxcsr = s.mxcsr := rfl
@[simp] theorem writeMm_cr0 : (writeMm i v s).cr0 = s.cr0 := rfl
@[simp] theorem writeMm_cr4 : (writeMm i v s).cr4 = s.cr4 := rfl
@[simp] theorem writeMm_xcr0 : (writeMm i v s).xcr0 = s.xcr0 := rfl
@[simp] theorem writeMm_cpl : (writeMm i v s).cpl = s.cpl := rfl
@[simp] theorem writeMm_fsBase : (writeMm i v s).fsBase = s.fsBase := rfl
@[simp] theorem writeMm_gsBase : (writeMm i v s).gsBase = s.gsBase := rfl
@[simp] theorem writeMm_cpu : (writeMm i v s).cpu = s.cpu := rfl
@[simp] theorem writeMm_code : (writeMm i v s).code = s.code := rfl
@[simp] theorem writeMm_access : (writeMm i v s).access = s.access := rfl
@[simp] theorem writeMm_mem : (writeMm i v s).mem = s.mem := rfl
end

/-! ## setVec -/

section
variable (i : BitVec 5) (v : BitVec 512)

@[simp] theorem setVec_mode : (setVec i v s).mode = s.mode := rfl
@[simp] theorem setVec_pc : (setVec i v s).pc = s.pc := rfl
@[simp] theorem setVec_gpr : (setVec i v s).gpr = s.gpr := rfl
@[simp] theorem setVec_mm : (setVec i v s).mm = s.mm := rfl
@[simp] theorem setVec_fpHigh : (setVec i v s).fpHigh = s.fpHigh := rfl
@[simp] theorem setVec_fsw : (setVec i v s).fsw = s.fsw := rfl
@[simp] theorem setVec_ftw : (setVec i v s).ftw = s.ftw := rfl
@[simp] theorem setVec_vec : (setVec i v s).vec = s.vec.set i.toNat v i.isLt := rfl
@[simp] theorem setVec_k : (setVec i v s).k = s.k := rfl
@[simp] theorem setVec_eflags : (setVec i v s).eflags = s.eflags := rfl
@[simp] theorem setVec_mxcsr : (setVec i v s).mxcsr = s.mxcsr := rfl
@[simp] theorem setVec_cr0 : (setVec i v s).cr0 = s.cr0 := rfl
@[simp] theorem setVec_cr4 : (setVec i v s).cr4 = s.cr4 := rfl
@[simp] theorem setVec_xcr0 : (setVec i v s).xcr0 = s.xcr0 := rfl
@[simp] theorem setVec_cpl : (setVec i v s).cpl = s.cpl := rfl
@[simp] theorem setVec_fsBase : (setVec i v s).fsBase = s.fsBase := rfl
@[simp] theorem setVec_gsBase : (setVec i v s).gsBase = s.gsBase := rfl
@[simp] theorem setVec_cpu : (setVec i v s).cpu = s.cpu := rfl
@[simp] theorem setVec_code : (setVec i v s).code = s.code := rfl
@[simp] theorem setVec_access : (setVec i v s).access = s.access := rfl
@[simp] theorem setVec_mem : (setVec i v s).mem = s.mem := rfl
end

/-! ## writeK -/

section
variable (i : BitVec 3) (v : BitVec 64)

@[simp] theorem writeK_mode : (writeK i v s).mode = s.mode := rfl
@[simp] theorem writeK_pc : (writeK i v s).pc = s.pc := rfl
@[simp] theorem writeK_gpr : (writeK i v s).gpr = s.gpr := rfl
@[simp] theorem writeK_mm : (writeK i v s).mm = s.mm := rfl
@[simp] theorem writeK_fpHigh : (writeK i v s).fpHigh = s.fpHigh := rfl
@[simp] theorem writeK_fsw : (writeK i v s).fsw = s.fsw := rfl
@[simp] theorem writeK_ftw : (writeK i v s).ftw = s.ftw := rfl
@[simp] theorem writeK_vec : (writeK i v s).vec = s.vec := rfl
@[simp] theorem writeK_k : (writeK i v s).k = s.k.set i.toNat ((v.setWidth s.cpu.maxKl.bits).setWidth 64) i.isLt := rfl
@[simp] theorem writeK_eflags : (writeK i v s).eflags = s.eflags := rfl
@[simp] theorem writeK_mxcsr : (writeK i v s).mxcsr = s.mxcsr := rfl
@[simp] theorem writeK_cr0 : (writeK i v s).cr0 = s.cr0 := rfl
@[simp] theorem writeK_cr4 : (writeK i v s).cr4 = s.cr4 := rfl
@[simp] theorem writeK_xcr0 : (writeK i v s).xcr0 = s.xcr0 := rfl
@[simp] theorem writeK_cpl : (writeK i v s).cpl = s.cpl := rfl
@[simp] theorem writeK_fsBase : (writeK i v s).fsBase = s.fsBase := rfl
@[simp] theorem writeK_gsBase : (writeK i v s).gsBase = s.gsBase := rfl
@[simp] theorem writeK_cpu : (writeK i v s).cpu = s.cpu := rfl
@[simp] theorem writeK_code : (writeK i v s).code = s.code := rfl
@[simp] theorem writeK_access : (writeK i v s).access = s.access := rfl
@[simp] theorem writeK_mem : (writeK i v s).mem = s.mem := rfl
end

/-! ## Register reads -/

@[simp] theorem gprVal_setPc (v : Addr) (i : BitVec 4) : gprVal i (setPc v s) = gprVal i s := rfl
@[simp] theorem mmVal_setPc (v : Addr) (i : BitVec 3) : mmVal i (setPc v s) = mmVal i s := rfl
@[simp] theorem vecVal_setPc (v : Addr) (i : BitVec 5) : vecVal i (setPc v s) = vecVal i s := rfl
@[simp] theorem kVal_setPc (v : Addr) (i : BitVec 3) : kVal i (setPc v s) = kVal i s := rfl

theorem mmVal_writeMm (i j : BitVec 3) (v : BitVec 64) :
    mmVal j (writeMm i v s) = if i = j then v else mmVal j s := by
  by_cases h : i = j
  · subst h; simp [mmVal, writeMm, Vector.get_eq_getElem]
  · have hn : i.toNat ≠ j.toNat := fun e => h (BitVec.eq_of_toNat_eq e)
    simp [mmVal, writeMm, Vector.get_eq_getElem, hn, h]

@[simp] theorem mmVal_writeMm_same (i : BitVec 3) (v : BitVec 64) : mmVal i (writeMm i v s) = v := by
  simp [mmVal_writeMm]

theorem vecVal_setVec (i j : BitVec 5) (v : BitVec 512) :
    vecVal j (setVec i v s) = if i = j then v else vecVal j s := by
  by_cases h : i = j
  · subst h; simp [vecVal, setVec, Vector.get_eq_getElem]
  · have hn : i.toNat ≠ j.toNat := fun e => h (BitVec.eq_of_toNat_eq e)
    simp [vecVal, setVec, Vector.get_eq_getElem, hn, h]

@[simp] theorem vecVal_setVec_same (i : BitVec 5) (v : BitVec 512) : vecVal i (setVec i v s) = v := by
  simp [vecVal_setVec]

theorem kVal_writeK (i j : BitVec 3) (v : BitVec 64) :
    kVal j (writeK i v s) = if i = j then (v.setWidth s.cpu.maxKl.bits).setWidth 64 else kVal j s := by
  by_cases h : i = j
  · subst h; simp [kVal, writeK, Vector.get_eq_getElem]
  · have hn : i.toNat ≠ j.toNat := fun e => h (BitVec.eq_of_toNat_eq e)
    simp [kVal, writeK, Vector.get_eq_getElem, hn, h]

end Sys2Proof.Machine
end

