-- ==== Sys2Proof/Laws/Ops.lean ====
section
/-! SUPPORT. For each shared operation, when it answers a next value and which: the model's checks against the premises
of Safety. -/

set_option Elab.async false

namespace Sys2Proof.Machine

variable {α β : Type}

/-! ## Sequencing -/

@[simp] theorem andThen_next (a : α) (f : α → Result β) : andThen (.next a) f = f a := rfl
@[simp] theorem andThen_fault (e : Fault) (f : α → Result β) : andThen (.fault e) f = .fault e := rfl
@[simp] theorem andThen_refused (r : Refusal) (f : α → Result β) : andThen (.refused r) f = .refused r := rfl
@[simp] theorem andThen_raise (e : Fault) (f : α → Result β) : andThen (raise e) f = .fault e := rfl

theorem andThen_eq_next_iff (r : Result α) (f : α → Result β) (b : β) :
    andThen r f = .next b ↔ ∃ a, r = .next a ∧ f a = .next b := by
  cases r <;> simp

/-! ## Addresses -/

theorem canonical_iff (va : VaBits) (a : Nat) : canonical va a = true ↔ IsCanonical va a := by
  cases va <;> simp [canonical, IsCanonical, VaBits.bits] <;> omega

theorem canonicalRange_iff (m : ExecMode) (va : VaBits) (la n : Nat) :
    canonicalRange m va la n = true ↔ (m = .m64 → ∀ i, i < n → IsCanonical va (la + i)) := by
  cases m <;> simp [canonicalRange, canonical_iff]

theorem accessible_iff (s : State) (la n : Nat) :
    accessible s.access la n = true ↔ ∀ i, i < n → ByteAccessible s (la + i) := by
  simp [accessible, Region.covers, ByteAccessible]

theorem pcFits_iff (m : ExecMode) (len : Nat) (s : State) : pcFits m len s = true ↔ PcRoom m len s := by
  simp [pcFits, PcRoom, canonicalRange_iff]

/-! ## The start of an instruction -/

theorem startInstr_eq_next_iff (len : Nat) (s : State) (m : ExecMode) :
    startInstr len s = .next m ↔ s.mode = .admitted m ∧ PcRoom m len s := by
  unfold startInstr
  split
  · rename_i m' hm
    rw [hm]
    by_cases h : pcFits m' len s = true
    · simp only [h, if_true, Host.Outcome.next.injEq, Mode.admitted.injEq]
      exact ⟨fun e => ⟨e, e ▸ (pcFits_iff m' len s).mp h⟩, fun e => e.1⟩
    · simp only [h, Bool.false_eq_true, if_false, reduceCtorEq, Mode.admitted.injEq, false_iff]
      rintro ⟨rfl, hr⟩
      exact h ((pcFits_iff m' len s).mpr hr)
  all_goals simp_all

/-! ## Checks -/

theorem checkUdNm_eq_next_iff (ok : Bool) (s : State) (u : Unit) :
    checkUdNm ok s = .next u ↔ ok = true ∧ s.cr0.getLsbD 3 = false := by
  cases ok <;> by_cases h : s.cr0.getLsbD 3 <;> simp [checkUdNm, raise, cr0Ts, h]

theorem checkMmx_eq_next_iff (s : State) (u : Unit) : checkMmx s = .next u ↔ MmxReady s := by
  rw [checkMmx, andThen_eq_next_iff]
  simp only [checkUdNm_eq_next_iff, mmxEnabled, cr0Em, fswEs, raise, MmxReady, Bool.and_eq_true, Bool.not_eq_true']
  constructor
  · rintro ⟨_, ⟨⟨h1, h2⟩, h3⟩, h4⟩
    exact ⟨h2, h1, h3, by cases h : s.fsw.getLsbD 7 <;> simp_all⟩
  · rintro ⟨h2, h1, h3, h4⟩
    exact ⟨(), ⟨⟨h1, h2⟩, h3⟩, if_neg (by rw [h4]; decide)⟩

theorem checkSse_eq_next_iff (s : State) (u : Unit) : checkSse s = .next u ↔ SseReady s := by
  rw [checkSse, checkUdNm_eq_next_iff]
  simp only [sseEnabled, cr0Em, cr4Osfxsr, SseReady, Bool.and_eq_true, Bool.not_eq_true']
  constructor
  · rintro ⟨⟨⟨h1, h2⟩, h3⟩, h4⟩; exact ⟨h3, h1, h4, h2⟩
  · rintro ⟨h3, h1, h4, h2⟩; exact ⟨⟨⟨h1, h2⟩, h3⟩, h4⟩

theorem xcr0Avx_iff (s : State) : xcr0Avx s = true ↔ s.xcr0.getLsbD 1 = true ∧ s.xcr0.getLsbD 2 = true := by
  have h : ∀ v : BitVec 2, (v == 3#2) = true ↔ v.getLsbD 0 = true ∧ v.getLsbD 1 = true := by decide
  simp [xcr0Avx, h]

theorem xcr0Avx512_iff (s : State) : xcr0Avx512 s = true ↔
    s.xcr0.getLsbD 5 = true ∧ s.xcr0.getLsbD 6 = true ∧ s.xcr0.getLsbD 7 = true := by
  have h : ∀ v : BitVec 3, (v == 7#3) = true ↔ v.getLsbD 0 = true ∧ v.getLsbD 1 = true ∧ v.getLsbD 2 = true := by
    decide
  simp [xcr0Avx512, h]

theorem checkVex_eq_next_iff (feature : Bool) (s : State) (u : Unit) :
    checkVex feature s = .next u ↔ feature = true ∧ VexReady s := by
  rw [checkVex, checkUdNm_eq_next_iff]
  simp only [vexEnabled, cr4Osxsave, VexReady, Bool.and_eq_true, xcr0Avx_iff]
  constructor
  · rintro ⟨⟨⟨h1, h2⟩, h3⟩, h4⟩; exact ⟨h3, h4, h1, h2⟩
  · rintro ⟨h3, h4, h1, h2⟩; exact ⟨⟨⟨h1, h2⟩, h3⟩, h4⟩

theorem checkEvex_eq_next_iff (feature : Bool) (s : State) (u : Unit) :
    checkEvex feature s = .next u ↔ feature = true ∧ EvexReady s := by
  rw [checkEvex, checkUdNm_eq_next_iff]
  simp only [evexEnabled, cr4Osxsave, EvexReady, VexReady, Bool.and_eq_true, xcr0Avx_iff, xcr0Avx512_iff]
  constructor
  · rintro ⟨⟨⟨⟨h1, h2⟩, h3⟩, h4⟩, h5⟩; exact ⟨h4, ⟨h5, h1, h3⟩, h2⟩
  · rintro ⟨h4, ⟨h5, h1, h3⟩, h2⟩; exact ⟨⟨⟨⟨h1, h2⟩, h3⟩, h4⟩, h5⟩

/-! ## Memory operands -/

theorem memRead_eq_next_iff (w al ac : Nat) (m : ExecMode) (seg : Seg) (ea : Addr) (s : State) (v : BitVec w) :
    memRead w al ac m seg ea s = .next v ↔
      Readable (w / 8) al ac m (linearAddr m seg ea s) s ∧ v = memValue s.mem (linearAddr m seg ea s) w := by
  simp only [memRead, raise, Readable, ← canonicalRange_iff, ← accessible_iff]
  generalize linearAddr m seg ea s = la
  generalize 2 ^ m.addrBits = top
  by_cases h1 : top < la + w / 8
  · simp [h1, Nat.not_le.mpr h1]
  by_cases h2 : canonicalRange m s.cpu.vaBits la (w / 8) = true
  swap
  · simp [h1, h2]
  by_cases h3 : la % al = 0
  swap
  · simp [h1, h2, h3]
  by_cases h4 : accessible s.access la (w / 8) = true
  swap
  · simp [h1, h2, h3, h4]
  by_cases h5 : acEnabled s = true ∧ la % ac ≠ 0
  · simp [h1, h2, h3, h4, h5]
  · rw [Classical.not_and_iff_not_or_not, Classical.not_not] at h5
    have h6 : acEnabled s = true → la % ac = 0 := fun h => h5.resolve_left (fun h' => h' h)
    have h7 : ¬ (acEnabled s = true ∧ la % ac ≠ 0) := fun h => h.2 (h6 h.1)
    simp only [h1, h2, h3, h4, h7, Nat.not_lt.mp h1, if_false, ne_eq, not_true_eq_false, Bool.true_eq_false,
      Host.Outcome.next.injEq, true_and]
    exact ⟨fun e => ⟨h6, e.symm⟩, fun e => e.2.symm⟩

theorem memOperand_eq_next_iff (w : Nat) (f : MemForm) (m : ExecMode) (next : Addr) (a : MemRef) (s : State)
    (v : BitVec w) : memOperand w f m next a s = .next v ↔ MemOperandIs w f m next a s v := by
  unfold memOperand MemOperandIs OperandAt
  cases h : addrSize m f.pfx with
  | none => simp
  | some size =>
    simp only [memRead_eq_next_iff, Option.some.injEq]
    constructor
    · rintro ⟨hr, hv⟩
      exact ⟨_, ⟨size, rfl, rfl⟩, hr, hv⟩
    · rintro ⟨la, ⟨_, rfl, rfl⟩, hr, hv⟩
      exact ⟨hr, hv⟩

end Sys2Proof.Machine
end

