-- ==== Sys2Proof/Laws/Forms.lean ====
section
/-! SUPPORT. Inversion: when the shared form of each class answers a next state, and which. Claims cite these and never
unfold a meaning. -/

set_option Elab.async false

namespace Sys2Proof.Machine

/-! ## The constructors of a class call its form -/

theorem exec_mmxInstr (el : Elem) (e : LegacyEnc) (s : State) :
    exec (mmxInstr el e) s = mmxForm (elemBits el) e s := by cases el <;> rfl

theorem exec_xmmInstr (el : Elem) (e : LegacyEnc) (s : State) :
    exec (xmmInstr el e) s = xmmForm (elemBits el) e s := by cases el <;> rfl

/-- The compare of a VEX form. -/
def vexCmp (wide : Bool) (esz : Nat) : BitVec (vexBits wide) → BitVec (vexBits wide) → BitVec (vexBits wide) :=
  match wide with
  | false => cmpEq 128 esz
  | true => cmpEq256 esz

/-- The feature of a VEX form. -/
def vexFeat (wide : Bool) (s : State) : Bool := if wide then featVex256 s else featVex128 s

theorem exec_vexInstr (wide : Bool) (el : Elem) (e : VexEnc) (s : State) :
    exec (vexInstr wide el e) s = vexForm (vexBits wide) (vexCmp wide (elemBits el)) (vexFeat wide s) e s := by
  cases wide <;> cases el <;> rfl

/-- The feature expression of an EVEX form. -/
def evexFeat (vl : VecLen) (el : Elem) (s : State) : Bool :=
  match vl, el with
  | .v512, .dword => featEvexD512 s
  | .v512, _ => featEvexBW512 s
  | _, .dword => featEvexDVl s
  | _, _ => featEvexBWVl s

/-- The second source of an EVEX form. -/
def evexSource (vl : VecLen) (el : Elem) : ExecMode → EvexEnc → State → Result (Src2 (vecBits vl)) :=
  match el with
  | .dword => evexSourceD (vecBits vl)
  | _ => evexSourceBW (vecBits vl)

theorem exec_evexInstr (vl : VecLen) (el : Elem) (e : EvexEnc) (s : State) :
    exec (evexInstr vl el e) s =
      evexForm (elemBits el) (vecBits vl) (evexFeat vl el s) (evexSource vl el) e s := by
  cases vl <;> cases el <;> rfl

theorem vexFeat_iff (wide : Bool) (s : State) : vexFeat wide s = true ↔ VexFeature wide s := by
  cases wide <;> simp [vexFeat, VexFeature, featVex128, featVex256]

theorem evexFeat_iff (vl : VecLen) (el : Elem) (s : State) : evexFeat vl el s = true ↔ EvexFeature vl el s := by
  cases vl <;> cases el <;>
    simp [evexFeat, EvexFeature, featEvexD512, featEvexBW512, featEvexDVl, featEvexBWVl, or_comm]

/-! ## Sources -/

theorem mmxSource_eq_next_iff (m : ExecMode) (e : LegacyEnc) (s : State) (v : BitVec 64) :
    mmxSource m e s = .next v ↔
      MmxSourceIs m e s v := by
  unfold mmxSource MmxSourceIs SourceIs
  cases e.rm with
  | reg r => simp only [Host.Outcome.next.injEq]; exact eq_comm
  | mem a => exact memOperand_eq_next_iff ..

theorem xmmSource_eq_next_iff (m : ExecMode) (e : LegacyEnc) (s : State) (v : BitVec 128) :
    xmmSource m e s = .next v ↔
      XmmSourceIs m e s v := by
  unfold xmmSource XmmSourceIs SourceIs
  cases e.rm with
  | reg r => simp only [Host.Outcome.next.injEq]; exact eq_comm
  | mem a => exact memOperand_eq_next_iff ..

theorem vexSource_eq_next_iff (w : Nat) (m : ExecMode) (e : VexEnc) (s : State) (v : BitVec w) :
    vexSource w m e s = .next v ↔
      VexSourceIs w m e s v := by
  unfold vexSource VexSourceIs SourceIs
  cases e.rm with
  | reg r => simp only [Host.Outcome.next.injEq]; exact eq_comm
  | mem a => exact memOperand_eq_next_iff ..

theorem evexSourceBW_eq_next_iff (vl : Nat) (m : ExecMode) (e : EvexEnc) (s : State) (s2 : Src2 vl) :
    evexSourceBW vl m e s = .next s2 ↔ ∃ v, s2 = .full v ∧ EvexSourceIs vl m e s v := by
  unfold evexSourceBW EvexSourceIs SourceIs
  cases e.rm with
  | reg r =>
    simp only [Host.Outcome.next.injEq]
    exact ⟨fun h => ⟨_, h.symm, rfl⟩, fun ⟨_, h, hv⟩ => by rw [h, hv]⟩
  | mem a =>
    simp only [andThen_eq_next_iff, memOperand_eq_next_iff, Host.Outcome.next.injEq]
    exact ⟨fun ⟨v, hv, h⟩ => ⟨v, h.symm, hv⟩, fun ⟨v, h, hv⟩ => ⟨v, hv, h.symm⟩⟩

theorem evexSourceD_eq_next_iff (vl : Nat) (m : ExecMode) (e : EvexEnc) (s : State) (s2 : Src2 vl) :
    evexSourceD vl m e s = .next s2 ↔
      (∃ v, s2 = .full v ∧ (e.bcst = false ∨ e.rm.isReg = true) ∧ EvexSourceIs vl m e s v) ∨
      (∃ v, s2 = .bcst v ∧ e.bcst = true ∧ BcstSourceIs m e s v) := by
  unfold evexSourceD EvexSourceIs SourceIs BcstSourceIs
  cases e.rm with
  | reg r =>
    simp only [Host.Outcome.next.injEq, RegMem.isReg, or_true, true_and, reduceCtorEq, false_and, exists_false,
      and_false, or_false]
    exact ⟨fun h => ⟨_, h.symm, rfl⟩, fun ⟨_, h, hv⟩ => by rw [h, hv]⟩
  | mem a =>
    cases e.bcst <;>
      simp only [andThen_eq_next_iff, memOperand_eq_next_iff, Host.Outcome.next.injEq, RegMem.isReg, reduceCtorEq,
        Bool.false_eq_true, if_false, if_true, or_false, false_and, and_false, exists_false, true_and,
        false_or, RegMem.mem.injEq, exists_eq_left']
    · exact ⟨fun ⟨v, hv, h⟩ => ⟨v, h.symm, hv⟩, fun ⟨v, h, hv⟩ => ⟨v, hv, h.symm⟩⟩
    · exact ⟨fun ⟨v, hv, h⟩ => ⟨v, h.symm, hv⟩, fun ⟨v, h, hv⟩ => ⟨v, hv, h.symm⟩⟩

/-! ## Forms -/

theorem mmxForm_eq_next_iff (esz : Nat) (e : LegacyEnc) (s t : State) :
    mmxForm esz e s = .next t ↔
      ∃ m src, s.mode = .admitted m ∧ PcRoom m e.len s ∧ MmxReady s ∧
        MmxSourceIs m e s src ∧
        t = advance e.len (writeMm e.reg (cmpEq 64 esz (mmVal e.reg s) src) s) := by
  simp only [mmxForm, andThen_eq_next_iff, startInstr_eq_next_iff, checkMmx_eq_next_iff, mmxSource_eq_next_iff,
    Host.Outcome.next.injEq]
  constructor
  · rintro ⟨m, ⟨hm, hp⟩, _, hr, src, hs, rfl⟩
    exact ⟨m, src, hm, hp, hr, hs, rfl⟩
  · rintro ⟨m, src, hm, hp, hr, hs, rfl⟩
    exact ⟨m, ⟨hm, hp⟩, (), hr, src, hs, rfl⟩

theorem xmmForm_eq_next_iff (esz : Nat) (e : LegacyEnc) (s t : State) :
    xmmForm esz e s = .next t ↔
      ∃ m src, s.mode = .admitted m ∧ PcRoom m e.len s ∧ SseReady s ∧
        XmmSourceIs m e s src ∧
        t = advance e.len (writeXmm (vecNum4 e.r e.reg)
          (cmpEq 128 esz ((vecVal (vecNum4 e.r e.reg) s).extractLsb' 0 128) src) s) := by
  simp only [xmmForm, andThen_eq_next_iff, startInstr_eq_next_iff, checkSse_eq_next_iff, xmmSource_eq_next_iff,
    Host.Outcome.next.injEq]
  constructor
  · rintro ⟨m, ⟨hm, hp⟩, _, hr, src, hs, rfl⟩
    exact ⟨m, src, hm, hp, hr, hs, rfl⟩
  · rintro ⟨m, src, hm, hp, hr, hs, rfl⟩
    exact ⟨m, ⟨hm, hp⟩, (), hr, src, hs, rfl⟩

theorem vexForm_eq_next_iff (w : Nat) (cmp : BitVec w → BitVec w → BitVec w) (feature : Bool) (e : VexEnc)
    (s t : State) :
    vexForm w cmp feature e s = .next t ↔
      ∃ m s2, s.mode = .admitted m ∧ PcRoom m e.len s ∧ feature = true ∧ VexReady s ∧
        VexSourceIs w m e s s2 ∧
        t = advance e.len (writeVecZext (vecNum4 e.head.r e.reg) (cmp (vexSource1 w e s) s2) s) := by
  simp only [vexForm, andThen_eq_next_iff, startInstr_eq_next_iff, checkVex_eq_next_iff, vexSource_eq_next_iff,
    Host.Outcome.next.injEq]
  constructor
  · rintro ⟨m, ⟨hm, hp⟩, _, ⟨hf, hr⟩, src, hs, rfl⟩
    exact ⟨m, src, hm, hp, hf, hr, hs, rfl⟩
  · rintro ⟨m, src, hm, hp, hf, hr, hs, rfl⟩
    exact ⟨m, ⟨hm, hp⟩, (), ⟨hf, hr⟩, src, hs, rfl⟩

theorem evexForm_eq_next_iff (esz vl : Nat) (feature : Bool)
    (source : ExecMode → EvexEnc → State → Result (Src2 vl)) (e : EvexEnc) (s t : State) :
    evexForm esz vl feature source e s = .next t ↔
      ∃ m s2, s.mode = .admitted m ∧ PcRoom m e.len s ∧ feature = true ∧ EvexReady s ∧ source m e s = .next s2 ∧
        t = advance e.len (writeK e.reg (evexCmpEq esz vl (evexSource1 vl e s) s2 (writemask e s)) s) := by
  simp only [evexForm, andThen_eq_next_iff, startInstr_eq_next_iff, checkEvex_eq_next_iff, Host.Outcome.next.injEq]
  constructor
  · rintro ⟨m, ⟨hm, hp⟩, _, ⟨hf, hr⟩, src, hs, rfl⟩
    exact ⟨m, src, hm, hp, hf, hr, hs, rfl⟩
  · rintro ⟨m, src, hm, hp, hf, hr, hs, rfl⟩
    exact ⟨m, ⟨hm, hp⟩, (), ⟨hf, hr⟩, src, hs, rfl⟩

end Sys2Proof.Machine
end

