-- ==== Sys2Proof/Laws/Classes.lean ====
section
/-! SUPPORT. The four classes of instructions (MMX, legacy SSE, VEX, EVEX): each instruction is one of a class, what it
is to be in the list of a class, its length, and how an instruction starts and ends. -/

set_option Elab.async false

namespace Sys2Proof.Machine

/-! ## Membership -/

theorem exists_class (i : Instr) : (∃ el e, i = mmxInstr el e) ∨ (∃ el e, i = xmmInstr el e) ∨
    (∃ wide el e, i = vexInstr wide el e) ∨ (∃ vl el e, i = evexInstr vl el e) := by
  cases i with
  | pcmpeqbMmx e => exact .inl ⟨.byte, e, rfl⟩
  | pcmpeqwMmx e => exact .inl ⟨.word, e, rfl⟩
  | pcmpeqdMmx e => exact .inl ⟨.dword, e, rfl⟩
  | pcmpeqbXmm e => exact .inr (.inl ⟨.byte, e, rfl⟩)
  | pcmpeqwXmm e => exact .inr (.inl ⟨.word, e, rfl⟩)
  | pcmpeqdXmm e => exact .inr (.inl ⟨.dword, e, rfl⟩)
  | vpcmpeqbVex128 e => exact .inr (.inr (.inl ⟨false, .byte, e, rfl⟩))
  | vpcmpeqwVex128 e => exact .inr (.inr (.inl ⟨false, .word, e, rfl⟩))
  | vpcmpeqdVex128 e => exact .inr (.inr (.inl ⟨false, .dword, e, rfl⟩))
  | vpcmpeqbVex256 e => exact .inr (.inr (.inl ⟨true, .byte, e, rfl⟩))
  | vpcmpeqwVex256 e => exact .inr (.inr (.inl ⟨true, .word, e, rfl⟩))
  | vpcmpeqdVex256 e => exact .inr (.inr (.inl ⟨true, .dword, e, rfl⟩))
  | vpcmpeqdEvex128 e => exact .inr (.inr (.inr ⟨.v128, .dword, e, rfl⟩))
  | vpcmpeqdEvex256 e => exact .inr (.inr (.inr ⟨.v256, .dword, e, rfl⟩))
  | vpcmpeqdEvex512 e => exact .inr (.inr (.inr ⟨.v512, .dword, e, rfl⟩))
  | vpcmpeqbEvex128 e => exact .inr (.inr (.inr ⟨.v128, .byte, e, rfl⟩))
  | vpcmpeqbEvex256 e => exact .inr (.inr (.inr ⟨.v256, .byte, e, rfl⟩))
  | vpcmpeqbEvex512 e => exact .inr (.inr (.inr ⟨.v512, .byte, e, rfl⟩))
  | vpcmpeqwEvex128 e => exact .inr (.inr (.inr ⟨.v128, .word, e, rfl⟩))
  | vpcmpeqwEvex256 e => exact .inr (.inr (.inr ⟨.v256, .word, e, rfl⟩))
  | vpcmpeqwEvex512 e => exact .inr (.inr (.inr ⟨.v512, .word, e, rfl⟩))

variable {i : Instr}

/-- The element widths in the order claims list them. -/
def elems : List Elem := [.byte, .word, .dword]

/-- The VEX forms in the order claims list them. -/
def vexKinds : List (Bool × Elem) := elems.map (Prod.mk false) ++ elems.map (Prod.mk true)

/-- The EVEX forms in the order of R68. -/
def evexKinds : List (VecLen × Elem) :=
  [Elem.dword, .byte, .word].flatMap fun el => [VecLen.v128, .v256, .v512].map fun vl => (vl, el)

theorem eq_mmxInstr_of_mem {e : LegacyEnc} {el : Elem} (h : (el, i) ∈ [(Elem.byte, Instr.pcmpeqbMmx e),
    (.word, .pcmpeqwMmx e), (.dword, .pcmpeqdMmx e)]) : i = mmxInstr el e := by
  obtain ⟨_, -, hx⟩ := List.mem_map.mp (show _ ∈ elems.map fun el => (el, mmxInstr el e) from h)
  cases hx; rfl

theorem exists_mmxInstr_of_mem {e : LegacyEnc} (h : i ∈ [Instr.pcmpeqbMmx e, .pcmpeqwMmx e, .pcmpeqdMmx e]) :
    ∃ el, i = mmxInstr el e := by
  obtain ⟨el, -, hx⟩ := List.mem_map.mp (show i ∈ elems.map fun el => mmxInstr el e from h)
  exact ⟨el, hx.symm⟩

theorem eq_xmmInstr_of_mem {e : LegacyEnc} {el : Elem} (h : (el, i) ∈ [(Elem.byte, Instr.pcmpeqbXmm e),
    (.word, .pcmpeqwXmm e), (.dword, .pcmpeqdXmm e)]) : i = xmmInstr el e := by
  obtain ⟨_, -, hx⟩ := List.mem_map.mp (show _ ∈ elems.map fun el => (el, xmmInstr el e) from h)
  cases hx; rfl

theorem exists_xmmInstr_of_mem {e : LegacyEnc} (h : i ∈ [Instr.pcmpeqbXmm e, .pcmpeqwXmm e, .pcmpeqdXmm e]) :
    ∃ el, i = xmmInstr el e := by
  obtain ⟨el, -, hx⟩ := List.mem_map.mp (show i ∈ elems.map fun el => xmmInstr el e from h)
  exact ⟨el, hx.symm⟩

theorem eq_vexInstr_of_mem {e : VexEnc} {wide : Bool} {el : Elem}
    (h : (wide, el, i) ∈ [(false, Elem.byte, Instr.vpcmpeqbVex128 e), (false, .word, .vpcmpeqwVex128 e),
      (false, .dword, .vpcmpeqdVex128 e), (true, .byte, .vpcmpeqbVex256 e), (true, .word, .vpcmpeqwVex256 e),
      (true, .dword, .vpcmpeqdVex256 e)]) : i = vexInstr wide el e := by
  obtain ⟨_, -, hx⟩ := List.mem_map.mp (show _ ∈ vexKinds.map fun k => (k.1, k.2, vexInstr k.1 k.2 e) from h)
  cases hx; rfl

theorem exists_vexInstr_of_mem_wide {e : VexEnc} {wide : Bool}
    (h : (wide, i) ∈ [(false, Instr.vpcmpeqbVex128 e), (false, .vpcmpeqwVex128 e), (false, .vpcmpeqdVex128 e),
      (true, .vpcmpeqbVex256 e), (true, .vpcmpeqwVex256 e), (true, .vpcmpeqdVex256 e)]) :
    ∃ el, i = vexInstr wide el e := by
  obtain ⟨k, -, hx⟩ := List.mem_map.mp (show _ ∈ vexKinds.map fun k => (k.1, vexInstr k.1 k.2 e) from h)
  cases hx; exact ⟨k.2, rfl⟩

theorem exists_vexInstr_of_mem {e : VexEnc} (h : i ∈ [Instr.vpcmpeqbVex128 e, .vpcmpeqwVex128 e, .vpcmpeqdVex128 e,
    .vpcmpeqbVex256 e, .vpcmpeqwVex256 e, .vpcmpeqdVex256 e]) : ∃ wide el, i = vexInstr wide el e := by
  obtain ⟨k, -, hx⟩ := List.mem_map.mp (show i ∈ vexKinds.map fun k => vexInstr k.1 k.2 e from h)
  exact ⟨k.1, k.2, hx.symm⟩

theorem eq_evexInstr_of_mem {e : EvexEnc} {vl : VecLen} {el : Elem}
    (h : (vl, el, i) ∈ [(VecLen.v128, Elem.dword, Instr.vpcmpeqdEvex128 e), (.v256, .dword, .vpcmpeqdEvex256 e),
      (.v512, .dword, .vpcmpeqdEvex512 e), (.v128, .byte, .vpcmpeqbEvex128 e), (.v256, .byte, .vpcmpeqbEvex256 e),
      (.v512, .byte, .vpcmpeqbEvex512 e), (.v128, .word, .vpcmpeqwEvex128 e), (.v256, .word, .vpcmpeqwEvex256 e),
      (.v512, .word, .vpcmpeqwEvex512 e)]) : i = evexInstr vl el e := by
  obtain ⟨_, -, hx⟩ := List.mem_map.mp (show _ ∈ evexKinds.map fun k => (k.1, k.2, evexInstr k.1 k.2 e) from h)
  cases hx; rfl

theorem exists_evexInstr_of_mem {e : EvexEnc} (h : i ∈ [Instr.vpcmpeqdEvex128 e, .vpcmpeqdEvex256 e,
    .vpcmpeqdEvex512 e, .vpcmpeqbEvex128 e, .vpcmpeqbEvex256 e, .vpcmpeqbEvex512 e, .vpcmpeqwEvex128 e,
    .vpcmpeqwEvex256 e, .vpcmpeqwEvex512 e]) : ∃ vl el, i = evexInstr vl el e := by
  obtain ⟨k, -, hx⟩ := List.mem_map.mp (show i ∈ evexKinds.map fun k => evexInstr k.1 k.2 e from h)
  exact ⟨k.1, k.2, hx.symm⟩

/-! ## Bytes and lengths -/

@[simp] theorem encode_mmxInstr (el : Elem) (e : LegacyEnc) : encode (mmxInstr el e) = encodeLegacy el e := by
  cases el <;> rfl
@[simp] theorem encode_xmmInstr (el : Elem) (e : LegacyEnc) : encode (xmmInstr el e) = encodeLegacy el e := by
  cases el <;> rfl
@[simp] theorem encode_vexInstr (l : Bool) (el : Elem) (e : VexEnc) : encode (vexInstr l el e) = encodeVex l el e := by
  cases l <;> cases el <;> rfl
@[simp] theorem encode_evexInstr (vl : VecLen) (el : Elem) (e : EvexEnc) :
    encode (evexInstr vl el e) = encodeEvex vl el e := by
  cases vl <;> cases el <;> rfl

theorem length_encode_mmxInstr (el : Elem) (e : LegacyEnc) : (encode (mmxInstr el e)).length = e.len := by
  rw [encode_mmxInstr, length_encodeLegacy]
theorem length_encode_xmmInstr (el : Elem) (e : LegacyEnc) : (encode (xmmInstr el e)).length = e.len := by
  rw [encode_xmmInstr, length_encodeLegacy]
theorem length_encode_vexInstr (l : Bool) (el : Elem) (e : VexEnc) : (encode (vexInstr l el e)).length = e.len := by
  rw [encode_vexInstr, length_encodeVex]
theorem length_encode_evexInstr (vl : VecLen) (el : Elem) (e : EvexEnc) :
    (encode (evexInstr vl el e)).length = e.len := by
  rw [encode_evexInstr, length_encodeEvex]

/-! ## Start and end of an instruction -/

theorem startInstr_of_room {len : Nat} {s : State} {m : ExecMode} (hm : s.mode = .admitted m) (h : PcRoom m len s) :
    startInstr len s = .next m :=
  (startInstr_eq_next_iff len s m).mpr ⟨hm, h⟩

theorem startInstr_of_no_room {len : Nat} {s : State} {m : ExecMode} (hm : s.mode = .admitted m)
    (h : ¬ PcRoom m len s) : startInstr len s = .refused .pcWrap := by
  unfold startInstr
  rw [hm]
  simp [mt (pcFits_iff m len s).mp h]

theorem startInstr_of_other_mode {len : Nat} {s : State} (h : ∀ m, s.mode ≠ .admitted m) :
    startInstr len s = .refused .mode := by
  unfold startInstr
  cases hm : s.mode <;> simp_all

/-- The start of an instruction raises no exception. -/
theorem startInstr_ne_fault (len : Nat) (s : State) (e : Fault) : startInstr len s ≠ .fault e := by
  unfold startInstr
  cases s.mode <;> simp
  split <;> simp

/-- Inside the address space the next pc does not wrap. -/
theorem toNat_pcNext {m : ExecMode} {len : Nat} {s : State} (h : PcRoom m len s) :
    (pcNext len s).toNat = s.pc.toNat + len := by
  have h1 := h.1
  have : 2 ^ m.addrBits ≤ 2 ^ 64 := by cases m <;> decide
  unfold pcNext
  rw [BitVec.toNat_add, BitVec.toNat_ofNat, Nat.add_mod_mod, Nat.mod_eq_of_lt (by omega)]

/-- A form that completes started in an admitted mode with room for it, and its last act was to move the pc. -/
theorem exec_next_pc {i : Instr} {s t : State} (h : exec i s = .next t) : ∃ m, s.mode = .admitted m ∧
    PcRoom m (encode i).length s ∧ t.pc = pcNext (encode i).length s := by
  rcases exists_class i with ⟨el, e, rfl⟩ | ⟨el, e, rfl⟩ | ⟨w, el, e, rfl⟩ | ⟨vl, el, e, rfl⟩
  · rw [exec_mmxInstr, mmxForm_eq_next_iff] at h
    obtain ⟨m, src, hm, hp, -, -, rfl⟩ := h
    rw [length_encode_mmxInstr]; exact ⟨m, hm, hp, rfl⟩
  · rw [exec_xmmInstr, xmmForm_eq_next_iff] at h
    obtain ⟨m, src, hm, hp, -, -, rfl⟩ := h
    rw [length_encode_xmmInstr]; exact ⟨m, hm, hp, rfl⟩
  · rw [exec_vexInstr, vexForm_eq_next_iff] at h
    obtain ⟨m, src, hm, hp, -, -, -, rfl⟩ := h
    rw [length_encode_vexInstr]; exact ⟨m, hm, hp, rfl⟩
  · rw [exec_evexInstr, evexForm_eq_next_iff] at h
    obtain ⟨m, src, hm, hp, -, -, -, rfl⟩ := h
    rw [length_encode_evexInstr]; exact ⟨m, hm, hp, rfl⟩

/-! ## What the checks can raise -/

theorem andThen_eq_fault_iff {α β : Type} (r : Result α) (f : α → Result β) (e : Fault) :
    andThen r f = .fault e ↔ r = .fault e ∨ ∃ a, r = .next a ∧ f a = .fault e := by
  cases r <;> simp

theorem checkUdNm_fault {ok : Bool} {s : State} {e : Fault} (h : checkUdNm ok s = .fault e) : e = .ud ∨ e = .nm := by
  unfold checkUdNm raise at h
  split at h
  · cases h; simp
  · split at h
    · cases h; simp
    · cases h

theorem checkMmx_fault {s : State} {e : Fault} (h : checkMmx s = .fault e) : e = .ud ∨ e = .nm ∨ e = .mf := by
  rw [checkMmx, andThen_eq_fault_iff] at h
  rcases h with h | ⟨_, _, h⟩
  · rcases checkUdNm_fault h with h | h <;> simp [h]
  · unfold raise at h
    split at h
    · cases h; simp
    · cases h

end Sys2Proof.Machine
end

