-- ==== Sys2Proof/Laws/Extends.lean ====
section
/-! SUPPORT. Bytes behind the ones a reader took change nothing: the decoder answers the same on a longer byte string,
unless it had run out of bytes. So a proper beginning of an instruction's bytes is never an instruction, and is refused
only for want of bytes. -/

set_option Elab.async false

namespace Sys2Proof

/-- Bytes put behind the rest of a reader's answer. -/
def behind {α : Type} (x : List Byte) (p : α × List Byte) : α × List Byte := (p.1, p.2 ++ x)

/-- The same for a reader that answers two values. -/
def behind₂ {α β : Type} (x : List Byte) (p : α × β × List Byte) : α × β × List Byte := (p.1, p.2.1, p.2.2 ++ x)

/-- A reader whose answer stays as it is when bytes are added, unless it ended for want of bytes. -/
def Extends {τ : Type} (add : List Byte → τ → τ) (f : List Byte → Except DecodeError τ) : Prop :=
  ∀ bs x, f bs ≠ .error .truncated → f (bs ++ x) = (f bs).map (add x)

variable {τ υ : Type} {add : List Byte → τ → τ} {add' : List Byte → υ → υ}

theorem Extends.bind {f : List Byte → Except DecodeError τ} {g : τ → Except DecodeError υ} (hf : Extends add f)
    (hg : ∀ p x, g p ≠ .error .truncated → g (add x p) = (g p).map (add' x)) : Extends add' fun bs => f bs >>= g := by
  intro bs x h
  cases hb : f bs with
  | error e =>
    have he : e ≠ .truncated := by
      rintro rfl
      exact h (by simp only [hb]; rfl)
    simp only [hf bs x (by rw [hb]; simpa using he), hb]
    rfl
  | ok p =>
    simp only [hb, except_bind_ok] at h
    simp only [hf bs x (by rw [hb]; simp), hb]
    exact hg p x h

theorem Extends.error (e : DecodeError) : Extends add fun _ => .error e := fun _ _ _ => rfl

theorem Extends.ok {α : Type} (a : α) : Extends behind fun bs => .ok (a, bs) := fun _ _ _ => rfl

theorem Extends.ite {c : Prop} [Decidable c] {f g : List Byte → Except DecodeError τ} (hf : Extends add f)
    (hg : Extends add g) : Extends add fun bs => if c then f bs else g bs := by
  by_cases h : c
  · simpa only [h, if_true] using hf
  · simpa only [h, if_false] using hg

/-- Taking the next byte. -/
theorem Extends.byte {f : List Byte → Except DecodeError τ} {g : Byte → List Byte → Except DecodeError τ}
    (h0 : f [] = .error .truncated) (h1 : ∀ b bs, f (b :: bs) = g b bs) (hg : ∀ b, Extends add (g b)) :
    Extends add f := by
  intro bs x h
  cases bs with
  | nil => exact absurd h0 h
  | cons b bs => rw [h1] at h; rw [List.cons_append, h1, h1]; exact hg b bs x h

/-! ## Operands -/

theorem extends_readDisp32 : Extends behind readDisp32 := by
  intro bs x h
  match bs with
  | [] | [_] | [_, _] | [_, _, _] => exact absurd rfl h
  | _ :: _ :: _ :: _ :: _ => rfl

theorem extends_readDisp (md : BitVec 2) : Extends behind (readDisp md) := by
  unfold readDisp
  refine .ite (.byte rfl (fun _ _ => rfl) fun b => .ok (Disp.d8 b)) (.ite ?_ (.ok _))
  exact extends_readDisp32.bind fun _ _ _ => rfl

theorem extends_readSib (md : BitVec 2) : Extends behind (readSib md) := by
  refine .byte rfl (fun _ _ => rfl) fun b => .ite ?_ ?_
  · exact extends_readDisp32.bind fun _ _ _ => rfl
  · exact (extends_readDisp md).bind fun _ _ _ => rfl

theorem extends_readRm (md : BitVec 2) (rm : BitVec 3) : Extends behind (readRm md rm) := by
  unfold readRm
  refine .ite (.ok _) (.ite ?_ (.ite ?_ ?_))
  · exact (extends_readSib md).bind fun _ _ _ => rfl
  · exact extends_readDisp32.bind fun _ _ _ => rfl
  · exact (extends_readDisp md).bind fun _ _ _ => rfl

theorem extends_readModRm (m : ExecMode) (ps : List Pfx) : Extends behind₂ (readModRm m ps) := by
  refine .byte rfl (fun _ _ => rfl) fun b => .ite (.error _) ?_
  exact (extends_readRm _ _).bind fun _ _ _ => rfl

/-! ## The three layouts -/

/-- A form that reads ModRM last and then only checks what it read. -/
theorem extends_modRm {m : ExecMode} {ps : List Pfx}
    {g : BitVec 3 × RegMem × List Byte → DecodeResult}
    (hg : ∀ reg rm bs x, g (reg, rm, bs ++ x) = (g (reg, rm, bs)).map (behind x)) :
    Extends behind fun bs => readModRm m ps bs >>= g :=
  (extends_readModRm m ps).bind fun p x _ => hg p.1 p.2.1 p.2.2 x

theorem extends_decodeLegacy (m : ExecMode) (ps : List Pfx) (lr : Option LockRep) (rex : Option Rex) :
    Extends behind (decodeLegacy m ps lr rex) := by
  intro bs x h
  cases bs with
  | nil => exact absurd rfl h
  | cons op bs =>
    simp only [List.cons_append, decodeLegacy] at h ⊢
    cases hop : elemOf op with
    | none => rfl
    | some el =>
      simp only [hop] at h ⊢
      match lr with
      | some .lock | some .repne | some .rep => rfl
      | none =>
        refine extends_modRm (fun reg rm bs x => ?_) bs x h
        simp only
        split
        · rfl
        · split <;> rfl

theorem extends_decodeVexBody (m : ExecMode) (ps : List Pfx) (head : VexHead) (vvvv : BitVec 4) (l : Bool)
    (pp : BitVec 2) (op : Byte) : Extends behind (decodeVexBody m ps head vvvv l pp op) := by
  unfold decodeVexBody
  cases elemOf op with
  | none => exact .error _
  | some el => exact .ite (.error _) (.ite (.error _) (extends_modRm fun _ _ _ _ => rfl))

/-- The two checks that come before the bytes of a VEX or EVEX prefix are read. -/
theorem extends_vexChecks {m : ExecMode} {ps : List Pfx} {lr : Option LockRep} {f : List Byte → DecodeResult}
    (hf : Extends behind f) : Extends behind fun bs => (do isVexIn m bs; vexPrefixesOk ps lr; f bs) := by
  intro bs x h
  have hv : isVexIn m (bs ++ x) = isVexIn m bs ∨ isVexIn m bs = .error .truncated := by
    cases m <;> cases bs <;> simp [isVexIn]
  rcases hv with hv | hv
  · simp only [hv] at h ⊢
    cases h1 : isVexIn m bs with
    | error e => rfl
    | ok u =>
      cases h2 : vexPrefixesOk ps lr with
      | error e => rfl
      | ok v => exact hf bs x (by simpa only [h1, h2, except_bind_ok] using h)
  · exact absurd (by simp only [hv]; rfl) h

theorem extends_decodeC5 (m : ExecMode) (ps : List Pfx) (lr : Option LockRep) :
    Extends behind (decodeC5 m ps lr) := by
  refine extends_vexChecks fun bs x h => ?_
  match bs with
  | [] | [_] => exact absurd rfl h
  | b1 :: op :: bs => exact extends_decodeVexBody _ _ _ _ _ _ _ bs x h

theorem extends_decodeC4 (m : ExecMode) (ps : List Pfx) (lr : Option LockRep) :
    Extends behind (decodeC4 m ps lr) := by
  refine extends_vexChecks fun bs x h => ?_
  match bs with
  | [] | [_] | [_, _] => exact absurd rfl h
  | b1 :: b2 :: op :: bs =>
    exact Extends.ite (.error _) (extends_decodeVexBody _ _ _ _ _ _ _) bs x h

theorem extends_decodeEvex (m : ExecMode) (ps : List Pfx) (lr : Option LockRep) :
    Extends behind (decodeEvex m ps lr) := by
  refine extends_vexChecks fun bs x h => ?_
  match bs with
  | [] | [_] | [_, _] | [_, _, _] => exact absurd rfl h
  | p0 :: p1 :: p2 :: op :: bs =>
    simp only [List.cons_append] at h ⊢
    cases hop : elemOf op with
    | none => rfl
    | some el =>
      simp only [hop] at h ⊢
      split at h
      · simp [*]; rfl
      split at h
      · simp [*]; rfl
      cases hv : vecLenOf (p2.extractLsb' 5 2) with
      | none => simp only [*]; rfl
      | some vl =>
        simp only [*] at h ⊢
        refine extends_modRm (fun reg rm bs x => ?_) bs x h
        simp only
        split <;> rfl

theorem extends_decodeAfterRex (m : ExecMode) (ps : List Pfx) (lr : Option LockRep) (rex : Rex) :
    Extends behind (decodeAfterRex m ps lr rex) :=
  .byte rfl (fun _ _ => rfl) fun _ =>
    .ite (extends_decodeLegacy _ _ _ _) (.ite (.error _) (.ite (.error _) (.error _)))

theorem extends_decodeOpcode (m : ExecMode) (ps : List Pfx) (lr : Option LockRep) :
    Extends behind (decodeOpcode m ps lr) :=
  .byte rfl (fun _ _ => rfl) fun _ =>
    .ite (extends_decodeAfterRex _ _ _ _) (.ite (extends_decodeLegacy _ _ _ _) (.ite (extends_decodeC5 _ _ _)
      (.ite (extends_decodeC4 _ _ _) (.ite (extends_decodeEvex _ _ _) (.error _)))))

/-! ## Prefixes and the whole decoder -/

theorem extends_readPrefixes : ∀ (bs x : List Byte) (acc : List Pfx) (lr : Option LockRep),
    readPrefixes acc lr bs ≠ .error .truncated →
    readPrefixes acc lr (bs ++ x) = (readPrefixes acc lr bs).map (behind₂ x)
  | [], _, _, _, h => absurd rfl h
  | b :: bs, x, acc, lr, h => by
    rw [List.cons_append]
    unfold readPrefixes at h ⊢
    cases hb : pfxByteOf b with
    | none => rfl
    | some p =>
      cases p with
      | lockRep l =>
        simp only [hb] at h ⊢
        split at h
        · simp [*]; rfl
        · simp only [*]; exact extends_readPrefixes bs x acc (some l) h
      | plain p =>
        simp only [hb] at h ⊢
        split at h
        · simp [*]; rfl
        · simp only [*]; exact extends_readPrefixes bs x _ lr h

theorem extends_decode (m : ExecMode) : Extends behind (decode m) := by
  refine Extends.bind (add := behind₂) (fun bs x h => extends_readPrefixes bs x [] none h) fun p x h => ?_
  exact extends_decodeOpcode m p.1 p.2.1 p.2.2 x h

/-- Bytes that an instruction begins with, but not all of them, are read to their end. -/
theorem decode_take {m : ExecMode} {bs : List Byte} {i : Instr} (h : decode m bs = .ok (i, [])) {k : Nat}
    (hk : k < bs.length) : decode m (bs.take k) = .error .truncated := by
  by_contra hne
  have := extends_decode m (bs.take k) (bs.drop k) hne
  rw [List.take_append_drop, h] at this
  cases hd : decode m (bs.take k) with
  | error e => rw [hd] at this; cases this
  | ok p =>
    rw [hd] at this
    have hl := congrArg (fun r : DecodeResult => r.toOption.map fun q => q.2.length) this
    simp [Except.map, Except.toOption, behind] at hl
    omega

end Sys2Proof
end

