-- ==== Sys2Proof/Laws/Fetch.lean ====
section
/-! SUPPORT. The fetch: which bytes it gives the decoder and why it ends, in the terms of Safety, and the outcome of a step
for each answer of the decoder. -/

set_option Elab.async false

namespace Sys2Proof.Machine

/-! ## One byte -/

theorem fetchStopAt_eq_none_iff (m : ExecMode) (a : Nat) (s : State) :
    fetchStopAt m a s = none ↔ Fetchable m s a := by
  have hc := canonicalRange_iff m s.cpu.vaBits a 1
  have ha := accessible_iff s a 1
  simp only [Nat.lt_one_iff, forall_eq, Nat.add_zero] at hc ha
  have h : fetchStopAt m a s = none ↔ (¬ 2 ^ m.addrBits ≤ a ∧ canonicalRange m s.cpu.vaBits a 1 = true) ∧
      inProgram a s = true ∧ accessible s.access a 1 = true := by
    unfold fetchStopAt
    by_cases hw : 2 ^ m.addrBits ≤ a <;> cases canonicalRange m s.cpu.vaBits a 1 <;> cases inProgram a s <;>
      cases accessible s.access a 1 <;> simp [hw]
  rw [h, hc, ha]
  simp only [Fetchable, inProgram, Bool.and_eq_true, decide_eq_true_eq, Nat.not_le, and_assoc]

/-- No address of the mode, or in 64-bit mode no canonical one. -/
theorem fetchStopAt_eq_pcWrap {m : ExecMode} {a : Nat} {s : State}
    (h : 2 ^ m.addrBits ≤ a ∨ (m = .m64 ∧ ¬ IsCanonical s.cpu.vaBits a)) : fetchStopAt m a s = some .pcWrap := by
  unfold fetchStopAt
  have hc := canonicalRange_iff m s.cpu.vaBits a 1
  simp only [Nat.lt_one_iff, forall_eq, Nat.add_zero] at hc
  refine if_pos (h.imp id fun ⟨hm, hn⟩ => ?_)
  exact Bool.eq_false_of_not_eq_true fun ht => hn (hc.mp ht hm)

/-! ## The window -/

/-- Bytes that stand in memory and can be fetched come first, and the fetch goes on behind them. -/
theorem fetchBytes_of_code {m : ExecMode} {s : State} : ∀ (bs : List Byte) (a n : Nat), bs.length ≤ n →
    (∀ j (h : j < bs.length), Fetchable m s (a + j) ∧ Memory.read s.mem (a + j) = bs[j]) →
    fetchBytes m s n a = bs ++ fetchBytes m s (n - bs.length) (a + bs.length) ∧
      fetchStop m s n a = fetchStop m s (n - bs.length) (a + bs.length)
  | [], a, n, _, _ => by simp
  | b :: bs, a, n, hn, h => by
    obtain ⟨n, rfl⟩ : ∃ k, n = k + 1 := ⟨n - 1, by simp at hn; omega⟩
    have h0 := h 0 (by simp)
    have hs : fetchStopAt m a s = none := (fetchStopAt_eq_none_iff m a s).mpr h0.1
    have ih := fetchBytes_of_code bs (a + 1) n (by simpa using hn) fun j hj => by
      have := h (j + 1) (by simpa using hj)
      rw [Nat.add_assoc, Nat.add_comm 1 j]
      simpa using this
    have hb : Memory.read s.mem a = b := h0.2
    simp only [fetchBytes, fetchStop, hs, Option.isSome_none, Bool.false_eq_true, if_false, hb, List.length_cons,
      Nat.add_sub_add_right, List.cons_append, ih.1, ih.2, Nat.add_assoc, Nat.add_comm 1, and_self]

/-- Every byte of the window could be fetched. -/
theorem fetchable_of_lt_length {m : ExecMode} {s : State} : ∀ n a j, j < (fetchBytes m s n a).length →
    Fetchable m s (a + j)
  | 0, _, _, h => by simp [fetchBytes] at h
  | n + 1, a, j, h => by
    unfold fetchBytes at h
    cases hs : fetchStopAt m a s with
    | some r => simp [hs] at h
    | none =>
      cases j with
      | zero => exact (fetchStopAt_eq_none_iff m a s).mp hs
      | succ j =>
        have := fetchable_of_lt_length (m := m) (s := s) n (a + 1) j (by simpa [hs] using h)
        rwa [Nat.add_assoc, Nat.add_comm 1 j] at this

/-- Where the byte behind them cannot be fetched, the window is those bytes and the fetch ends with its reason. -/
theorem window_of_code {m : ExecMode} {s : State} {bs : List Byte} {r : FetchStop} (hn : bs.length < fetchLimit)
    (h : CodeAtPc m bs s) (hr : fetchStopAt m (s.pc.toNat + bs.length) s = some r) :
    window m s = bs ∧ fetchStop m s fetchLimit s.pc.toNat = r := by
  obtain ⟨h1, h2⟩ := fetchBytes_of_code bs s.pc.toNat fetchLimit (by omega) h
  obtain ⟨n, hk⟩ : ∃ k, fetchLimit - bs.length = k + 1 := ⟨fetchLimit - bs.length - 1, by omega⟩
  rw [window, h1, h2, hk]
  simp [fetchBytes, fetchStop, hr]

/-! ## The step -/

/-- In an admitted mode the step is what the decoder's answer makes of it. -/
theorem step_of_mode {m : ExecMode} {s : State} (hm : s.mode = .admitted m) : step s =
    match decode m (window m s) with
    | .ok (i, _) => exec i s
    | .error e => stopOfDecode (fetchStop m s fetchLimit s.pc.toNat) e := by
  unfold step fetchDecode
  rw [hm]
  simp only [fetchDecodeIn]
  cases decode m (window m s) with
  | ok p => rfl
  | error e => cases e <;> simp only [stopOfDecode, raise, andThen_fault, andThen_refused]; cases fetchStop m s fetchLimit s.pc.toNat <;> rfl

/-- An instruction whose bytes can be fetched up to one that cannot stops the step with that byte's reason. -/
theorem step_of_cut {m : ExecMode} {s : State} {i : Instr} {k : Nat} {r : FetchStop} (hm : s.mode = .admitted m)
    (hd : decode m (encode i) = .ok (i, [])) (hk : k < (encode i).length) (hl : k < fetchLimit)
    (h : CodeAtPc m ((encode i).take k) s) (hr : fetchStopAt m (s.pc.toNat + k) s = some r) :
    step s = stopOfFetch r := by
  have hlen : ((encode i).take k).length = k := by rw [List.length_take]; omega
  obtain ⟨h1, h2⟩ := window_of_code (r := r) (by rw [hlen]; exact hl) h (by rw [hlen]; exact hr)
  rw [step_of_mode hm, h1, h2, decode_take hd hk]
  rfl

end Sys2Proof.Machine
end

