-- ==== Sys2Proof/Laws/Memory.lean ====
section
/-! SUPPORT. Memory: what a byte reads as after a write, and that every memory operation keeps the canonical form. -/

set_option Elab.async false

namespace Sys2Proof.Machine

/-- Below the first listed address everything reads as an unlisted byte. -/
theorem read_of_lt_wfFrom : ∀ (m : Memory) (lo a : Nat), Memory.wfFrom lo m = true → a < lo →
    Memory.read m a = unlistedByte
  | [], _, _, _, _ => rfl
  | (x, b) :: m, lo, a, h, ha => by
    simp only [Memory.wfFrom, Bool.and_eq_true, decide_eq_true_eq] at h
    have hx : x ≠ a := by omega
    rw [Memory.read, if_neg hx]
    exact read_of_lt_wfFrom m (x + 1) a h.2 (by omega)

theorem wfFrom_mono : ∀ (m : Memory) (lo lo' : Nat), lo' ≤ lo → Memory.wfFrom lo m = true → Memory.wfFrom lo' m = true
  | [], _, _, _, _ => rfl
  | (x, b) :: m, lo, lo', hle, h => by
    simp only [Memory.wfFrom, Bool.and_eq_true, decide_eq_true_eq] at h ⊢
    exact ⟨⟨⟨by omega, h.1.1.2⟩, h.1.2⟩, h.2⟩

theorem wfFrom_write : ∀ (m : Memory) (lo a : Nat) (b : Byte), lo ≤ a → a < 2 ^ 64 → Memory.wfFrom lo m = true →
    Memory.wfFrom lo (Memory.write m a b) = true
  | [], lo, a, b, hlo, ha, _ => by
    by_cases hb : b = unlistedByte <;> simp [Memory.write, Memory.wfFrom, hb, hlo]
    exact ha
  | (x, c) :: m, lo, a, b, hlo, ha, h => by
    have h' := h
    simp only [Memory.wfFrom, Bool.and_eq_true, decide_eq_true_eq] at h'
    rw [Memory.write]
    split
    · split
      · exact h
      · simp only [Memory.wfFrom, Bool.and_eq_true, decide_eq_true_eq]
        exact ⟨⟨⟨hlo, ha⟩, by assumption⟩, ⟨⟨by omega, h'.1.1.2⟩, h'.1.2⟩, h'.2⟩
    · split
      · split
        · exact wfFrom_mono m (x + 1) lo (by omega) h'.2
        · simp only [Memory.wfFrom, Bool.and_eq_true, decide_eq_true_eq]
          exact ⟨⟨⟨hlo, ha⟩, by assumption⟩, by simp_all⟩
      · simp only [Memory.wfFrom, Bool.and_eq_true, decide_eq_true_eq]
        exact ⟨h'.1, wfFrom_write m (x + 1) a b (by omega) ha h'.2⟩

/-- A write keeps the canonical form. -/
theorem wf_write (m : Memory) (a : Nat) (b : Byte) (ha : a < 2 ^ 64) (h : Memory.wf m = true) :
    Memory.wf (Memory.write m a b) = true := wfFrom_write m 0 a b (Nat.zero_le _) ha h

/-- So do writes of several bytes. -/
theorem wf_writeBytes : ∀ (bs : List Byte) (m : Memory) (a : Nat), a + bs.length ≤ 2 ^ 64 → Memory.wf m = true →
    Memory.wf (Memory.writeBytes m a bs) = true
  | [], _, _, _, h => h
  | b :: bs, m, a, ha, h => by
    rw [List.length_cons] at ha
    exact wf_writeBytes bs _ (a + 1) (by omega) (wf_write m a b (by omega) h)

theorem read_write_wfFrom : ∀ (m : Memory) (lo a x : Nat) (b : Byte), Memory.wfFrom lo m = true →
    Memory.read (Memory.write m a b) x = if x = a then b else Memory.read m x
  | [], lo, a, x, b, _ => by
    by_cases hb : b = unlistedByte <;> by_cases hx : x = a
    · simp [Memory.write, Memory.read, hb]
    · simp [Memory.write, Memory.read, hb]
    · simp [Memory.write, Memory.read, hb, hx]
    · simp [Memory.write, Memory.read, hb, hx, Ne.symm hx]
  | (y, c) :: m, lo, a, x, b, h => by
    have h' := h
    simp only [Memory.wfFrom, Bool.and_eq_true, decide_eq_true_eq] at h'
    rw [Memory.write]
    split
    · rename_i hay
      split
      · rename_i hb
        by_cases hx : x = a
        · subst hx
          rw [if_pos rfl, hb, read_of_lt_wfFrom ((y, c) :: m) y x]
          · simp only [Memory.wfFrom, Bool.and_eq_true, decide_eq_true_eq]
            exact ⟨⟨⟨Nat.le_refl y, h'.1.1.2⟩, h'.1.2⟩, h'.2⟩
          · exact hay
        · rw [if_neg hx]
      · by_cases hx : x = a
        · simp [Memory.read, hx]
        · simp [Memory.read, hx, Ne.symm hx]
    · split
      · rename_i hay
        subst hay
        split
        · rename_i hb
          by_cases hx : x = a
          · subst hx
            rw [if_pos rfl, hb]
            exact read_of_lt_wfFrom m (x + 1) x h'.2 (by omega)
          · simp [Memory.read, hx, Ne.symm hx]
        · by_cases hx : x = a
          · simp [Memory.read, hx]
          · simp [Memory.read, hx, Ne.symm hx]
      · by_cases hy : y = x
        · subst hy
          simp [Memory.read, show ¬ y = a by omega]
        · simp only [Memory.read, hy, if_false]
          exact read_write_wfFrom m (y + 1) a x b h'.2

/-- A read after a write: the written byte there, the old byte elsewhere. -/
theorem read_write (m : Memory) (a x : Nat) (b : Byte) (h : Memory.wf m = true) :
    Memory.read (Memory.write m a b) x = if x = a then b else Memory.read m x := read_write_wfFrom m 0 a x b h

/-- Writing several bytes leaves every address outside them as it was. -/
theorem read_writeBytes_outside : ∀ (bs : List Byte) (m : Memory) (a x : Nat), a + bs.length ≤ 2 ^ 64 →
    Memory.wf m = true → (x < a ∨ a + bs.length ≤ x) → Memory.read (Memory.writeBytes m a bs) x = Memory.read m x
  | [], _, _, _, _, _, _ => rfl
  | b :: bs, m, a, x, ha, h, hx => by
    rw [List.length_cons] at ha hx
    rw [Memory.writeBytes, read_writeBytes_outside bs _ (a + 1) x (by omega) (wf_write m a b (by omega) h) (by omega),
      read_write m a x b h, if_neg (by omega)]

/-- Byte `i` of several written bytes reads back. -/
theorem read_writeBytes_inside : ∀ (bs : List Byte) (m : Memory) (a i : Nat) (hi : i < bs.length),
    a + bs.length ≤ 2 ^ 64 → Memory.wf m = true → Memory.read (Memory.writeBytes m a bs) (a + i) = bs[i]
  | b :: bs, m, a, 0, _, ha, h => by
    rw [List.length_cons] at ha
    rw [Memory.writeBytes,
      read_writeBytes_outside bs _ (a + 1) (a + 0) (by omega) (wf_write m a b (by omega) h) (by omega),
      read_write m a (a + 0) b h, if_pos (by omega)]
    rfl
  | b :: bs, m, a, i + 1, hi, ha, h => by
    rw [List.length_cons] at ha hi
    rw [Memory.writeBytes, show a + (i + 1) = (a + 1) + i by omega,
      read_writeBytes_inside bs _ (a + 1) i (by omega) (by omega) (wf_write m a b (by omega) h)]
    rfl

/-- Placing a program keeps the canonical form. -/
theorem wf_launch (bs : List Byte) (s : State) (h : Memory.wf s.mem = true) : Memory.wf (launch bs s).mem = true :=
  wf_writeBytes _ _ _ (by rw [List.length_take]; omega) h

theorem wf_reset : Memory.wf State.reset.mem = true := rfl

end Sys2Proof.Machine
end

