-- ==== Sys2Proof/Laws/PerInstr.lean ====
section
/-! SUPPORT. Per instruction: the number of bytes of its encoding is the length of R61 that its execution adds to the
pc. -/

set_option Elab.async false

namespace Sys2Proof.Laws.EncodedLength

/-- `encode` writes as many bytes as `ilen` says (R61). -/
def Statement (i : Instr) : Prop := (encode i).length = i.len

theorem pcmpeqbMmx (e : LegacyEnc) : Statement (.pcmpeqbMmx e) := length_encodeLegacy _ e
theorem pcmpeqbXmm (e : LegacyEnc) : Statement (.pcmpeqbXmm e) := length_encodeLegacy _ e
theorem pcmpeqwMmx (e : LegacyEnc) : Statement (.pcmpeqwMmx e) := length_encodeLegacy _ e
theorem pcmpeqwXmm (e : LegacyEnc) : Statement (.pcmpeqwXmm e) := length_encodeLegacy _ e
theorem pcmpeqdMmx (e : LegacyEnc) : Statement (.pcmpeqdMmx e) := length_encodeLegacy _ e
theorem pcmpeqdXmm (e : LegacyEnc) : Statement (.pcmpeqdXmm e) := length_encodeLegacy _ e
theorem vpcmpeqbVex128 (e : VexEnc) : Statement (.vpcmpeqbVex128 e) := length_encodeVex _ _ e
theorem vpcmpeqwVex128 (e : VexEnc) : Statement (.vpcmpeqwVex128 e) := length_encodeVex _ _ e
theorem vpcmpeqdVex128 (e : VexEnc) : Statement (.vpcmpeqdVex128 e) := length_encodeVex _ _ e
theorem vpcmpeqbVex256 (e : VexEnc) : Statement (.vpcmpeqbVex256 e) := length_encodeVex _ _ e
theorem vpcmpeqwVex256 (e : VexEnc) : Statement (.vpcmpeqwVex256 e) := length_encodeVex _ _ e
theorem vpcmpeqdVex256 (e : VexEnc) : Statement (.vpcmpeqdVex256 e) := length_encodeVex _ _ e
theorem vpcmpeqdEvex128 (e : EvexEnc) : Statement (.vpcmpeqdEvex128 e) := length_encodeEvex _ _ e
theorem vpcmpeqdEvex256 (e : EvexEnc) : Statement (.vpcmpeqdEvex256 e) := length_encodeEvex _ _ e
theorem vpcmpeqdEvex512 (e : EvexEnc) : Statement (.vpcmpeqdEvex512 e) := length_encodeEvex _ _ e
theorem vpcmpeqbEvex128 (e : EvexEnc) : Statement (.vpcmpeqbEvex128 e) := length_encodeEvex _ _ e
theorem vpcmpeqbEvex256 (e : EvexEnc) : Statement (.vpcmpeqbEvex256 e) := length_encodeEvex _ _ e
theorem vpcmpeqbEvex512 (e : EvexEnc) : Statement (.vpcmpeqbEvex512 e) := length_encodeEvex _ _ e
theorem vpcmpeqwEvex128 (e : EvexEnc) : Statement (.vpcmpeqwEvex128 e) := length_encodeEvex _ _ e
theorem vpcmpeqwEvex256 (e : EvexEnc) : Statement (.vpcmpeqwEvex256 e) := length_encodeEvex _ _ e
theorem vpcmpeqwEvex512 (e : EvexEnc) : Statement (.vpcmpeqwEvex512 e) := length_encodeEvex _ _ e

end Sys2Proof.Laws.EncodedLength
end

