-- ==== Sys2Proof/Laws/Reads.lean ====
section
/-! SUPPORT. Memory operands: the value read as a number and byte by byte, canonical addresses, segments, what a read
can raise, and which parts of the state it looks at. -/

set_option Elab.async false

namespace Sys2Proof.Machine

/-! ## Values -/

theorem toNat_packLanes {w esz : Nat} (f : Nat → BitVec esz) :
    ∀ n, n * esz ≤ w → (packLanes w esz f n).toNat < 2 ^ (n * esz) ∧
      (packLanes w esz f n).toNat = ((List.range n).map fun i => (f i).toNat * 2 ^ (esz * i)).sum
  | 0, _ => by simp [packLanes]
  | n + 1, hw => by
    rw [Nat.add_mul, Nat.one_mul] at hw
    obtain ⟨h1, h2⟩ := toNat_packLanes (w := w) f n (by omega)
    have hf : (f n).toNat < 2 ^ esz := (f n).isLt
    have hp : 2 ^ (n * esz + esz) = 2 ^ (n * esz) * 2 ^ esz := Nat.pow_add ..
    have hlt : (f n).toNat * 2 ^ (n * esz) < 2 ^ w := by
      calc _ < 2 ^ esz * 2 ^ (n * esz) := Nat.mul_lt_mul_of_pos_right hf (Nat.two_pow_pos _)
        _ = 2 ^ (n * esz + esz) := by rw [hp, Nat.mul_comm]
        _ ≤ _ := Nat.pow_le_pow_right (by decide) hw
    have hs : ((f n).setWidth w <<< (n * esz)).toNat = 2 ^ (n * esz) * (f n).toNat := by
      rw [BitVec.toNat_shiftLeft, BitVec.toNat_setWidth, Nat.shiftLeft_eq, Nat.mod_eq_of_lt (a := (f n).toNat),
        Nat.mod_eq_of_lt hlt, Nat.mul_comm]
      exact Nat.lt_of_lt_of_le hf (Nat.pow_le_pow_right (by decide) (by omega))
    rw [Nat.add_mul, Nat.one_mul, packLanes, BitVec.toNat_or, hs, Nat.or_comm, ← Nat.two_pow_add_eq_or_of_lt h1,
      List.range_succ, List.map_append, List.sum_append, ← h2, hp]
    refine ⟨?_, ?_⟩
    · have : 2 ^ (n * esz) * (f n).toNat + 2 ^ (n * esz) ≤ 2 ^ (n * esz) * 2 ^ esz := by
        rw [← Nat.mul_succ]; exact Nat.mul_le_mul_left _ hf
      omega
    · simp [Nat.mul_comm, Nat.add_comm]

theorem lane_memValue (mem : Memory) (a w i : Nat) (hi : i < w / 8) :
    lane 8 (memValue mem a w) i = Memory.read mem (a + i) :=
  lane_packLanes (by decide) _ (Nat.div_mul_le_self _ _) hi

theorem getLsbD_memValue (mem : Memory) (a w p : Nat) : (memValue mem a w).getLsbD p =
    (decide (p < w / 8 * 8) && (Memory.read mem (a + p / 8)).getLsbD (p % 8)) :=
  getLsbD_packLanes (by decide) _ _ (Nat.div_mul_le_self _ _) p

/-! ## Segments (R60) -/

theorem segOverride_of_mem : ∀ (ps : List Pfx) (seg : Seg), pfxWf ps = true → Pfx.seg seg ∈ ps →
    segOverride ps = some seg
  | p :: ps, seg, hw, h => by
    simp only [pfxWf, Bool.and_eq_true, List.all_eq_true] at hw
    cases p with
    | seg s =>
      rcases List.mem_cons.mp h with h | h
      · cases h; rfl
      · have := hw.1 _ h; simp [Pfx.sameGroup] at this
    | opSize => exact segOverride_of_mem ps seg hw.2 (by simpa using h)
    | addrSize => exact segOverride_of_mem ps seg hw.2 (by simpa using h)

theorem segOverride_eq_none : ∀ (ps : List Pfx), (∀ seg, Pfx.seg seg ∉ ps) → segOverride ps = none
  | [], _ => rfl
  | p :: ps, h => by
    cases p with
    | seg s => exact absurd (by simp) (h s)
    | opSize => exact segOverride_eq_none ps (fun s hs => h s (by simp [hs]))
    | addrSize => exact segOverride_eq_none ps (fun s hs => h s (by simp [hs]))

/-! ## What a read looks at, and what it can raise -/

/-- A memory operand depends on general registers, segment bases, the processor, the accessible ranges, memory and
`AC_ENABLED` only. -/
theorem memOperand_congr {w : Nat} {f : MemForm} {m : ExecMode} {next : Addr} {a : MemRef} {s s' : State}
    (h1 : s'.gpr = s.gpr) (h2 : s'.fsBase = s.fsBase) (h3 : s'.gsBase = s.gsBase) (h4 : s'.cpu = s.cpu)
    (h5 : s'.access = s.access) (h6 : s'.mem = s.mem) (h7 : acEnabled s' = acEnabled s) :
    memOperand w f m next a s' = memOperand w f m next a s := by
  have hg : ∀ i, gprVal i s' = gprVal i s := fun i => by rw [gprVal, gprVal, h1]
  have hi : ∀ x sc ix, indexPart x sc ix s' = indexPart x sc ix s := fun x sc ix => by rw [indexPart, indexPart, hg]
  have ha : addrSum f m next a s' = addrSum f m next a s := by
    cases a <;> simp only [addrSum, hg, hi]
  have hb : ∀ seg, segBase seg s' = segBase seg s := by intro seg; cases seg <;> simp [segBase, h2, h3]
  have hl : ∀ size, linearAddr m (segOf f a) (effAddr f size m next a s') s' =
      linearAddr m (segOf f a) (effAddr f size m next a s) s := by
    intro size; simp only [linearAddr, effAddr, ha, hb]
  unfold memOperand
  cases addrSize m f.pfx with
  | none => rfl
  | some size => simp only [memRead, hl, h4, h5, h6, h7]

/-- A read raises none of the exceptions of the checks, and `#AC` only where an alignment is checked. -/
theorem memRead_fault {w al ac : Nat} {m : ExecMode} {seg : Seg} {ea : Addr} {s : State} {e : Fault}
    (h : memRead w al ac m seg ea s = .fault e) : e ≠ .ud ∧ e ≠ .nm ∧ e ≠ .mf ∧ (e = .ac → ac ≠ 1) := by
  simp only [memRead, raise] at h
  split at h
  · cases h
  split at h
  · cases h; split <;> simp
  split at h
  · cases h; simp
  split at h
  · cases h; simp
  split at h
  · rename_i hx
    cases h
    refine ⟨by simp, by simp, by simp, fun _ h1 => hx.2 ?_⟩
    rw [h1]; exact Nat.mod_one _
  · cases h

theorem memOperand_fault {w : Nat} {f : MemForm} {m : ExecMode} {next : Addr} {a : MemRef} {s : State} {e : Fault}
    (h : memOperand w f m next a s = .fault e) : e ≠ .ud ∧ e ≠ .nm ∧ e ≠ .mf ∧ (e = .ac → f.ac ≠ 1) := by
  unfold memOperand at h
  cases hx : addrSize m f.pfx with
  | none => rw [hx] at h; cases h
  | some z => rw [hx] at h; exact memRead_fault h

/-- Where there is an address size, the operand is the read at the linear address. -/
theorem memOperand_of_addrSize {w size : Nat} {f : MemForm} {m : ExecMode} {next : Addr} {a : MemRef} {s : State}
    (h : addrSize m f.pfx = some size) : memOperand w f m next a s =
      memRead w f.al f.ac m (segOf f a) (effAddr f size m next a s) s := by
  rw [memOperand, h]

end Sys2Proof.Machine
end

