-- ==== Sys2Proof/Tests/Slice0.lean ====
section
/-! SUPPORT. Tests. Expected results are those of spec 95_test_vectors.md (V-…, sections 2.1 to 2.9) or are worked out by
hand from the rule named. Then, for each obligation with hypotheses, a state and operands that meet them. -/

set_option Elab.async false

namespace Sys2Proof.Tests

open Sys2Proof.Machine

/-! ## Helpers -/

abbrev Out := Host.Outcome State Fault Refusal

def got {α : Type} (f : State → α) : Out → Option α
  | .next s => some (f s)
  | .fault _ => none
  | .refused _ => none

def faultOf : Out → Option Fault
  | .next _ => none
  | .fault e => some e
  | .refused _ => none

def refusalOf : Out → Option Refusal
  | .next _ => none
  | .fault _ => none
  | .refused r => some r

/-- The bytes launched at 400000H, everything else as reset leaves it, in 64-bit mode. -/
def st (bytes : List Byte) : State := launch bytes { State.reset with pc := 0x400000#64 }
def to32 (s : State) : State := { s with mode := .admitted .m32 }
def setMm (i : Fin 8) (v : BitVec 64) (s : State) : State := { s with mm := s.mm.set i v }
def setK (i : Fin 8) (v : BitVec 64) (s : State) : State := { s with k := s.k.set i v }
def setGpr (i : Fin 16) (v : BitVec 64) (s : State) : State := { s with gpr := s.gpr.set i v }
def poke (a : Nat) (bs : List Byte) (s : State) : State := { s with mem := Memory.writeBytes s.mem a bs }
def withFeatures (f : Features) (s : State) : State := { s with cpu := { s.cpu with features := f } }
def withAccess (r : List Region) (s : State) : State := { s with access := r }
/-- CR0.AM, EFLAGS.AC and CPL 3: alignment checking. -/
def checkAlign (s : State) : State :=
  { s with cr0 := s.cr0 ||| 0x40000#64, eflags := s.eflags ||| 0x40000#32, cpl := 3#2 }

/-! ## WellFormed refuses what is ill formed -/

/-- R51, D15: two segment overrides; 66H twice. -/
theorem test_wf_repeated_prefix : (Instr.pcmpeqwMmx ⟨[.seg .cs, .seg .ds], none, 0, .reg 1⟩).wf .m64 = false ∧
    (Instr.pcmpeqwXmm ⟨[.opSize, .opSize], none, 0, .reg 1⟩).wf .m64 = false ∧
    (Instr.pcmpeqwMmx ⟨[.addrSize, .addrSize], none, 0, .reg 1⟩).wf .m64 = false := by decide

/-- R54: an MMX form with 66H, an SSE2 form without. -/
theorem test_wf_mandatory_prefix : (Instr.pcmpeqwMmx ⟨[.opSize], none, 0, .reg 1⟩).wf .m64 = false ∧
    (Instr.pcmpeqwXmm ⟨[], none, 0, .reg 1⟩).wf .m64 = false := by decide

/-- R56 (a), D22; R52: no REX in 32-bit mode. -/
theorem test_wf_rex : (Instr.pcmpeqwMmx ⟨[], some ⟨false, true, false, false⟩, 0, .reg 1⟩).wf .m64 = false ∧
    (Instr.pcmpeqwMmx ⟨[], some ⟨false, false, false, true⟩, 0, .reg 1⟩).wf .m64 = false ∧
    (Instr.pcmpeqwMmx ⟨[], some ⟨false, false, false, false⟩, 0, .reg 1⟩).wf .m32 = false := by decide

/-- R57, R58: rm 100 is a SIB form, mod 00 rm 101 and mod 00 base 101 have forms of their own. -/
theorem test_wf_operand : (Instr.pcmpeqwMmx ⟨[], none, 0, .mem (.base 4 .none)⟩).wf .m64 = false ∧
    (Instr.pcmpeqwMmx ⟨[], none, 0, .mem (.base 5 .none)⟩).wf .m64 = false ∧
    (Instr.pcmpeqwMmx ⟨[], none, 0, .mem (.sib 0 0 5 .none)⟩).wf .m64 = false := by decide

/-- R59, D26. -/
theorem test_wf_addr16 : (Instr.pcmpeqwMmx ⟨[.addrSize], none, 0, .mem (.base 0 .none)⟩).wf .m32 = false := by decide

/-- R51, R63: 66H before VEX; a high register in 32-bit mode. -/
theorem test_wf_vex : (Instr.vpcmpeqwVex128 ⟨[.opSize], .two false, 1, 0, .reg 2⟩).wf .m64 = false ∧
    (Instr.vpcmpeqwVex128 ⟨[], .two true, 1, 0, .reg 2⟩).wf .m32 = false ∧
    (Instr.vpcmpeqwVex128 ⟨[], .three false true false false, 1, 0, .reg 2⟩).wf .m32 = false ∧
    (Instr.vpcmpeqwVex128 ⟨[], .three false false true false, 1, 0, .reg 2⟩).wf .m32 = false ∧
    (Instr.vpcmpeqwVex128 ⟨[], .two false, 8, 0, .reg 2⟩).wf .m32 = false := by decide

/-- R51, R65: 66H before EVEX, W on VPCMPEQD, broadcast of a register or on a word form, a high register in 32-bit
mode. -/
theorem test_wf_evex :
    (Instr.vpcmpeqdEvex512 ⟨[.opSize], false, false, false, 2, false, 0, 1, .reg 3⟩).wf .m64 = false ∧
    (Instr.vpcmpeqdEvex512 ⟨[], false, false, true, 2, false, 0, 1, .reg 3⟩).wf .m64 = false ∧
    (Instr.vpcmpeqdEvex512 ⟨[], false, false, false, 2, true, 0, 1, .reg 3⟩).wf .m64 = false ∧
    (Instr.vpcmpeqwEvex512 ⟨[], false, false, false, 2, true, 0, 1, .mem (.base 0 .none)⟩).wf .m64 = false ∧
    (Instr.vpcmpeqwEvex512 ⟨[], false, false, false, 8, false, 0, 1, .reg 3⟩).wf .m32 = false ∧
    (Instr.vpcmpeqwEvex512 ⟨[], false, false, false, 16, false, 0, 1, .reg 3⟩).wf .m32 = false ∧
    (Instr.vpcmpeqwEvex512 ⟨[], true, false, false, 2, false, 0, 1, .reg 3⟩).wf .m32 = false ∧
    (Instr.vpcmpeqwEvex512 ⟨[], false, true, false, 2, false, 0, 1, .reg 3⟩).wf .m32 = false := by decide

/-! ## Decoding: words written from R50 to R68, each constructor once -/

/-- Section 2.7 and R110. -/
theorem test_decode_mmx : decode .m64 [0x0F, 0x74, 0xD3] = .ok (.pcmpeqbMmx ⟨[], none, 2, .reg 3⟩, []) ∧
    decode .m64 [0x0F, 0x75, 0xFA] = .ok (.pcmpeqwMmx ⟨[], none, 7, .reg 2⟩, []) ∧
    decode .m64 [0x0F, 0x76, 0xE5] = .ok (.pcmpeqdMmx ⟨[], none, 4, .reg 5⟩, []) := by decide

/-- Sections 2.4 and 2.7: V-S1, V-S4, V-S3. -/
theorem test_decode_xmm : decode .m64 [0x66, 0x0F, 0x74, 0xC1] = .ok (.pcmpeqbXmm ⟨[.opSize], none, 0, .reg 1⟩, []) ∧
    decode .m64 [0x66, 0x44, 0x0F, 0x75, 0xC9] =
      .ok (.pcmpeqwXmm ⟨[.opSize], some ⟨false, true, false, false⟩, 1, .reg 1⟩, []) ∧
    decode .m64 [0x66, 0x0F, 0x76, 0xC1] = .ok (.pcmpeqdXmm ⟨[.opSize], none, 0, .reg 1⟩, []) := by decide

/-- Section 2.5: V-V5, V-V7 (~R = 0 is 8, ~vvvv = 0110 is 9), V-V3 (three bytes, W = 1). -/
theorem test_decode_vex128 : decode .m64 [0xC5, 0xF1, 0x74, 0xC2] =
      .ok (.vpcmpeqbVex128 ⟨[], .two false, 1, 0, .reg 2⟩, []) ∧
    decode .m64 [0xC5, 0x31, 0x75, 0xC2] = .ok (.vpcmpeqwVex128 ⟨[], .two true, 9, 0, .reg 2⟩, []) ∧
    decode .m64 [0xC4, 0xE1, 0xF1, 0x75, 0xC2] =
      .ok (.vpcmpeqwVex128 ⟨[], .three false false false true, 1, 0, .reg 2⟩, []) ∧
    decode .m64 [0xC5, 0xF1, 0x76, 0xC2] = .ok (.vpcmpeqdVex128 ⟨[], .two false, 1, 0, .reg 2⟩, []) := by decide

/-- Sections 2.5, 2.7: V-V4; R62 with X = B = 1 on a SIB operand. -/
theorem test_decode_vex256 : decode .m64 [0xC4, 0x81, 0x75, 0x74, 0x04, 0x81] =
      .ok (.vpcmpeqbVex256 ⟨[], .three false true true false, 1, 0, .mem (.sib 2 0 1 .none)⟩, []) ∧
    decode .m64 [0xC5, 0xF5, 0x75, 0xC2] = .ok (.vpcmpeqwVex256 ⟨[], .two false, 1, 0, .reg 2⟩, []) ∧
    decode .m64 [0xC5, 0xF5, 0x76, 0xC2] = .ok (.vpcmpeqdVex256 ⟨[], .two false, 1, 0, .reg 2⟩, []) := by decide

/-- Section 2.6: V-E4, V-E6, V-E9 (broadcast). -/
theorem test_decode_evexD : decode .m64 [0x62, 0xF1, 0x6D, 0x08, 0x76, 0xCB] =
      .ok (.vpcmpeqdEvex128 ⟨[], false, false, false, 2, false, 0, 1, .reg 3⟩, []) ∧
    decode .m64 [0x62, 0xF1, 0x6D, 0x28, 0x76, 0xCB] =
      .ok (.vpcmpeqdEvex256 ⟨[], false, false, false, 2, false, 0, 1, .reg 3⟩, []) ∧
    decode .m64 [0x62, 0xF1, 0x6D, 0x5A, 0x76, 0x08] =
      .ok (.vpcmpeqdEvex512 ⟨[], false, false, false, 2, true, 2, 1, .mem (.base 0 .none)⟩, []) := by decide

/-- Section 2.6: V-E3, V-E6, V-E8. -/
theorem test_decode_evexB : decode .m64 [0x62, 0xF1, 0x6D, 0x08, 0x74, 0xCB] =
      .ok (.vpcmpeqbEvex128 ⟨[], false, false, false, 2, false, 0, 1, .reg 3⟩, []) ∧
    decode .m64 [0x62, 0xF1, 0x6D, 0x28, 0x74, 0xCB] =
      .ok (.vpcmpeqbEvex256 ⟨[], false, false, false, 2, false, 0, 1, .reg 3⟩, []) ∧
    decode .m64 [0x62, 0xF1, 0x6D, 0x48, 0x74, 0xCB] =
      .ok (.vpcmpeqbEvex512 ⟨[], false, false, false, 2, false, 0, 1, .reg 3⟩, []) := by decide

/-- Section 2.6: V-E15 (~X = 0), V-E16 (~V' = 0), V-E5, V-E10; section 2.7: W = 1. -/
theorem test_decode_evexW : decode .m64 [0x62, 0xB1, 0x6D, 0x08, 0x75, 0xCB] =
      .ok (.vpcmpeqwEvex128 ⟨[], true, false, false, 2, false, 0, 1, .reg 3⟩, []) ∧
    decode .m64 [0x62, 0xF1, 0x6D, 0x00, 0x75, 0xCB] =
      .ok (.vpcmpeqwEvex128 ⟨[], false, false, false, 18, false, 0, 1, .reg 3⟩, []) ∧
    decode .m64 [0x62, 0xF1, 0x6D, 0x28, 0x75, 0xCB] =
      .ok (.vpcmpeqwEvex256 ⟨[], false, false, false, 2, false, 0, 1, .reg 3⟩, []) ∧
    decode .m64 [0x62, 0xF1, 0x6D, 0x48, 0x75, 0x48, 0x01] =
      .ok (.vpcmpeqwEvex512 ⟨[], false, false, false, 2, false, 0, 1, .mem (.base 0 (.d8 1))⟩, []) ∧
    decode .m64 [0x62, 0xF1, 0xED, 0x48, 0x75, 0xCB] =
      .ok (.vpcmpeqwEvex512 ⟨[], false, false, true, 2, false, 0, 1, .reg 3⟩, []) := by decide

/-- Section 2.7: a 32-bit displacement low byte first, address size 32, CS override, REX.W; 2.3: V-L3, V-L4, V-L9. -/
theorem test_decode_operands : decode .m64 [0x0F, 0x75, 0x80, 0x78, 0x56, 0x34, 0x12] =
      .ok (.pcmpeqwMmx ⟨[], none, 0, .mem (.base 0 (.d32 0x12345678))⟩, []) ∧
    decode .m64 [0x67, 0x0F, 0x75, 0x00] = .ok (.pcmpeqwMmx ⟨[.addrSize], none, 0, .mem (.base 0 .none)⟩, []) ∧
    decode .m64 [0x2E, 0x0F, 0x75, 0x00] = .ok (.pcmpeqwMmx ⟨[.seg .cs], none, 0, .mem (.base 0 .none)⟩, []) ∧
    decode .m64 [0x48, 0x0F, 0x75, 0xC1] =
      .ok (.pcmpeqwMmx ⟨[], some ⟨true, false, false, false⟩, 0, .reg 1⟩, []) ∧
    decode .m64 [0x0F, 0x75, 0x54, 0xBE, 0x10] = .ok (.pcmpeqwMmx ⟨[], none, 2, .mem (.sib 2 7 6 (.d8 0x10))⟩, []) ∧
    decode .m64 [0x0F, 0x75, 0x0D, 0x00, 0x01, 0x00, 0x00] =
      .ok (.pcmpeqwMmx ⟨[], none, 1, .mem (.disp 0x100)⟩, []) ∧
    decode .m64 [0x0F, 0x75, 0x04, 0x25, 0x00, 0x20, 0x00, 0x00] =
      .ok (.pcmpeqwMmx ⟨[], none, 0, .mem (.sibDisp 0 4 0x2000)⟩, []) := by decide

/-- Section 2.8, the legacy rows. -/
theorem test_decode_refused_legacy : decode .m64 [0xF0, 0x0F, 0x75, 0x00] = .error .ud ∧
    decode .m64 [0xF3, 0x0F, 0x75, 0xC1] = .error .reservedPrefix ∧
    decode .m64 [0xF2, 0x0F, 0x75, 0xC1] = .error .reservedPrefix ∧
    decode .m64 [0x66, 0x66, 0x0F, 0x75, 0xC1] = .error .repeatedPrefix ∧
    decode .m64 [0x2E, 0x3E, 0x0F, 0x75, 0x00] = .error .repeatedPrefix ∧
    decode .m64 [0x44, 0x0F, 0x75, 0xC1] = .error .rexOnMmxRegister ∧
    decode .m64 [0x41, 0x0F, 0x75, 0xC1] = .error .rexOnMmxRegister ∧
    decode .m64 [0x41, 0x66, 0x0F, 0x75, 0xC1] = .error .misplacedRex := by decide

/-- Section 2.8, opcodes outside the table, 16-bit addressing, and bytes that end too early. -/
theorem test_decode_refused_other : decode .m64 [0x0F, 0x77] = .error .unknownOpcode ∧
    decode .m64 [0x0F, 0x64, 0xC1] = .error .unknownOpcode ∧
    decode .m64 [0x0F, 0x66, 0xC1] = .error .unknownOpcode ∧
    decode .m32 [0x67, 0x0F, 0x75, 0x00] = .error .addr16 ∧ decode .m64 [0x0F, 0x75] = .error .truncated := by decide

/-- Section 2.8, the VEX and EVEX rows. -/
theorem test_decode_refused_vex_evex : decode .m64 [0x66, 0xC5, 0xF1, 0x75, 0xC2] = .error .ud ∧
    decode .m64 [0x48, 0xC5, 0xF1, 0x75, 0xC2] = .error .ud ∧
    decode .m32 [0xC5, 0x71, 0x75, 0xC2] = .error .unknownOpcode ∧
    decode .m32 [0xC4, 0xC1, 0x71, 0x75, 0xC2] = .error .vexHighRegIn32 ∧
    decode .m64 [0x62, 0xF1, 0xED, 0x48, 0x76, 0xCB] = .error .evexReservedField ∧
    decode .m64 [0x62, 0xF1, 0x6D, 0x18, 0x75, 0xCB] = .error .evexReservedField ∧
    decode .m64 [0x62, 0xF1, 0x6D, 0x18, 0x76, 0xCB] = .error .evexReservedField ∧
    decode .m64 [0x62, 0xF1, 0x6D, 0x88, 0x75, 0xCB] = .error .evexReservedField ∧
    decode .m64 [0x62, 0xF1, 0x6D, 0x68, 0x75, 0xCB] = .error .evexReservedField ∧
    decode .m64 [0x62, 0x71, 0x6D, 0x08, 0x75, 0xCB] = .error .evexReservedField := by decide

/-- The words of spec/opcode_table.json read by R73: row 1, row 4, row 7, row 12; and the same number in byte order. -/
theorem test_decode_table_words :
    decodeTableWord 24 0x000F74 = some (.pcmpeqbMmx ⟨[], none, 0, .mem (.base 0 .none)⟩) ∧
    decodeTableWord 24 0x660F75 = some (.pcmpeqwXmm ⟨[.opSize], none, 0, .mem (.base 0 .none)⟩) ∧
    decodeTableWord 32 0xC4010174 =
      some (.vpcmpeqbVex128 ⟨[], .three true true true false, 15, 0, .mem (.base 0 .none)⟩) ∧
    decodeTableWord 32 0xC4010576 =
      some (.vpcmpeqdVex256 ⟨[], .three true true true false, 15, 0, .mem (.base 0 .none)⟩) ∧
    decodeTableWord 40 0x6201050075 = none ∧
    decodeTableWord 40 0x62F16D4875 =
      some (.vpcmpeqwEvex512 ⟨[], false, false, false, 2, false, 0, 0, .mem (.base 0 .none)⟩) ∧
    decodeTableWord 24 0xC1750F = some (.pcmpeqwMmx ⟨[], none, 0, .reg 1⟩) := by decide

/-! ## Execution: one step -/

def x128 : BitVec 128 := 0x00010002000300040005000600070008
def y128 : BitVec 128 := 0x0001FFFF000300000005000600000008
/-- Arbitrary upper bits, `T` of section 2.4. -/
def upper : BitVec 384 := 0x123456789ABCDEF0

/-- V-M1, V-M6: words; the pc moves by 3. -/
theorem test_pcmpeqwMmx : got (fun t => (mmVal 0 t, mmVal 1 t, t.pc))
      (step (setMm 0 0x0001000200030004 (setMm 1 0x0001FFFF00030000 (st [0x0F, 0x75, 0xC1])))) =
      some (0xFFFF0000FFFF0000, 0x0001FFFF00030000, 0x400003) ∧
    got (mmVal 0) (step (setMm 0 0x1234123412341234 (setMm 1 0x3412563412351234 (st [0x0F, 0x75, 0xC1])))) =
      some 0x000000000000FFFF := by decide +kernel

/-- V-M7: bytes. -/
theorem test_pcmpeqbMmx :
    got (mmVal 0) (step (setMm 0 0x0001000100010001 (setMm 1 0x0000000000000001 (st [0x0F, 0x74, 0xC1])))) =
      some 0xFF00FF00FF00FFFF := by decide +kernel

/-- V-M8, V-M10: doublewords. -/
theorem test_pcmpeqdMmx :
    got (mmVal 0) (step (setMm 0 0xFFFF00000000FFFF (setMm 1 0xFFFF00000000FFFE (st [0x0F, 0x76, 0xC1])))) =
      some 0xFFFFFFFF00000000 ∧
    got (mmVal 0) (step (setMm 0 0xDEADBEEFCAFEF00D (setMm 1 0xDEADBEEECAFEF00D (st [0x0F, 0x76, 0xC1])))) =
      some 0x00000000FFFFFFFF := by decide +kernel

/-- V-L1: little-endian quadword at RAX; V-L2: an odd address with a displacement. -/
theorem test_mmx_memory : got (fun t => (mmVal 3 t, t.pc)) (step (setGpr 0 0x2000 (setMm 3 0x0001000200030004
      (poke 0x2000 [4, 0, 3, 0, 0xFF, 0xFF, 1, 0] (st [0x0F, 0x75, 0x18]))))) =
      some (0xFFFF0000FFFFFFFF, 0x400003) ∧
    got (fun t => (mmVal 7 t, t.pc)) (step (setGpr 3 0x2FF9 (setMm 7 0xDEADBEEFCAFEF00D
      (poke 0x3001 [0x0D, 0xF0, 0xFE, 0xCA, 0xEF, 0xBE, 0xAD, 0xDE] (st [0x0F, 0x75, 0x7B, 0x08]))))) =
      some (0xFFFFFFFFFFFFFFFF, 0x400004) := by decide +kernel

/-- V-L3: base, scaled index, displacement; V-L4: RIP-relative; V-L5: REX.B; V-L6: FS base. The byte FF marks the
address that must be read. -/
theorem test_mmx_addresses : got (mmVal 2) (step (setGpr 6 0x1000 (setGpr 7 0x20 (setMm 2 0x0000FFFF00001234
      (poke 0x1090 [0, 0] (st [0x0F, 0x75, 0x54, 0xBE, 0x10])))))) = some 0xFFFF0000FFFF0000 ∧
    got (fun t => (mmVal 1 t, t.pc)) (step (setMm 1 0xFF (poke 0x400107 [0xFF]
      (st [0x0F, 0x75, 0x0D, 0x00, 0x01, 0x00, 0x00])))) = some (0xFFFFFFFFFFFFFFFF, 0x400007) ∧
    got (mmVal 0) (step (setGpr 8 0x5000 (setMm 0 0xFF (poke 0x5000 [0xFF] (st [0x41, 0x0F, 0x75, 0x00]))))) =
      some 0xFFFFFFFFFFFFFFFF ∧
    got (mmVal 0) (step { setGpr 0 0x20 (setMm 0 0xFF (poke 0x10020 [0xFF] (st [0x64, 0x0F, 0x75, 0x00]))) with
      fsBase := 0x10000 }) = some 0xFFFFFFFFFFFFFFFF := by decide +kernel

/-- V-L8: a negative displacement; V-L9: no base, no index; 2.7: address size 32 truncates RAX; P5: disp32 alone is
absolute in 32-bit mode. -/
theorem test_mmx_addresses_more : got (mmVal 0) (step (setGpr 5 0x3000 (setMm 0 0xFF (poke 0x2FF8 [0xFF]
      (st [0x0F, 0x75, 0x45, 0xF8]))))) = some 0xFFFFFFFFFFFFFFFF ∧
    got (fun t => (mmVal 0 t, t.pc)) (step (setMm 0 0xFF (poke 0x2000 [0xFF]
      (st [0x0F, 0x75, 0x04, 0x25, 0x00, 0x20, 0x00, 0x00])))) = some (0xFFFFFFFFFFFFFFFF, 0x400008) ∧
    got (mmVal 0) (step (setGpr 0 0xABCD00002000 (setMm 0 0xFF (poke 0x2000 [0xFF]
      (st [0x67, 0x0F, 0x75, 0x00]))))) = some 0xFFFFFFFFFFFFFFFF ∧
    got (mmVal 4) (step (to32 (setMm 4 0xFF (poke 0x10 [0xFF] (st [0x0F, 0x75, 0x25, 0x10, 0x00, 0x00, 0x00]))))) =
      some 0xFFFFFFFFFFFFFFFF := by decide +kernel

/-- R17 (a) to (c): the x87 state after an MMX write to MM3: TOS 0, tags valid, high part of register 3 ones. -/
theorem test_mmx_x87 :
    got (fun t => (t.fsw, t.ftw, t.fpHigh.get 3, t.fpHigh.get 2)) (step { st [0x0F, 0x75, 0xD8] with fsw := 0x7800 }) =
      some (0x4000, 0x0000, 0xFFFF, 0x0000) := by decide +kernel

/-- V-S1: bytes; bits 511:128 stay. -/
theorem test_pcmpeqbXmm :
    got (vecVal 0) (step (setVec 0 (upper ++ x128) (setVec 1 (0#384 ++ y128) (st [0x66, 0x0F, 0x74, 0xC1])))) =
      some (upper ++ 0xFFFF0000FFFFFF00FFFFFFFFFF00FFFF#128) := by decide +kernel

/-- V-S4: REX.R selects XMM9; V-S5: REX.B. -/
theorem test_pcmpeqwXmm :
    got (fun t => (vecVal 9 t, t.pc))
      (step (setVec 9 (upper ++ x128) (setVec 1 (0#384 ++ y128) (st [0x66, 0x44, 0x0F, 0x75, 0xC9])))) =
      some (upper ++ 0xFFFF0000FFFF0000FFFFFFFF0000FFFF#128, 0x400005) ∧
    got (vecVal 0) (step (setVec 0 (0#384 ++ x128) (setVec 9 (upper ++ y128) (st [0x66, 0x41, 0x0F, 0x75, 0xC1])))) =
      some (0#384 ++ 0xFFFF0000FFFF0000FFFFFFFF0000FFFF#128) := by decide +kernel

/-- V-S3. -/
theorem test_pcmpeqdXmm :
    got (vecVal 0) (step (setVec 0 (upper ++ x128) (setVec 1 (0#384 ++ y128) (st [0x66, 0x0F, 0x76, 0xC1])))) =
      some (upper ++ 0x0000000000000000FFFFFFFF00000000#128) := by decide +kernel

/-- V-V5, bytes. -/
theorem test_vpcmpeqbVex128 : got (vecVal 0) (step (setVec 0 (upper ++ y128) (setVec 1 (upper ++ x128)
      (setVec 2 (0#384 ++ y128) (st [0xC5, 0xF1, 0x74, 0xC2]))))) =
      some (0#384 ++ 0xFFFF0000FFFFFF00FFFFFFFFFF00FFFF#128) := by decide +kernel

/-- V-V1 and, with W = 1 in three bytes, V-V3; V-V9: MAXVL = 128. -/
theorem test_vpcmpeqwVex128 : got (fun t => (vecVal 0 t, t.pc)) (step (setVec 0 (upper ++ y128)
      (setVec 1 (upper ++ x128) (setVec 2 (0#384 ++ y128) (st [0xC4, 0xE1, 0xF1, 0x75, 0xC2]))))) =
      some (0#384 ++ 0xFFFF0000FFFF0000FFFFFFFF0000FFFF#128, 0x400005) ∧
    got (vecVal 0) (step { setVec 1 (0#384 ++ x128) (setVec 2 (0#384 ++ y128) (st [0xC5, 0xF1, 0x75, 0xC2])) with
      cpu := ⟨⟨true, true, true, false, false, false, false, false⟩, .v128, .k16, .va48⟩ }) =
      some (0#384 ++ 0xFFFF0000FFFF0000FFFFFFFF0000FFFF#128) := by decide +kernel

/-- V-V5, doublewords. -/
theorem test_vpcmpeqdVex128 : got (vecVal 0) (step (setVec 0 (upper ++ y128) (setVec 1 (upper ++ x128)
      (setVec 2 (0#384 ++ y128) (st [0xC5, 0xF1, 0x76, 0xC2]))))) =
      some (0#384 ++ 0x0000000000000000FFFFFFFF00000000#128) := by decide +kernel

/-- R123 with the operands of V-V4: the byte mask in the high half, all ones in the low half. -/
theorem test_vpcmpeqbVex256 : got (vecVal 0) (step (setVec 0 (upper ++ y128) (setVec 1 (0#256 ++ x128 ++ x128)
      (setVec 2 (0#256 ++ y128 ++ x128) (st [0xC5, 0xF5, 0x74, 0xC2]))))) =
      some (0#256 ++ 0xFFFF0000FFFFFF00FFFFFFFFFF00FFFF#128 ++ BitVec.allOnes 128) := by decide +kernel

/-- V-V4. -/
theorem test_vpcmpeqwVex256 : got (vecVal 0) (step (setVec 0 (upper ++ y128) (setVec 1 (0#256 ++ x128 ++ x128)
      (setVec 2 (0#256 ++ y128 ++ x128) (st [0xC5, 0xF5, 0x75, 0xC2]))))) =
      some (0#256 ++ 0xFFFF0000FFFF0000FFFFFFFF0000FFFF#128 ++ BitVec.allOnes 128) := by decide +kernel

/-- R125 with the operands of V-V4. -/
theorem test_vpcmpeqdVex256 : got (vecVal 0) (step (setVec 0 (upper ++ y128) (setVec 1 (0#256 ++ x128 ++ x128)
      (setVec 2 (0#256 ++ y128 ++ x128) (st [0xC5, 0xF5, 0x76, 0xC2]))))) =
      some (0#256 ++ 0x0000000000000000FFFFFFFF00000000#128 ++ BitVec.allOnes 128) := by decide +kernel

def evexOperands (a b : BitVec 512) (bytes : List Byte) : State :=
  setK 1 0xFFFFFFFFFFFFFFFF (setVec 2 a (setVec 3 b (st bytes)))

/-- V-E4. -/
theorem test_vpcmpeqdEvex128 : got (kVal 1)
    (step (evexOperands (upper ++ x128) (0#384 ++ y128) [0x62, 0xF1, 0x6D, 0x08, 0x76, 0xCB])) = some 0x02 := by
  decide +kernel

/-- V-E6, doublewords. -/
theorem test_vpcmpeqdEvex256 : got (kVal 1) (step (evexOperands (0#256 ++ x128 ++ x128) (0#256 ++ y128 ++ x128)
    [0x62, 0xF1, 0x6D, 0x28, 0x76, 0xCB])) = some 0x2F := by decide +kernel

/-- Doubleword `j` is `j`. -/
def count32 : BitVec 512 := packLanes 512 32 (fun j => BitVec.ofNat 32 j) 16

/-- V-E9: broadcast of 5 at RAX, without and under two writemasks. -/
theorem test_vpcmpeqdEvex512 : got (kVal 1) (step (setGpr 0 0x2000 (poke 0x2000 [5]
      (evexOperands count32 0 [0x62, 0xF1, 0x6D, 0x58, 0x76, 0x08])))) = some 0x20 ∧
    got (kVal 1) (step (setK 2 0x00F0 (setGpr 0 0x2000 (poke 0x2000 [5]
      (evexOperands count32 0 [0x62, 0xF1, 0x6D, 0x5A, 0x76, 0x08]))))) = some 0x20 ∧
    got (kVal 1) (step (setK 2 0xFF0F (setGpr 0 0x2000 (poke 0x2000 [5]
      (evexOperands count32 0 [0x62, 0xF1, 0x6D, 0x5A, 0x76, 0x08]))))) = some 0 := by decide +kernel

/-- V-E11: an 8-bit displacement scaled by 4. -/
theorem test_vpcmpeqdEvex512_disp : got (fun t => (kVal 1 t, t.pc)) (step (setGpr 0 0x2000 (poke 0x2004 [5]
    (evexOperands count32 0 [0x62, 0xF1, 0x6D, 0x58, 0x76, 0x48, 0x01])))) = some (0x20, 0x400007) := by decide +kernel

/-- V-E3. -/
theorem test_vpcmpeqbEvex128 : got (kVal 1)
    (step (evexOperands (upper ++ x128) (0#384 ++ y128) [0x62, 0xF1, 0x6D, 0x08, 0x74, 0xCB])) = some 0xCEFB := by
  decide +kernel

/-- V-E6, bytes. -/
theorem test_vpcmpeqbEvex256 : got (kVal 1) (step (evexOperands (0#256 ++ x128 ++ x128) (0#256 ++ y128 ++ x128)
    [0x62, 0xF1, 0x6D, 0x28, 0x74, 0xCB])) = some 0xCEFBFFFF := by decide +kernel

/-- V-E8. -/
theorem test_vpcmpeqbEvex512 : got (kVal 1) (step (evexOperands (packLanes 512 8 (fun j => BitVec.ofNat 8 j) 64)
    (packLanes 512 8 (fun j => if j % 4 = 1 then BitVec.ofNat 8 j ^^^ 1#8 else BitVec.ofNat 8 j) 64)
    [0x62, 0xF1, 0x6D, 0x48, 0x74, 0xCB])) = some 0xDDDDDDDDDDDDDDDD := by decide +kernel

/-- V-E1, V-E2 (writemask 0FH), V-E13 (`aaa` = 000 with K2 = 0), V-E14 (writemask 0). -/
theorem test_vpcmpeqwEvex128 : got (fun t => (kVal 1 t, t.pc))
      (step (evexOperands (upper ++ x128) (0#384 ++ y128) [0x62, 0xF1, 0x6D, 0x08, 0x75, 0xCB])) =
      some (0xAD, 0x400006) ∧
    got (kVal 1) (step (setK 2 0x0F
      (evexOperands (upper ++ x128) (0#384 ++ y128) [0x62, 0xF1, 0x6D, 0x0A, 0x75, 0xCB]))) = some 0x0D ∧
    got (kVal 1) (step (evexOperands (upper ++ x128) (0#384 ++ y128) [0x62, 0xF1, 0x6D, 0x0A, 0x75, 0xCB])) =
      some 0 := by decide +kernel

/-- V-E12: the destination is the writemask; V-E15, V-E16: registers 19 and 18. -/
theorem test_vpcmpeqwEvex128_registers : got (kVal 1) (step (setK 1 5 (st [0x62, 0xF1, 0x6D, 0x09, 0x75, 0xC9]))) =
      some 5 ∧
    got (kVal 1) (step (setVec 2 (upper ++ x128) (setVec 19 (0#384 ++ y128)
      (st [0x62, 0xB1, 0x6D, 0x08, 0x75, 0xCB])))) = some 0xAD ∧
    got (kVal 1) (step (setVec 18 (upper ++ x128) (setVec 3 (0#384 ++ y128)
      (st [0x62, 0xF1, 0x6D, 0x00, 0x75, 0xCB])))) = some 0xAD := by decide +kernel

/-- V-E5. -/
theorem test_vpcmpeqwEvex256 : got (kVal 1) (step (evexOperands (0#256 ++ x128 ++ x128) (0#256 ++ y128 ++ x128)
    [0x62, 0xF1, 0x6D, 0x28, 0x75, 0xCB])) = some 0xADFF := by decide +kernel

/-- V-E7. -/
theorem test_vpcmpeqwEvex512 : got (kVal 1) (step (evexOperands (packLanes 512 16 (fun j => BitVec.ofNat 16 j) 32)
      (packLanes 512 16 (fun j => if j % 3 = 0 then BitVec.ofNat 16 j else 0xFFFF#16) 32)
      [0x62, 0xF1, 0x6D, 0x48, 0x75, 0xCB])) = some 0x49249249 ∧
    got (kVal 1) (step (setK 2 0xFFFF (evexOperands (packLanes 512 16 (fun j => BitVec.ofNat 16 j) 32)
      (packLanes 512 16 (fun j => if j % 3 = 0 then BitVec.ofNat 16 j else 0xFFFF#16) 32)
      [0x62, 0xF1, 0x6D, 0x4A, 0x75, 0xCB]))) = some 0x9249 := by decide +kernel

/-- V-E10: an 8-bit displacement scaled by 64; word 0 at RAX + 40H differs from zero. -/
theorem test_vpcmpeqwEvex512_disp : got (kVal 1) (step (setGpr 0 0x2000 (poke 0x2040 [1]
    (st [0x62, 0xF1, 0x6D, 0x48, 0x75, 0x48, 0x01])))) = some 0xFFFFFFFE := by decide +kernel

/-! ## Faults and refusals at execution (section 2.9) -/

def noMmx : Features := ⟨false, true, true, true, true, true, true, true⟩

/-- V-X1 to V-X5. -/
theorem test_faults_mmx : faultOf (step (withFeatures noMmx (st [0x0F, 0x75, 0xC1]))) = some .ud ∧
    faultOf (step { st [0x0F, 0x75, 0xC1] with cr0 := 4 }) = some .ud ∧
    faultOf (step { st [0x0F, 0x75, 0xC1] with cr0 := 8 }) = some .nm ∧
    faultOf (step { st [0x0F, 0x75, 0xC1] with cr0 := 12 }) = some .ud ∧
    faultOf (step { st [0x0F, 0x75, 0xC1] with fsw := 0x80 }) = some .mf := by decide +kernel

/-- V-X6 to V-X11. -/
theorem test_faults_memory : faultOf (step (setGpr 0 0x0000800000000000 (st [0x0F, 0x75, 0x00]))) = some .gp ∧
    faultOf (step (setGpr 4 0x0000800000000000 (st [0x0F, 0x75, 0x04, 0x24]))) = some .ss ∧
    faultOf (step (setGpr 0 0x00007FFFFFFFFFFC (st [0x0F, 0x75, 0x00]))) = some .gp ∧
    faultOf (step (withAccess [⟨0x2000, 7⟩, ⟨0x400000, 3⟩] (setGpr 0 0x2000 (st [0x0F, 0x75, 0x00])))) = some .pf ∧
    refusalOf (step (setGpr 0 0xFFFFFFFFFFFFFFFC (st [0x0F, 0x75, 0x00]))) = some .addressWrap ∧
    faultOf (step (checkAlign (setGpr 0 0x2001 (st [0x0F, 0x75, 0x00])))) = some .ac := by decide +kernel

/-- V-S7 and V-X12: a misaligned m128, OSFXSR = 0; V-V6: VEX needs no alignment. -/
theorem test_faults_sse : faultOf (step (setGpr 0 0x2008 (st [0x66, 0x0F, 0x75, 0x00]))) = some .gp ∧
    faultOf (step { st [0x66, 0x0F, 0x75, 0xC1] with cr4 := 0x40000 }) = some .ud ∧
    got (fun t => t.pc) (step (setGpr 0 0x2008 (st [0xC5, 0xF1, 0x75, 0x00]))) = some 0x400004 := by decide +kernel

/-- V-X13 to V-X17. -/
theorem test_faults_vex_evex : faultOf (step { st [0xC5, 0xF1, 0x75, 0xC2] with xcr0 := 0xE3 }) = some .ud ∧
    faultOf (step (withFeatures ⟨true, true, true, false, true, true, true, true⟩ (st [0xC5, 0xF5, 0x75, 0xC2]))) =
      some .ud ∧
    faultOf (step (withFeatures ⟨true, true, true, true, true, true, false, false⟩
      (st [0x62, 0xF1, 0x6D, 0x08, 0x75, 0xCB]))) = some .ud ∧
    got (fun t => t.pc) (step (withFeatures ⟨true, true, true, true, true, true, false, false⟩
      (st [0x62, 0xF1, 0x6D, 0x48, 0x75, 0xCB]))) = some 0x400006 ∧
    got (fun t => t.pc) (step (withFeatures ⟨true, true, true, true, false, false, false, true⟩
      (st [0x62, 0xF1, 0x6D, 0x08, 0x76, 0xCB]))) = some 0x400006 := by decide +kernel

/-- V-X18: no fault suppression under a partial writemask (log 11). -/
theorem test_fault_not_suppressed : faultOf (step (setK 2 1 (setGpr 0 0x2000 (withAccess [⟨0x2000, 2⟩, ⟨0x400000, 6⟩]
    (st [0x62, 0xF1, 0x6D, 0x4A, 0x75, 0x08]))))) = some .pf := by decide +kernel

/-- Section 2.8: the program ends after `0F 75`; R181: the second byte is not accessible; D2; R14. -/
theorem test_refused_fetch : refusalOf (step (st [0x0F, 0x75])) = some .runsPastEnd ∧
    refusalOf (step (withAccess [⟨0x400000, 1⟩] (st [0x0F, 0x75, 0xC1]))) = some .fetchFault ∧
    refusalOf (step State.reset) = some .mode ∧
    refusalOf (step (launch [0x0F, 0x75, 0xC1] { State.reset with pc := 0xFFFFFFFFFFFFFFFD })) = some .pcWrap := by
  decide +kernel

/-- The first step after `withFetchWord` at reset runs the instruction the decoder gives: rows 3, 6, 10 and an EVEX
word of V-E3. -/
theorem test_withFetchWord :
    got (fun t => t.pc) (step (State.reset.withFetchWord 24 0x000F75)) = some 0xFFFFFFF3 ∧
    got (fun t => t.pc) (step (State.reset.withFetchWord 24 0x660F76)) = some 0xFFFFFFF4 ∧
    got (fun t => t.pc) (step (State.reset.withFetchWord 32 0xC4010574)) = some 0xFFFFFFF5 ∧
    got (fun t => t.pc) (step (State.reset.withFetchWord 40 0x62F16D0874)) = some 0xFFFFFFF6 := by decide +kernel

/-! ## Witnesses: a state and operands that meet the hypotheses of each obligation, clause by clause -/

def s0 : State := st []
def eMm : LegacyEnc := ⟨[], none, 0, .mem (.base 0 .none)⟩
def eMr : LegacyEnc := ⟨[], none, 0, .reg 1⟩
def eXm : LegacyEnc := ⟨[.opSize], none, 0, .mem (.base 0 .none)⟩
def eXr : LegacyEnc := ⟨[.opSize], none, 0, .reg 1⟩
def eVm : VexEnc := ⟨[], .two false, 1, 0, .mem (.base 0 .none)⟩
def eVr : VexEnc := ⟨[], .two false, 1, 0, .reg 2⟩
def eEm : EvexEnc := ⟨[], false, false, false, 2, false, 2, 1, .mem (.base 0 .none)⟩
def eEr : EvexEnc := ⟨[], false, false, false, 2, false, 2, 1, .reg 3⟩
def eBm : EvexEnc := ⟨[], false, false, false, 2, true, 2, 1, .mem (.base 0 .none)⟩
/-- RAX holds the address. -/
def sAt (a : Addr) : State := setGpr 0 a s0
/-- An MMX instruction written out by its bytes, at the pc. -/
def sCode : State := st [0x0F, 0x75, 0xC1]

theorem room {m : ExecMode} {len : Nat} {s : State} (h : pcFits m len s = true) : PcRoom m len s :=
  (pcFits_iff m len s).mp h

theorem readable {n al ac la : Nat} {m : ExecMode} {s : State} (h : (decide (la + n ≤ 2 ^ m.addrBits) &&
    canonicalRange m s.cpu.vaBits la n && la % al == 0 && accessible s.access la n &&
    (!acEnabled s || la % ac == 0)) = true) : Readable n al ac m la s := by
  simp only [Bool.and_eq_true, decide_eq_true_eq, beq_iff_eq, Bool.or_eq_true, Bool.not_eq_true',
    canonicalRange_iff, accessible_iff] at h
  obtain ⟨⟨⟨⟨h1, h2⟩, h3⟩, h4⟩, h5⟩ := h
  exact ⟨h1, h2, h3, h4, fun ha => by rcases h5 with h5 | h5; simp [ha] at h5; exact h5⟩

theorem completes {o : Out} (h : (got (fun t => t.pc) o).isSome = true) : ∃ t, o = .next t := by
  cases o with
  | next s => exact ⟨s, rfl⟩
  | fault e => cases h
  | refused r => cases h

theorem test_witness_lanes : (0x1234#16 = 0x1234#16 ∧ 0x1234#16 ≠ 0x1235#16) ∧ (0x80#8 = 0x80#8 ∧ 0x80#8 ≠ 0x00#8) ∧
    (0xFFFFFFFF#32 = 0xFFFFFFFF#32 ∧ 0xFFFFFFFF#32 ≠ 0x7FFFFFFF#32) ∧
    (0 < 8 ∧ 7 < 8 ∧ 3 < 4 ∧ 15 < 16 ∧ 31 < 256 / elemBits .byte ∧ 7 < 256 / elemBits .dword ∧ 1 < 2) := by decide

/-- MemReadChecksInOrder: base 0 and FS; each clause, the wrap at its boundary. -/
theorem test_witness_memRead :
    (2 ^ ExecMode.m64.addrBits < (2 ^ 64 - 7) + 8 ∧ (2 ^ 64 - 8) + 8 ≤ 2 ^ ExecMode.m64.addrBits) ∧
    (∃ i, i < 8 ∧ ¬ CanonicalBits s0.cpu.vaBits (0x7FFFFFFFFFF9 + i)) ∧
    (∀ i, i < 8 → CanonicalBits s0.cpu.vaBits (0x2008 + i)) ∧
    (0x2008 % 16 ≠ 0 ∧ 0x2008 % 8 = 0) ∧
    (∃ i, i < 8 ∧ ¬ ByteAccessible (withAccess [⟨0x2000, 7⟩] s0) (0x2000 + i)) ∧
    (∀ i, i < 8 → ByteAccessible s0 (0x2000 + i)) ∧
    ((checkAlign s0).cr0.getLsbD 18 = true ∧ (checkAlign s0).eflags.getLsbD 18 = true ∧ (checkAlign s0).cpl = 3#2 ∧
      0x2001 % 8 ≠ 0) ∧
    ¬ (s0.cr0.getLsbD 18 = true ∧ s0.eflags.getLsbD 18 = true ∧ s0.cpl = 3#2 ∧ 0x2001 % 8 ≠ 0) ∧
    0x2001 = (s0.fsBase.toNat + (0x2001#64).toNat) % 2 ^ ExecMode.m64.addrBits := by
  refine ⟨by decide, ⟨7, by decide, fun h => ?_⟩, fun i hi j k hj _ hk _ => ?_, by decide,
    ⟨7, by decide, ?_⟩, fun i hi => ⟨⟨0, 2 ^ 64⟩, by decide +kernel, by simp, by simp only; omega⟩, by decide +kernel,
    by decide +kernel, by decide +kernel⟩
  · have := h 47 63 (by decide) (by decide) (by decide) (by decide)
    revert this
    decide
  · have big : ∀ j, 47 ≤ j → (0x2008 + i).testBit j = false := fun j hj =>
      Nat.testBit_lt_two_pow (Nat.lt_of_lt_of_le (show 0x2008 + i < 2 ^ 47 by omega) (Nat.pow_le_pow_right (by decide) hj))
    rw [big j hj, big k hk]
  · rintro ⟨r, hr, h1, h2⟩
    simp only [withAccess, List.mem_singleton] at hr
    subst hr
    simp at h2

theorem test_witness_address : (Pfx.addrSize ∈ [Pfx.addrSize] ∧ Pfx.addrSize ∉ ([] : List Pfx)) ∧
    (pfxWf [Pfx.addrSize, .seg .fs] = true ∧ Pfx.seg .fs ∈ [Pfx.addrSize, .seg .fs]) ∧
    (∀ seg, Pfx.seg seg ∉ [Pfx.addrSize]) ∧
    (MemRef.base 5 (.d8 0xF8)).wf = true ∧ (MemRef.base 0 .none).wf = true ∧ (MemRef.sib 0 4 4 .none).wf = true ∧
    (MemRef.sib 0 4 5 (.d8 0)).wf = true ∧ (MemRef.sib 0 4 0 .none).wf = true := by
  refine ⟨by decide, by decide, fun seg => by simp, by decide, by decide, by decide, by decide, by decide⟩

/-- The hypotheses of the results and of the alignment statement for the MMX forms: register source, memory source,
aligned and misaligned with and without alignment checking. -/
theorem test_witness_mmx : s0.mode = .admitted .m64 ∧ PcRoom .m64 (encode (Instr.pcmpeqwMmx eMr)).length s0 ∧
    MmxReady s0 ∧ MmxSourceIs .m64 eMr s0 0 ∧ MmxSourceIs .m64 eMm (sAt 0x2000) 0 ∧
    PcRoom .m64 (encode (Instr.pcmpeqwMmx eMm)).length (sAt 0x2000) ∧ MmxReady (sAt 0x2000) ∧
    MmxReady (checkAlign (sAt 0x2001)) ∧ Readable 8 1 1 .m64 0x2001 (checkAlign (sAt 0x2001)) ∧
    OperandAt (mmxMemForm eMm) .m64 (pcNext eMm.len (checkAlign (sAt 0x2001))) (.base 0 .none)
      (checkAlign (sAt 0x2001)) 0x2001 ∧
    (acEnabled (checkAlign (sAt 0x2001)) = true ∧ 0x2001 % 8 ≠ 0) ∧ acEnabled (sAt 0x2000) = false := by
  refine ⟨rfl, room (by decide +kernel), by unfold MmxReady; decide +kernel, rfl,
    ⟨0x2000, ⟨64, rfl, by decide +kernel⟩, readable (by decide +kernel), by decide +kernel⟩,
    room (by decide +kernel), by unfold MmxReady; decide +kernel, by unfold MmxReady; decide +kernel,
    readable (by decide +kernel), ⟨64, rfl, by decide +kernel⟩, by decide +kernel, by decide +kernel⟩

/-- The same for the legacy SSE forms: 2000H is a multiple of 16, 2008H is not. -/
theorem test_witness_sse : PcRoom .m64 (encode (Instr.pcmpeqwXmm eXr)).length s0 ∧ SseReady s0 ∧
    XmmSourceIs .m64 eXr s0 0 ∧ (∃ v, XmmSourceIs .m64 eXm (sAt 0x2000) v) ∧ SseReady (sAt 0x2008) ∧
    OperandAt (xmmMemForm eXm) .m64 (pcNext eXm.len (sAt 0x2008)) (.base 0 .none) (sAt 0x2008) 0x2008 ∧
    Readable 16 1 1 .m64 0x2008 (sAt 0x2008) ∧ 0x2008 % 16 ≠ 0 := by
  refine ⟨room (by decide +kernel), by unfold SseReady; decide +kernel,
    (by decide +kernel : 0#128 = (vecVal 1 s0).extractLsb' 0 128),
    ⟨_, 0x2000, ⟨64, rfl, by decide +kernel⟩, readable (by decide +kernel), rfl⟩, by unfold SseReady; decide +kernel,
    ⟨64, rfl, by decide +kernel⟩, readable (by decide +kernel), by decide⟩

/-- The same for the VEX forms, 128 and 256 bits. -/
theorem test_witness_vex : PcRoom .m64 (encode (Instr.vpcmpeqwVex256 eVr)).length s0 ∧ s0.cpu.consistent = true ∧
    VexFeature false s0 ∧ VexFeature true s0 ∧ VexReady s0 ∧ VexSourceIs (vexBits true) .m64 eVr s0 0 ∧
    VexSourceIs (vexBits false) .m64 eVr s0 0 ∧ (∃ v, VexSourceIs (vexBits true) .m64 eVm (sAt 0x2008) v) ∧
    (true, Instr.vpcmpeqwVex256 eVr) ∈ [(false, Instr.vpcmpeqbVex128 eVr), (true, .vpcmpeqwVex256 eVr)] := by
  refine ⟨room (by decide +kernel), by decide, rfl, rfl, by unfold VexReady; decide +kernel,
    (by decide +kernel : 0#256 = (vecVal 2 s0).extractLsb' 0 256),
    (by decide +kernel : 0#128 = (vecVal 2 s0).extractLsb' 0 128),
    ⟨_, 0x2008, ⟨64, rfl, by decide +kernel⟩, readable (by decide +kernel), rfl⟩, by simp⟩

/-- The same for the EVEX forms: register, whole-vector and broadcast source, the last misaligned as well. -/
theorem test_witness_evex : PcRoom .m64 (encode (Instr.vpcmpeqwEvex512 eEr)).length s0 ∧ EvexFeature .v512 .word s0 ∧
    EvexFeature .v128 .dword s0 ∧ EvexReady s0 ∧ EvexSourceIs (vecBits .v512) .m64 eEr s0 0 ∧
    (∃ v, EvexSourceIs (vecBits .v128) .m64 eEm (sAt 0x2001) v) ∧ eEm.bcst = false ∧ eEr.rm.isReg = true ∧
    (∃ v, BcstSourceIs .m64 eBm (sAt 0x2000) v) ∧ eBm.bcst = true ∧
    OperandAt (bcstMemForm eBm) .m64 (pcNext eBm.len (checkAlign (sAt 0x2001))) (.base 0 .none)
      (checkAlign (sAt 0x2001)) 0x2001 ∧
    Readable 4 1 1 .m64 0x2001 (checkAlign (sAt 0x2001)) ∧ EvexReady (checkAlign (sAt 0x2001)) ∧
    (acEnabled (checkAlign (sAt 0x2001)) = true ∧ 0x2001 % 4 ≠ 0) := by
  refine ⟨room (by decide +kernel), .inl rfl, .inr ⟨.inr rfl, rfl⟩, by unfold EvexReady VexReady; decide +kernel,
    (by decide +kernel : 0#512 = (vecVal 3 s0).extractLsb' 0 512), ⟨_, 0x2001, ⟨64, rfl, by decide +kernel⟩, readable (by decide +kernel), rfl⟩, rfl, rfl,
    ⟨_, _, rfl, 0x2000, ⟨64, rfl, by decide +kernel⟩, readable (by decide +kernel), rfl⟩, rfl,
    ⟨64, rfl, by decide +kernel⟩, readable (by decide +kernel), by unfold EvexReady VexReady; decide +kernel,
    by decide +kernel⟩

/-- SameRegisterComparesAllOnes: one register as every source. -/
theorem test_witness_same_register : (⟨[], none, 3, .reg 3⟩ : LegacyEnc).rm = .reg 3 ∧
    (let e : LegacyEnc := ⟨[.opSize], some ⟨false, true, false, true⟩, 7, .reg 7⟩
     e.rm = .reg e.reg ∧ e.b = e.r ∧ PcRoom .m64 (encode (Instr.pcmpeqwXmm e)).length s0) ∧
    (let e : VexEnc := ⟨[], .three false false true false, 15, 0, .reg 7⟩
     0#1 ++ e.vvvv = vecNum4 e.head.b 7 ∧ PcRoom .m64 (encode (Instr.vpcmpeqwVex256 e)).length s0) ∧
    (let e : EvexEnc := ⟨[], true, true, false, 31, false, 0, 7, .reg 7⟩
     e.v5 = vecNum5 e.x e.b 7 ∧ e.aaa = 0#3 ∧ PcRoom .m64 (encode (Instr.vpcmpeqwEvex512 e)).length s0) := by
  refine ⟨rfl, ⟨rfl, rfl, room (by decide +kernel)⟩, ⟨by decide, room (by decide +kernel)⟩,
    by decide, rfl, room (by decide +kernel)⟩

/-- Frames, WritemaskZeroesMaskedElements, and every statement about a completed instruction: one of each class
completes; under writemask 2 (K2 = 0) and with `aaa` = 000 and a destination other than k0. -/
theorem test_witness_completed : (∃ t, exec (.pcmpeqwMmx eMr) s0 = .next t) ∧
    (∃ t, exec (.pcmpeqwXmm eXr) s0 = .next t) ∧ (∃ t, exec (.vpcmpeqwVex256 eVr) s0 = .next t) ∧
    (∃ t, exec (.vpcmpeqwEvex512 eEr) s0 = .next t) ∧ eEr.aaa ≠ 0#3 ∧ (kVal eEr.aaa s0).getLsbD 0 = false ∧
    kVal eEr.aaa s0 = 0#64 ∧
    (let e := { eEr with aaa := 0 }
     (∃ t, exec (.vpcmpeqwEvex512 e) s0 = .next t) ∧ e.aaa = 0#3 ∧ e.reg ≠ 0#3) := by
  refine ⟨completes (by decide +kernel), completes (by decide +kernel), completes (by decide +kernel),
    completes (by decide +kernel), by decide, by decide +kernel, by decide +kernel, completes (by decide +kernel), rfl,
    by decide⟩

/-- OldDestinationPlaysNoPart: registers 0, 1, 2 of `vpcmpeqw xmm0, xmm1, xmm2`; a mask destination that is not the
writemask, and one without writemask. -/
theorem test_witness_old_destination : vecNum4 eVr.head.r eVr.reg ≠ 0#1 ++ eVr.vvvv ∧
    (∀ n, eVr.rm = .reg n → vecNum4 eVr.head.r eVr.reg ≠ vecNum4 eVr.head.b n) ∧ eEr.aaa ≠ eEr.reg ∧
    { eEr with aaa := 0 }.aaa = 0#3 := by
  refine ⟨by decide, fun n h => ?_, by decide, rfl⟩
  cases h
  decide

/-- Flags, privilege: EFLAGS all ones but AC; a change that keeps AC_ENABLED; CPL 3 without alignment checking. -/
theorem test_witness_flags : (0xFFFBFFFF#32).getLsbD 18 = s0.eflags.getLsbD 18 ∧
    acEnabled { s0 with eflags := 0xFFFFFFFF } = acEnabled s0 ∧ acEnabled { s0 with cpl := 3 } = acEnabled s0 := by
  decide +kernel

/-- MissingFeatureIsUd, and the three statements about control bits: each clause. -/
theorem test_witness_controls : ¬ FormFeature (.pcmpeqwMmx eMr) (withFeatures noMmx s0) ∧
    PcRoom .m64 (encode (Instr.pcmpeqwMmx eMr)).length (withFeatures noMmx s0) ∧
    (withFeatures noMmx s0).mode = .admitted .m64 ∧
    ({ s0 with cr0 := 4 }.cr0.getLsbD 2 = true ∧ { s0 with cr0 := 8 }.cr0.getLsbD 2 = false ∧
      { s0 with cr0 := 8 }.cr0.getLsbD 3 = true ∧ { s0 with fsw := 0x80 }.fsw.getLsbD 7 = true ∧
      s0.cr0.getLsbD 3 = false ∧ s0.cr4.getLsbD 9 = true ∧ { s0 with cr4 := 0 }.cr4.getLsbD 9 = false) ∧
    ({ s0 with cr4 := 0 }.cr4.getLsbD 18 = false ∧ { s0 with xcr0 := 0xE3 }.xcr0.extractLsb' 1 2 ≠ 3#2 ∧
      { s0 with xcr0 := 0x67 }.xcr0.extractLsb' 5 3 ≠ 7#3 ∧ s0.cr4.getLsbD 18 = true ∧
      s0.xcr0.extractLsb' 1 2 = 3#2 ∧ s0.xcr0.extractLsb' 5 3 = 7#3) ∧
    ¬ VexFeature true (withFeatures ⟨true, true, true, false, false, false, false, false⟩ s0) ∧
    ¬ EvexFeature .v128 .word (withFeatures ⟨true, true, true, true, true, true, false, false⟩ s0) := by
  refine ⟨by unfold FormFeature; decide +kernel, room (by decide +kernel), rfl, by decide +kernel, by decide +kernel,
    by unfold VexFeature; decide +kernel, by unfold EvexFeature; decide +kernel⟩

def resultFault {α : Type} : Result α → Option (Fault ⊕ Refusal)
  | .next _ => none
  | .fault e => some (.inl e)
  | .refused r => some (.inr r)

/-- SourceReadStopsTheInstruction: a read that faults (non-canonical) and one that is refused (across the top), for the
EVEX whole vector both, under writemask 2. -/
theorem test_witness_source_stops :
    resultFault (memOperand 64 (mmxMemForm eMm) .m64 (pcNext eMm.len (sAt 0x0000800000000000)) (.base 0 .none)
      (sAt 0x0000800000000000)) = some (.inl .gp) ∧
    resultFault (memOperand 128 (xmmMemForm eXm) .m64 (pcNext eXm.len (sAt 0xFFFFFFFFFFFFFFF8)) (.base 0 .none)
      (sAt 0xFFFFFFFFFFFFFFF8)) = some (.inr .addressWrap) ∧
    resultFault (memOperand 256 (vexMemForm eVm) .m64 (pcNext eVm.len (sAt 0x00007FFFFFFFFFF0)) (.base 0 .none)
      (sAt 0x00007FFFFFFFFFF0)) = some (.inl .gp) ∧
    resultFault (memOperand 32 (bcstMemForm eBm) .m64 (pcNext eBm.len (sAt 0xFFFFFFFFFFFFFFFD)) (.base 0 .none)
      (sAt 0xFFFFFFFFFFFFFFFD)) = some (.inr .addressWrap) ∧
    (resultFault (memOperand 512 (evexMemForm 512 eEm) .m64 (pcNext eEm.len (sAt 0x00007FFFFFFFFFC1)) (.base 0 .none)
        (sAt 0x00007FFFFFFFFFC1)) = some (.inl .gp) ∧
      resultFault (memOperand 512 (evexMemForm 512 eEm) .m64 (pcNext eEm.len (sAt 0xFFFFFFFFFFFFFFC1)) (.base 0 .none)
        (sAt 0xFFFFFFFFFFFFFFC1)) = some (.inr .addressWrap) ∧
      eEm.bcst = false ∧ eEm.aaa = 2#3) ∧
    (PcRoom .m64 eEm.len (sAt 0x00007FFFFFFFFFC1) ∧ EvexFeature .v512 .word (sAt 0x00007FFFFFFFFFC1) ∧
      EvexReady (sAt 0x00007FFFFFFFFFC1)) ∧
    (PcRoom .m64 eMm.len (sAt 0x0000800000000000) ∧ MmxReady (sAt 0x0000800000000000)) ∧
    (PcRoom .m64 eXm.len (sAt 0xFFFFFFFFFFFFFFF8) ∧ SseReady (sAt 0xFFFFFFFFFFFFFFF8)) ∧
    (PcRoom .m64 eVm.len (sAt 0x00007FFFFFFFFFF0) ∧ VexFeature true (sAt 0x00007FFFFFFFFFF0) ∧
      VexReady (sAt 0x00007FFFFFFFFFF0)) ∧
    (PcRoom .m64 eBm.len (sAt 0xFFFFFFFFFFFFFFFD) ∧ EvexFeature .v128 .dword (sAt 0xFFFFFFFFFFFFFFFD) ∧
      EvexReady (sAt 0xFFFFFFFFFFFFFFFD)) := by
  refine ⟨by decide +kernel, by decide +kernel, by decide +kernel, by decide +kernel,
    ⟨by decide +kernel, by decide +kernel, rfl, rfl⟩,
    ⟨room (by decide +kernel), .inl rfl, by unfold EvexReady VexReady; decide +kernel⟩,
    ⟨room (by decide +kernel), by unfold MmxReady; decide +kernel⟩,
    ⟨room (by decide +kernel), by unfold SseReady; decide +kernel⟩,
    ⟨room (by decide +kernel), rfl, by unfold VexReady; decide +kernel⟩,
    room (by decide +kernel), .inl rfl, by unfold EvexReady VexReady; decide +kernel⟩

/-- ExceptionsOfEachClass: each premise is met: `#MF`, `#AC` of an MMX form and of a broadcast, a register source. -/
theorem test_witness_exceptions : faultOf (exec (.pcmpeqwMmx eMr) { s0 with fsw := 0x80 }) = some .mf ∧
    faultOf (exec (.pcmpeqwMmx eMm) (checkAlign (sAt 0x2001))) = some .ac ∧
    faultOf (exec (.vpcmpeqdEvex128 eBm) (checkAlign (sAt 0x2001))) = some .ac ∧
    faultOf (exec (.pcmpeqwXmm eXr) { s0 with cr0 := 8 }) = some .nm ∧
    faultOf (exec (.vpcmpeqwVex128 eVr) { s0 with cr0 := 8 }) = some .nm ∧
    faultOf (exec (.vpcmpeqwEvex128 eEr) { s0 with cr0 := 8 }) = some .nm := by decide +kernel

/-- Encoding statements: well-formed instructions of each class, with and without REX; prefixes on both sides of F0H;
a prefix repeated in its group; a REX byte before a prefix. -/
theorem test_witness_encoding : (Instr.pcmpeqwMmx eMm).wf .m64 = true ∧ (Instr.pcmpeqwXmm eXr).wf .m32 = true ∧
    (Instr.vpcmpeqwVex256 eVm).wf .m32 = true ∧ (Instr.vpcmpeqdEvex512 eBm).wf .m64 = true ∧
    pfxWf ([Pfx.seg .cs] ++ [.opSize, .addrSize]) = true ∧ Pfx.opSize ∈ [Pfx.opSize] ∧
    (0xC5#8 ∈ [0xC4#8, 0xC5#8, 0x62#8] ∧ (0xF1#8).extractLsb' 6 2 = 3#2 ∧ (0x71#8).extractLsb' 6 2 ≠ 3#2 ∧
      (0x31#8).extractLsb' 6 2 ≠ 3#2) ∧
    (Pfx.seg .ds ∈ [Pfx.seg .ds] ∧ (Pfx.seg .ds).sameGroup (.seg .cs) = true) ∧
    (0x66#8 ∈ [0x26#8, 0x66#8] ∧ 0x40#8 ≤ 0x4F#8) ∧
    (let rex : Rex := ⟨false, true, false, true⟩
     rex.r = true ∧ rex.b = true ∧ RegMem.isReg (.reg 1) = true ∧ RegMem.wf (.mem (.base 0 .none)) = true) ∧
    (some (⟨true, false, false, false⟩ : Rex)).isSome = true := by decide

/-- Reserved EVEX fields and 16-bit addressing: for each clause, bytes that meet it (section 2.8). -/
theorem test_witness_reserved : ((0xF1#8).extractLsb' 0 4 = 1#4 ∧ (0x6D#8).extractLsb' 0 3 = 5#3) ∧
    ((0x88#8).getLsbD 7 = true ∧ (0x68#8).extractLsb' 5 2 = 3#2 ∧ (0x71#8).getLsbD 7 = false ∧
      (0xE1#8).getLsbD 4 = false ∧ (0xED#8).getLsbD 7 = true ∧ (0x18#8).getLsbD 4 = true) ∧
    ((0xD1#8).extractLsb' 6 2 = 3#2 ∧ (0xD1#8).getLsbD 5 = false ∧ (0x2D#8).getLsbD 6 = false ∧
      (0x00#8).getLsbD 3 = false) ∧
    (pfxWf [Pfx.addrSize] = true ∧ Pfx.addrSize ∈ [Pfx.addrSize] ∧ (7#4).toNat < 8 ∧ (7#5).toNat < 8) ∧
    ((0xC1#8).extractLsb' 6 2 = 3#2 ∧ (0xC1#8).extractLsb' 0 5 = 1#5 ∧ (0x71#8).extractLsb' 0 2 = 1#2 ∧
      (0xC1#8).getLsbD 5 = false ∧ (0x31#8).getLsbD 6 = false) := by decide

/-- The same in 32-bit mode with EVEX.b = 1 on VPCMPEQD: under 67H a broadcast operand is refused for its address size
(R59), a register source for the broadcast (R65). -/
theorem test_reserved_broadcast32 : decode .m32 [0x67, 0x62, 0xF1, 0x6D, 0x18, 0x76, 0x08] = .error .addr16 ∧
    decode .m32 [0x62, 0xF1, 0x6D, 0x18, 0x76, 0xC8] = .error .evexReservedField ∧
    (0xF1#8).extractLsb' 6 2 = 3#2 ∧ (0x18#8).getLsbD 4 = true ∧ 0xC8#8 = modRmByte 3#2 1#3 0#3 := by decide

/-- DecodeAnswersOnlyEncodedInstructions, bytes of no form: a first byte (90H, in 32-bit mode 48H), a byte after REX, an
opcode, and in VEX and EVEX prefixes each field that D1 and R72 ask for. -/
theorem test_witness_unknown : (pfxWf ([Pfx.seg .cs] ++ [.addrSize]) = true ∧ Pfx.opSize ∉ [Pfx.addrSize] ∧
      [0xF0#8] ∈ [[], [0xF0#8], [0xF2#8], [0xF3#8]]) ∧
    (0x90#8 ∉ [0x26#8, 0x2E#8, 0x36#8, 0x3E#8, 0x64#8, 0x65#8, 0x66#8, 0x67#8, 0xF0#8, 0xF2#8, 0xF3#8] ∧
      0x90#8 ∉ [0x0F#8, 0xC4#8, 0xC5#8, 0x62#8] ∧ 0x4F#8 < 0x90#8 ∧ 0x48#8 ∉ [0x0F#8, 0xC4#8, 0xC5#8, 0x62#8]) ∧
    0x77#8 ∉ [0x74#8, 0x75#8, 0x76#8] ∧
    ((0xF0#8).extractLsb' 6 2 = 3#2 ∧ (0xF0#8).extractLsb' 0 2 ≠ 1#2) ∧
    ((0xE2#8).extractLsb' 6 2 = 3#2 ∧ (0xE2#8).extractLsb' 0 5 ≠ 1#5) ∧
    ((0xF9#8).getLsbD 3 = true ∧ (0xF2#8).extractLsb' 0 3 ≠ 1#3 ∧ (0x69#8).getLsbD 2 = false ∧
      (0x6C#8).extractLsb' 0 2 ≠ 1#2) := by decide

/-- StepRunsTheDecodedInstruction, DecodeAnswersOnlyEncodedInstructions: the bytes at the pc decode. -/
theorem test_witness_decoded : sCode.mode = .admitted .m64 ∧
    decode .m64 (window .m64 sCode) = .ok (.pcmpeqwMmx eMr, []) := by decide +kernel

/-- The decoder's answer to the bytes at the pc of a launched program. -/
def answer (m : ExecMode) (bytes : List Byte) : Except DecodeError (Instr × List Byte) := decode m (window m (st bytes))

/-- StepRunsTheDecodedInstruction, the other answers: `#UD` (with nothing after the opcode, log 27) and each refusal, from
bytes of section 2.8. -/
theorem test_witness_decode_errors : answer .m64 [0xF0, 0x0F, 0x75] = .error .ud ∧
    answer .m64 [0x0F, 0x77] = .error .unknownOpcode ∧ answer .m64 [0x48, 0x66, 0x0F] = .error .misplacedRex ∧
    answer .m64 [0x66, 0x66, 0x0F] = .error .repeatedPrefix ∧ answer .m64 [0xF3, 0x0F, 0x75] = .error .reservedPrefix ∧
    answer .m64 [0x44, 0x0F, 0x75, 0xC1] = .error .rexOnMmxRegister ∧
    answer .m32 [0xC4, 0xC1, 0x71, 0x75, 0xC2] = .error .vexHighRegIn32 ∧
    answer .m64 [0x62, 0xF1, 0x6D, 0x88, 0x75, 0xCB] = .error .evexReservedField ∧
    answer .m32 [0x67, 0x0F, 0x75, 0x00] = .error .addr16 := by decide +kernel

/-- What the step makes of them: the fault of `#UD`, and two of the refusals by name. -/
theorem test_decode_errors_in_step : faultOf (step (st [0xF0, 0x0F, 0x75])) = some .ud ∧
    refusalOf (step (st [0xF3, 0x0F, 0x75])) = some .reservedPrefix ∧
    refusalOf (step (to32 (st [0x67, 0x0F, 0x75, 0x00]))) = some .addr16 := by decide +kernel

theorem codeAt {m : ExecMode} {bs : List Byte} {s : State} (h : ((List.range bs.length).all fun j =>
    (fetchStopAt m (s.pc.toNat + j) s).isNone && Memory.read s.mem (s.pc.toNat + j) == bs.getD j 0) = true) :
    CodeAtPc m bs s := by
  intro j hj
  have := List.all_eq_true.mp h j (List.mem_range.mpr hj)
  simp only [Bool.and_eq_true, Option.isNone_iff_eq_none, beq_iff_eq, List.getD_eq_getElem?_getD,
    List.getElem?_eq_getElem hj, Option.getD_some] at this
  exact ⟨(fetchStopAt_eq_none_iff ..).mp this.1, this.2⟩

/-- StepExecutesTheBytesAtThePc: all the bytes of an instruction stand at the pc. -/
theorem test_witness_code : (Instr.pcmpeqwMmx eMr).wf .m64 = true ∧
    CodeAtPc .m64 (encode (.pcmpeqwMmx eMr)) sCode := by
  exact ⟨by decide, codeAt (by decide +kernel)⟩

/-- InstructionPastTheProgramEndIsRefused: at `k` = 0 (the end of the program) and `k` = 2 (its last byte missing). -/
theorem test_witness_past_end :
    (CodeAtPc .m64 ((encode (.pcmpeqwMmx eMr)).take 0) s0 ∧ s0.pc.toNat + 0 = s0.code.base.toNat + s0.code.len) ∧
    (let s := st [0x0F, 0x75]
     CodeAtPc .m64 ((encode (.pcmpeqwMmx eMr)).take 2) s ∧ s.pc.toNat + 2 = s.code.base.toNat + s.code.len ∧
     2 < (encode (Instr.pcmpeqwMmx eMr)).length ∧ s.pc.toNat + 2 < 2 ^ ExecMode.m64.addrBits ∧
     IsCanonical s.cpu.vaBits (s.pc.toNat + 2)) := by
  refine ⟨⟨codeAt (by decide +kernel), by decide +kernel⟩, codeAt (by decide +kernel), by decide +kernel,
    by decide, by decide +kernel, .inl (by decide +kernel)⟩

/-- InaccessibleCodeIsRefused: the first byte, and the last. -/
theorem test_witness_inaccessible :
    (let s := withAccess [] sCode
     CodeAtPc .m64 ((encode (.pcmpeqwMmx eMr)).take 0) s ∧ ¬ ByteAccessible s (s.pc.toNat + 0)) ∧
    (let s := withAccess [⟨0x400000, 2⟩] sCode
     CodeAtPc .m64 ((encode (.pcmpeqwMmx eMr)).take 2) s ∧ ¬ ByteAccessible s (s.pc.toNat + 2) ∧
     s.code.base.toNat ≤ s.pc.toNat + 2 ∧ s.pc.toNat + 2 < s.code.base.toNat + s.code.len ∧
     s.pc.toNat + 2 < 2 ^ ExecMode.m64.addrBits ∧ IsCanonical s.cpu.vaBits (s.pc.toNat + 2)) := by
  have hp : sCode.pc.toNat = 0x400000 := by decide +kernel
  refine ⟨⟨codeAt (by decide +kernel), ?_⟩, codeAt (by decide +kernel), ?_, by decide +kernel, by decide +kernel,
    by decide +kernel, .inl (by decide +kernel)⟩
  · rintro ⟨r, hr, -⟩
    simp [withAccess] at hr
  · rintro ⟨r, hr, h1, h2⟩
    simp only [withAccess, List.mem_singleton] at hr
    subst hr
    have : (withAccess [⟨0x400000, 2⟩] sCode).pc = sCode.pc := rfl
    rw [this, hp] at h2
    simp at h2

/-- OtherModesAreRefused: after reset. -/
theorem test_witness_other_mode : ∀ m, State.reset.mode ≠ .admitted m := by
  intro m h
  cases h

/-- PcWrapIsRefused: in 64-bit mode the instruction that ends at the top, and the one whose next address is not
canonical; in 32-bit mode the one that ends at 2^32. -/
theorem test_witness_pc_wrap :
    (let s := { s0 with pc := 0xFFFFFFFFFFFFFFFD }
     2 ^ ExecMode.m64.addrBits ≤ s.pc.toNat + (encode (Instr.pcmpeqwMmx eMr)).length) ∧
    (let s := { s0 with pc := 0x00007FFFFFFFFFFD }
     3 ≤ (encode (Instr.pcmpeqwMmx eMr)).length ∧ ¬ IsCanonical s.cpu.vaBits (s.pc.toNat + 3)) ∧
    (let s := to32 { s0 with pc := 0xFFFFFFFD }
     s.mode = .admitted .m32 ∧ 2 ^ ExecMode.m32.addrBits ≤ s.pc.toNat + (encode (Instr.pcmpeqwMmx eMr)).length) := by
  refine ⟨by decide +kernel, ⟨by decide, ?_⟩, rfl, by decide +kernel⟩
  unfold IsCanonical
  decide +kernel

/-- PcWrapIsRefused in the step: the pc itself not canonical, the third byte of an instruction not canonical, and in
32-bit mode its third byte at 2^32. -/
theorem test_witness_pc_wrap_step :
    (let s := { s0 with pc := 0x0000800000000000 }
     CodeAtPc .m64 ((encode (.pcmpeqwMmx eMr)).take 0) s ∧ ¬ IsCanonical s.cpu.vaBits (s.pc.toNat + 0)) ∧
    (let s := launch [0x0F, 0x75] { State.reset with pc := 0x00007FFFFFFFFFFE }
     CodeAtPc .m64 ((encode (.pcmpeqwMmx eMr)).take 2) s ∧ ¬ IsCanonical s.cpu.vaBits (s.pc.toNat + 2) ∧
     refusalOf (step s) = some .pcWrap) ∧
    (let s := to32 (launch [0x0F, 0x75] { State.reset with pc := 0xFFFFFFFE })
     (Instr.pcmpeqwMmx eMr).wf .m32 = true ∧ CodeAtPc .m32 ((encode (.pcmpeqwMmx eMr)).take 2) s ∧
     2 ^ ExecMode.m32.addrBits ≤ s.pc.toNat + 2 ∧ refusalOf (step s) = some .pcWrap) := by
  unfold IsCanonical
  exact ⟨⟨codeAt (by decide +kernel), by decide +kernel⟩, ⟨codeAt (by decide +kernel), by decide +kernel, by decide +kernel⟩,
    by decide, codeAt (by decide +kernel), by decide +kernel, by decide +kernel⟩

/-- IgnoredWidthBitsChangeNothing, TwoAndThreeByteVexAgree: a REX, a register source, and a completed two-byte form in
a place with room for the three-byte form. -/
theorem test_witness_ignored_bits : { eXr with rex := some ⟨true, false, false, false⟩ }.rex =
      some ⟨true, false, false, false⟩ ∧ eVr.rm = .reg 2 ∧
    PcRoom .m64 (encode (.vpcmpeqwVex128 { eVr with head := .three false false false true })).length s0 ∧
    ∃ t, exec (.vpcmpeqwVex128 { eVr with head := .two false }) s0 = .next t :=
  ⟨rfl, rfl, room (by decide +kernel), completes (by decide +kernel)⟩

/-- The invariant holds at a launched state that has a next step, and a run of one step reaches that next state. -/
theorem test_witness_invariant : Inv sCode ∧ sCode.pc = sCode.code.base ∧ ∃ t, step sCode = .next t ∧ Reaches 1 sCode t := by
  obtain ⟨t, ht⟩ := completes (o := step sCode) (by decide +kernel)
  refine ⟨⟨wf_launch _ _ rfl, ⟨fun i => ?_, fun i => ?_⟩, fun m hm => ?_, by decide +kernel⟩, by decide +kernel,
    t, ht, t, ht, rfl⟩
  · exact (vecVal i sCode).isLt
  · exact (kVal i sCode).isLt
  · have hp : sCode.pc.toNat = 0x400000 := by decide +kernel
    have : m = .m64 := by
      have : sCode.mode = .admitted .m64 := rfl
      rw [hm] at this
      cases this
      rfl
    subst this
    rw [hp]
    exact ⟨by decide, fun _ => .inl (by decide +kernel)⟩

/-- R183 (a): a program of one instruction is final after it, its next step is refused; an empty program stops without a
final state. -/
theorem test_witness_final : (∃ t, step sCode = .next t ∧ Final sCode t ∧ refusalOf (step t) = some .runsPastEnd) ∧
    (s0.pc = s0.code.base ∧ s0.code.len = 0 ∧ refusalOf (step s0) = some .runsPastEnd) := by
  have h : got (fun t => (t.pc, t.code, refusalOf (step t))) (step sCode) =
      some (0x400003, ⟨0x400000, 3⟩, some .runsPastEnd) := by decide +kernel
  obtain ⟨t, ht⟩ := completes (o := step sCode) (by decide +kernel)
  rw [ht] at h
  simp only [got, Option.some.injEq, Prod.mk.injEq] at h
  obtain ⟨h1, h2, h3⟩ := h
  refine ⟨⟨t, ht, ⟨by decide +kernel, ⟨0, t, ht, rfl⟩, ?_⟩, h3⟩, by decide +kernel⟩
  rw [h1, h2]
  rfl

/-- R4: AVX without AVX2 asks for vector registers of 256 bits, no VEX and no EVEX form leaves 128, and AVX10.1 asks for
64-bit opmasks (log 6). -/
theorem test_consistent : Cpu.consistent ⟨⟨true, true, true, false, false, false, false, false⟩, .v128, .k16, .va48⟩ = false ∧
    Cpu.consistent ⟨⟨true, true, true, false, false, false, false, false⟩, .v256, .k16, .va48⟩ = true ∧
    Cpu.consistent ⟨⟨true, true, false, false, false, false, false, false⟩, .v128, .k16, .va48⟩ = true ∧
    Cpu.consistent ⟨⟨true, true, true, true, false, false, false, true⟩, .v512, .k16, .va48⟩ = false := by decide

end Sys2Proof.Tests
end

section
/-! Decoding inverts encoding: for each layout, the decoder reads a well-formed instruction's bytes back as that
instruction (R50 to R66, R72), and they are within the longest length (R61). -/

set_option Elab.async false

namespace Sys2Proof

/-! ## Well-formedness by class -/

@[simp] theorem wf_mmxInstr (m : ExecMode) (el : Elem) (e : LegacyEnc) : (mmxInstr el e).wf m = e.wfMmx m := by
  cases el <;> rfl

@[simp] theorem wf_xmmInstr (m : ExecMode) (el : Elem) (e : LegacyEnc) : (xmmInstr el e).wf m = e.wfXmm m := by
  cases el <;> rfl

@[simp] theorem wf_vexInstr (m : ExecMode) (l : Bool) (el : Elem) (e : VexEnc) :
    (vexInstr l el e).wf m = e.wf m := by
  cases l <;> cases el <;> rfl

@[simp] theorem wf_evexInstr (m : ExecMode) (vl : VecLen) (el : Elem) (e : EvexEnc) :
    (evexInstr vl el e).wf m = if el = .dword then e.wfD m else e.wfBW m := by
  cases vl <;> cases el <;> rfl

theorem operandsWf_iff (m : ExecMode) (pfx : List Pfx) (rm : RegMem) :
    operandsWf m pfx rm = true ↔ pfxWf pfx = true ∧ rm.wf = true ∧ addrSizeOk m pfx rm = true := by
  simp only [operandsWf, Bool.and_eq_true, and_assoc]

theorem LegacyEnc.wf_iff (m : ExecMode) (e : LegacyEnc) :
    e.wf m = true ↔ operandsWf m e.pfx e.rm = true ∧ (m = .m64 ∨ e.rex = none) := by
  simp only [LegacyEnc.wf, Bool.and_eq_true, Bool.or_eq_true, beq_iff_eq, Option.isNone_iff_eq_none]

theorem LegacyEnc.wfMmx_iff (m : ExecMode) (e : LegacyEnc) : e.wfMmx m = true ↔
    e.wf m = true ∧ e.pfx.contains .opSize = false ∧ e.r = false ∧ (e.b && e.rm.isReg) = false := by
  simp only [LegacyEnc.wfMmx, Bool.and_eq_true, Bool.not_eq_true', and_assoc]

theorem LegacyEnc.wfXmm_iff (m : ExecMode) (e : LegacyEnc) : e.wfXmm m = true ↔
    e.wf m = true ∧ e.pfx.contains .opSize = true := by
  simp only [LegacyEnc.wfXmm, Bool.and_eq_true]

theorem VexEnc.wf_iff (m : ExecMode) (e : VexEnc) : e.wf m = true ↔
    operandsWf m e.pfx e.rm = true ∧ e.pfx.contains .opSize = false ∧
      (m = .m64 ∨ e.head.r = false ∧ e.head.x = false ∧ e.head.b = false ∧ e.vvvv.msb = false) := by
  simp only [VexEnc.wf, Bool.and_eq_true, Bool.or_eq_true, Bool.not_eq_true', beq_iff_eq, and_assoc]

theorem EvexEnc.wf_iff (m : ExecMode) (e : EvexEnc) : e.wf m = true ↔
    operandsWf m e.pfx e.rm = true ∧ e.pfx.contains .opSize = false ∧
      (m = .m64 ∨ e.x = false ∧ e.b = false ∧ e.v5.getLsbD 3 = false ∧ e.v5.getLsbD 4 = false) := by
  simp only [EvexEnc.wf, Bool.and_eq_true, Bool.or_eq_true, Bool.not_eq_true', beq_iff_eq, and_assoc]

/-- What `wfD` and `wfBW` ask beside `wf`: W0 for doublewords, and broadcast only of a doubleword in memory (R65). -/
theorem EvexEnc.wf_of_wfInstr {m : ExecMode} {vl : VecLen} {el : Elem} {e : EvexEnc}
    (h : (evexInstr vl el e).wf m = true) :
    e.wf m = true ∧ (el == .dword && e.w) = false ∧ (el != .dword && e.bcst) = false ∧
      (e.bcst && e.rm.isReg) = false := by
  rw [wf_evexInstr] at h
  by_cases hel : el = .dword
  · simp only [if_pos hel, EvexEnc.wfD, Bool.and_eq_true, Bool.not_eq_true'] at h
    obtain ⟨⟨hwf, hw⟩, hreg⟩ := h
    exact ⟨hwf, by simp [hw], by simp [hel], hreg⟩
  · simp only [if_neg hel, EvexEnc.wfBW, Bool.and_eq_true, Bool.not_eq_true'] at h
    obtain ⟨hwf, hbc⟩ := h
    exact ⟨hwf, by simp [hel], by simp [hbc], by simp [hbc]⟩

/-! ## The byte after the prefixes chooses the layout -/

theorem decodeOpcode_0F (m : ExecMode) (ps : List Pfx) (lr : Option LockRep) (bs : List Byte) :
    decodeOpcode m ps lr (0x0F#8 :: bs) = decodeLegacy m ps lr none bs := by
  simp [decodeOpcode, isRex]

theorem decodeOpcode_C5 (m : ExecMode) (ps : List Pfx) (lr : Option LockRep) (bs : List Byte) :
    decodeOpcode m ps lr (0xC5#8 :: bs) = decodeC5 m ps lr bs := by
  simp [decodeOpcode, isRex]

theorem decodeOpcode_C4 (m : ExecMode) (ps : List Pfx) (lr : Option LockRep) (bs : List Byte) :
    decodeOpcode m ps lr (0xC4#8 :: bs) = decodeC4 m ps lr bs := by
  simp [decodeOpcode, isRex]

theorem decodeOpcode_62 (m : ExecMode) (ps : List Pfx) (lr : Option LockRep) (bs : List Byte) :
    decodeOpcode m ps lr (0x62#8 :: bs) = decodeEvex m ps lr bs := by
  simp [decodeOpcode, isRex]

/-! ## Legacy forms -/

/-- After prefixes, a REX that the mode has, and 0FH, the decoder is at the opcode of a legacy form. -/
theorem decode_legacyHead {m : ExecMode} {ps : List Pfx} {rex : Option Rex} (hps : pfxWf ps = true)
    (hrex : m = .m64 ∨ rex = none) (bs : List Byte) :
    decode m (ps.map Pfx.byte ++ (rexBytes rex ++ 0x0F#8 :: bs)) = decodeLegacy m ps none rex bs := by
  cases rex with
  | none => exact (decode_pfx m ps _ bs hps (by decide)).trans (decodeOpcode_0F ..)
  | some r =>
    obtain rfl : m = .m64 := hrex.resolve_right (by simp)
    have hr : pfxByteOf r.byte = none := (isRex_byte r).2.2
    simp only [rexBytes, List.cons_append, List.nil_append]
    rw [decode_pfx _ _ _ _ hps hr, decodeOpcode_rex, decodeAfterRex, if_pos rfl]

/-- 66H alone tells an SSE2 form from an MMX form, which no REX bit may give a high register (R54, R56). -/
theorem decode_encodeLegacy {m : ExecMode} {e : LegacyEnc} (h : e.wf m = true) (el : Elem) (rest : List Byte) :
    decode m (encodeLegacy el e ++ rest) =
      if e.pfx.contains .opSize then .ok (xmmInstr el e, rest)
      else if e.r || (e.b && e.rm.isReg) then .error .rexOnMmxRegister
      else .ok (mmxInstr el e, rest) := by
  obtain ⟨hop, hrex⟩ := (LegacyEnc.wf_iff m e).mp h
  obtain ⟨hps, hrm, ha⟩ := (operandsWf_iff ..).mp hop
  simp only [encodeLegacy, List.append_assoc, List.cons_append, decode_legacyHead hps hrex, decodeLegacy,
    elemOf_opcode, readModRm_bytes m e.pfx e.reg e.rm rest hrm ha, except_bind_ok, except_pure]

/-! ## VEX forms -/

/-- What C5 and C4 have in common: a well-formed form names no high register in 32-bit mode (R63). -/
theorem decodeVexBody_encode {m : ExecMode} {e : VexEnc} (h : e.wf m = true) (l : Bool) (el : Elem)
    (rest : List Byte) :
    decodeVexBody m e.pfx e.head e.vvvv l 1#2 el.opcode (modRmBytes e.reg e.rm ++ rest) =
      .ok (vexInstr l el e, rest) := by
  obtain ⟨hop, -, hhi⟩ := (VexEnc.wf_iff m e).mp h
  obtain ⟨-, hrm, ha⟩ := (operandsWf_iff ..).mp hop
  have hno : ¬ (m = .m32 ∧ (e.head.r || e.head.x || e.head.b || e.vvvv.msb) = true) := by
    rintro ⟨rfl, hx⟩
    simp [hhi.resolve_left (by decide)] at hx
  simp only [decodeVexBody, elemOf_opcode, ne_eq, not_true_eq_false, if_false, if_neg hno,
    readModRm_bytes m e.pfx e.reg e.rm rest hrm ha, except_bind_ok, except_pure]

/-- In 32-bit mode the inverted bits 7:6 after C5 or C4 are 11, for a well-formed form names no high register (R62). -/
theorem decode_encodeVex {m : ExecMode} {e : VexEnc} (h : e.wf m = true) (l : Bool) (el : Elem) (rest : List Byte) :
    decode m (encodeVex l el e ++ rest) = .ok (vexInstr l el e, rest) := by
  have hbody := decodeVexBody_encode h l el rest
  obtain ⟨hop, hno, hhi⟩ := (VexEnc.wf_iff m e).mp h
  obtain ⟨hps, -, -⟩ := (operandsWf_iff ..).mp hop
  cases hh : e.head with
  | two r =>
    simp only [hh, VexHead.r, VexHead.x, VexHead.b] at hbody hhi
    obtain ⟨hr, hv, hl, hpp, hbits⟩ := vexTwo_fields r e.vvvv l
    have hin := isVexIn_of_bits (m := m) (b := bit (!r) ++ ~~~ e.vvvv ++ bit l ++ 1#2)
      (el.opcode :: (modRmBytes e.reg e.rm ++ rest)) (hhi.imp_right fun h => hbits.mpr ⟨h.1, h.2.2.2⟩)
    simp only [encodeVex, hh, VexHead.bytes, List.append_assoc, List.cons_append, List.nil_append]
    rw [decode_pfx m e.pfx _ _ hps (by decide), decodeOpcode_C5, decodeC5, hin, vexPrefixesOk_of_no_opSize hno]
    simpa only [except_bind_ok, hr, hv, hl, hpp] using hbody
  | three r x b w =>
    simp only [hh, VexHead.r, VexHead.x, VexHead.b] at hbody hhi
    obtain ⟨hr, hx, hb, hmap, hbits⟩ := vexThree1_fields r x b
    obtain ⟨hw, hv, hl, hpp⟩ := vexThree2_fields w e.vvvv l
    have hin := isVexIn_of_bits (m := m) (b := bit (!r) ++ bit (!x) ++ bit (!b) ++ 1#5)
      ((bit w ++ ~~~ e.vvvv ++ bit l ++ 1#2) :: el.opcode :: (modRmBytes e.reg e.rm ++ rest))
      (hhi.imp_right fun h => hbits.mpr ⟨h.1, h.2.1⟩)
    simp only [encodeVex, hh, VexHead.bytes, List.append_assoc, List.cons_append, List.nil_append]
    rw [decode_pfx m e.pfx _ _ hps (by decide), decodeOpcode_C4, decodeC4, hin, vexPrefixesOk_of_no_opSize hno]
    simpa only [except_bind_ok, hr, hx, hb, hmap, hw, hv, hl, hpp, ne_eq, not_true_eq_false, if_false] using hbody

/-! ## EVEX forms -/

/-- The encoder sets none of the reserved combinations of R65. -/
theorem evexReserved_encode {m : ExecMode} {vl : VecLen} {el : Elem} {e : EvexEnc}
    (h : (evexInstr vl el e).wf m = true) : evexReserved m e.p0 e.p1 (e.p2 vl) el = false := by
  obtain ⟨hwf, hw, hbc, -⟩ := EvexEnc.wf_of_wfInstr h
  obtain ⟨-, -, hhi⟩ := (EvexEnc.wf_iff m e).mp hwf
  obtain ⟨-, hR, hR', hx, hb, -⟩ := evexP0_fields e.x e.b
  obtain ⟨-, hW, -, hv3⟩ := evexP1_fields e.w (e.v5.extractLsb' 0 4)
  obtain ⟨hz, -, hbit, -, -, hv4⟩ := evexP2_fields vl e.bcst (e.v5.extractLsb' 4 1) e.aaa
  simp only [evexReserved, EvexEnc.p0, EvexEnc.p1, EvexEnc.p2, hR, hR', hx, hb, hW, hv3, hz, hbit, hv4, hw, hbc,
    BitVec.getLsbD_extractLsb']
  rcases hhi with rfl | ⟨hx0, hb0, h3, h4⟩
  · rfl
  · simp only [hx0, hb0, h3, h4, Nat.reduceAdd, Nat.zero_add, Bool.not_true, Bool.or_false, Bool.and_false]

/-- In 32-bit mode bits 7:6 of P0 are 11, for a well-formed form names no high register (R64). -/
theorem decode_encodeEvex {m : ExecMode} {vl : VecLen} {el : Elem} {e : EvexEnc}
    (h : (evexInstr vl el e).wf m = true) (rest : List Byte) :
    decode m (encodeEvex vl el e ++ rest) = .ok (evexInstr vl el e, rest) := by
  have hres := evexReserved_encode h
  obtain ⟨hwf, -, -, hreg⟩ := EvexEnc.wf_of_wfInstr h
  obtain ⟨hop, hno, hhi⟩ := (EvexEnc.wf_iff m e).mp hwf
  obtain ⟨hps, hrm, ha⟩ := (operandsWf_iff ..).mp hop
  obtain ⟨hmap, -, -, hx, hb, hbits⟩ := evexP0_fields e.x e.b
  obtain ⟨hpp, hW, hv, -⟩ := evexP1_fields e.w (e.v5.extractLsb' 0 4)
  obtain ⟨-, hll, hbc, hv', haaa, -⟩ := evexP2_fields vl e.bcst (e.v5.extractLsb' 4 1) e.aaa
  have hin := isVexIn_of_bits (m := m) (b := e.p0)
    (e.p1 :: e.p2 vl :: el.opcode :: (modRmBytes e.reg e.rm ++ rest)) (hhi.imp_right fun h => hbits.mpr h.1)
  simp only [encodeEvex, List.append_assoc, List.cons_append]
  rw [decode_pfx m e.pfx _ _ hps (by decide), decodeOpcode_62, decodeEvex, hin, vexPrefixesOk_of_no_opSize hno]
  simp only [except_bind_ok, elemOf_opcode, hres]
  simp only [EvexEnc.p0, EvexEnc.p1, EvexEnc.p2, hmap, hpp, hll, vecLenOf_ll, ne_eq, not_true_eq_false, or_self,
    if_false, readModRm_bytes m e.pfx e.reg e.rm rest hrm ha, hx, hb, hW, hbc, haaa, not_append_v5, hv, hv',
    v5_of_halves, hreg, except_bind_ok, except_pure, Bool.false_eq_true]

/-! ## Every form -/

/-- Decoding the bytes of a well-formed instruction gives it back, whatever follows (R72). -/
theorem decode_encode {m : ExecMode} {i : Instr} (h : i.wf m = true) (rest : List Byte) :
    decode m (encode i ++ rest) = .ok (i, rest) := by
  rcases Machine.exists_class i with ⟨el, e, rfl⟩ | ⟨el, e, rfl⟩ | ⟨l, el, e, rfl⟩ | ⟨vl, el, e, rfl⟩
  · rw [wf_mmxInstr, LegacyEnc.wfMmx_iff] at h
    obtain ⟨hwf, hop, hr, hb⟩ := h
    rw [Machine.encode_mmxInstr, decode_encodeLegacy hwf, hop, hr, hb]
    rfl
  · rw [wf_xmmInstr, LegacyEnc.wfXmm_iff] at h
    obtain ⟨hwf, hop⟩ := h
    rw [Machine.encode_xmmInstr, decode_encodeLegacy hwf, if_pos hop]
  · rw [wf_vexInstr] at h
    rw [Machine.encode_vexInstr, decode_encodeVex h]
  · rw [Machine.encode_evexInstr, decode_encodeEvex h]

/-! ## Lengths (R61) -/

theorem LegacyEnc.len_le {m : ExecMode} {e : LegacyEnc} (h : e.wf m = true) : e.len ≤ 12 := by
  obtain ⟨hop, -⟩ := (LegacyEnc.wf_iff m e).mp h
  have hps := length_le_of_pfxWf e.pfx ((operandsWf_iff ..).mp hop).1
  have hrm := e.rm.len_le
  unfold LegacyEnc.len
  split <;> omega

theorem VexEnc.len_le {m : ExecMode} {e : VexEnc} (h : e.wf m = true) : e.len ≤ 12 := by
  obtain ⟨hop, hno, -⟩ := (VexEnc.wf_iff m e).mp h
  have hps := length_le_of_no_opSize e.pfx ((operandsWf_iff ..).mp hop).1 hno
  have hrm := e.rm.len_le
  have hhead : e.head.len ≤ 3 := by cases e.head <;> simp [VexHead.len]
  unfold VexEnc.len
  omega

theorem EvexEnc.len_le {m : ExecMode} {e : EvexEnc} (h : e.wf m = true) : e.len ≤ 13 := by
  obtain ⟨hop, hno, -⟩ := (EvexEnc.wf_iff m e).mp h
  have hps := length_le_of_no_opSize e.pfx ((operandsWf_iff ..).mp hop).1 hno
  have hrm := e.rm.len_le
  unfold EvexEnc.len
  omega

theorem length_encode_le_maxLen {m : ExecMode} {i : Instr} (h : i.wf m = true) : (encode i).length ≤ maxLen := by
  unfold maxLen
  rcases Machine.exists_class i with ⟨el, e, rfl⟩ | ⟨el, e, rfl⟩ | ⟨l, el, e, rfl⟩ | ⟨vl, el, e, rfl⟩
  · rw [wf_mmxInstr, LegacyEnc.wfMmx_iff] at h
    have := LegacyEnc.len_le h.1
    rw [Machine.length_encode_mmxInstr]; omega
  · rw [wf_xmmInstr, LegacyEnc.wfXmm_iff] at h
    have := LegacyEnc.len_le h.1
    rw [Machine.length_encode_xmmInstr]; omega
  · rw [wf_vexInstr] at h
    have := VexEnc.len_le h
    rw [Machine.length_encode_vexInstr]; omega
  · rw [Machine.length_encode_evexInstr]
    exact EvexEnc.len_le (EvexEnc.wf_of_wfInstr h).1

end Sys2Proof
end

section
/-! The step (R9): what it does with each answer of the decoder, where a whole instruction stands at the pc, and outside
the two modes of the forms. -/

set_option Elab.async false

namespace Sys2Proof.Machine

/-! ## Whole instructions at the pc -/

/-- The window begins with bytes that stand at the pc and can be fetched, if it has room for them. -/
theorem window_eq_append {m : ExecMode} {s : State} {bs : List Byte} (hn : bs.length ≤ fetchLimit)
    (h : CodeAtPc m bs s) : ∃ rest, window m s = bs ++ rest :=
  ⟨_, (fetchBytes_of_code bs s.pc.toNat fetchLimit hn h).1⟩

theorem step_eq_exec_of_decode {m : ExecMode} {s : State} {i : Instr} {rest : List Byte}
    (hm : s.mode = .admitted m) (hd : decode m (window m s) = .ok (i, rest)) : step s = exec i s := by
  rw [step_of_mode hm, hd]

theorem step_eq_stop_of_decode {m : ExecMode} {s : State} {d : DecodeError} (hm : s.mode = .admitted m)
    (hd : decode m (window m s) = .error d) :
    step s = stopOfDecode (fetchStop m s fetchLimit s.pc.toNat) d := by
  rw [step_of_mode hm, hd]

/-! ## Other modes -/

theorem step_of_other_mode {s : State} (h : ∀ m, s.mode ≠ .admitted m) : step s = .refused .mode := by
  unfold step fetchDecode
  cases hm : s.mode with
  | admitted m => exact absurd hm (h m)
  | realAddress | virtual8086 | code16 | systemManagement => rfl

/-- Every meaning begins with the start of an instruction, which refuses the mode. -/
theorem exec_of_other_mode {s : State} (h : ∀ m, s.mode ≠ .admitted m) (i : Instr) :
    exec i s = .refused .mode := by
  rcases exists_class i with ⟨el, e, rfl⟩ | ⟨el, e, rfl⟩ | ⟨l, el, e, rfl⟩ | ⟨vl, el, e, rfl⟩
  · rw [exec_mmxInstr, mmxForm, startInstr_of_other_mode h, andThen_refused]
  · rw [exec_xmmInstr, xmmForm, startInstr_of_other_mode h, andThen_refused]
  · rw [exec_vexInstr, vexForm, startInstr_of_other_mode h, andThen_refused]
  · rw [exec_evexInstr, evexForm, startInstr_of_other_mode h, andThen_refused]

end Sys2Proof.Machine

open Sys2Proof Sys2Proof.Machine

/-- Settles O26: the bytes fit the fetch window, so the decoder reads the instruction off its head. -/
theorem stepExecutesTheBytesAtThePc : Obligations.StepExecutesTheBytesAtThePc := by
  intro s m i hm hwf hcode
  have hlen : (encode i).length ≤ fetchLimit := (length_encode_le_maxLen hwf).trans (by decide)
  obtain ⟨rest, hwin⟩ := window_eq_append hlen hcode
  exact step_eq_exec_of_decode hm (hwin ▸ decode_encode hwf rest)

/-- Settles O25: the step is the decoded instruction's execution, or `stopOfDecode` of the decoder's error. -/
theorem stepRunsTheDecodedInstruction : Obligations.StepRunsTheDecodedInstruction := by
  intro s m hm
  refine ⟨fun i rest hd => step_eq_exec_of_decode hm hd, fun hd => step_eq_stop_of_decode hm hd, ?_⟩
  intro d r hdr hd
  rw [step_eq_stop_of_decode hm hd]
  simp only [List.mem_cons, Prod.mk.injEq, List.not_mem_nil, or_false] at hdr
  rcases hdr with h | h | h | h | h | h | h | h <;> obtain ⟨rfl, rfl⟩ := h <;> rfl

/-- Settles O28: the fetch and the start of every meaning both refuse the mode. -/
theorem otherModesAreRefused : Obligations.OtherModesAreRefused :=
  fun _ i h => ⟨step_of_other_mode h, exec_of_other_mode h i⟩

end

section
/-! What a completed form changes (R6, R24): it writes one register of its class and then the pc. The frames and the
invariant of the machine are read off that. -/

set_option Elab.async false

namespace Sys2Proof.Machine

/-! ## Registers after a class's write -/

theorem vecVal_setVec_of_ne {d r : BitVec 5} (h : r ≠ d) (x : BitVec 512) (s : State) :
    vecVal r (setVec d x s) = vecVal r s := by
  rw [vecVal_setVec, if_neg h.symm]

theorem kVal_writeK_of_ne {d r : BitVec 3} (h : r ≠ d) (v : BitVec 64) (s : State) :
    kVal r (writeK d v s) = kVal r s := by
  rw [kVal_writeK, if_neg h.symm]

theorem mmVal_writeMm_of_ne {d r : BitVec 3} (h : r ≠ d) (v : BitVec 64) (s : State) :
    mmVal r (writeMm d v s) = mmVal r s := by
  rw [mmVal_writeMm, if_neg h.symm]

theorem fpHigh_writeMm_of_ne {d r : BitVec 3} (h : r ≠ d) (v : BitVec 64) (s : State) :
    (writeMm d v s).fpHigh.get r.toFin = s.fpHigh.get r.toFin := by
  have hn : d.toNat ≠ r.toNat := fun e => h (BitVec.eq_of_toNat_eq e.symm)
  simp [Vector.get_eq_getElem, hn]

theorem fpHigh_writeMm_same (d : BitVec 3) (v : BitVec 64) (s : State) :
    (writeMm d v s).fpHigh.get d.toFin = 0xFFFF#16 := by
  simp [Vector.get_eq_getElem]

/-- Only TOS, bits 13:11, is cleared (R17 (a)). -/
theorem getLsbD_fsw_writeMm {b : Nat} (hb : ¬ (11 ≤ b ∧ b ≤ 13)) (d : BitVec 3) (v : BitVec 64) (s : State) :
    (writeMm d v s).fsw.getLsbD b = s.fsw.getLsbD b := by
  have hmask : ∀ b < 16, ¬ (11 ≤ b ∧ b ≤ 13) → (0xC7FF#16).getLsbD b = true := by decide
  rw [writeMm_fsw, BitVec.getLsbD_and]
  by_cases hlt : b < 16
  · rw [hmask b hlt hb, Bool.and_true]
  · rw [BitVec.getLsbD_of_ge s.fsw b (by omega), Bool.false_and]

theorem tos_writeMm (d : BitVec 3) (v : BitVec 64) (s : State) : (writeMm d v s).fsw.extractLsb' 11 3 = 0#3 := by
  have hmask : (0xC7FF#16).extractLsb' 11 3 = 0#3 := by decide
  rw [writeMm_fsw, BitVec.extractLsb'_and, hmask, BitVec.and_zero]

/-- Bits 127:0 alone are written (R112 to R114). -/
theorem getLsbD_vecVal_writeXmm {b : Nat} (hb : 128 ≤ b) (d : BitVec 5) (v : BitVec 128) (s : State) :
    (vecVal d (writeXmm d v s)).getLsbD b = (vecVal d s).getLsbD b := by
  rw [writeXmm, vecVal_setVec_same, BitVec.getLsbD_append, if_neg (by omega), BitVec.getLsbD_extractLsb',
    Nat.add_sub_cancel' hb]
  by_cases hlt : b < 512
  · rw [decide_eq_true (by omega), Bool.true_and]
  · rw [BitVec.getLsbD_of_ge _ _ (by omega), Bool.and_false]

/-! ## Completed forms -/

theorem exec_mmxInstr_next {el : Elem} {e : LegacyEnc} {s t : State} (h : exec (mmxInstr el e) s = .next t) :
    ∃ v, t = advance e.len (writeMm e.reg v s) := by
  rw [exec_mmxInstr, mmxForm_eq_next_iff] at h
  obtain ⟨m, src, -, -, -, -, rfl⟩ := h
  exact ⟨_, rfl⟩

theorem exec_xmmInstr_next {el : Elem} {e : LegacyEnc} {s t : State} (h : exec (xmmInstr el e) s = .next t) :
    ∃ v, t = advance e.len (writeXmm (vecNum4 e.r e.reg) v s) := by
  rw [exec_xmmInstr, xmmForm_eq_next_iff] at h
  obtain ⟨m, src, -, -, -, -, rfl⟩ := h
  exact ⟨_, rfl⟩

theorem exec_vexInstr_next {wide : Bool} {el : Elem} {e : VexEnc} {s t : State}
    (h : exec (vexInstr wide el e) s = .next t) :
    ∃ v : BitVec (vexBits wide), t = advance e.len (writeVecZext (vecNum4 e.head.r e.reg) v s) := by
  rw [exec_vexInstr, vexForm_eq_next_iff] at h
  obtain ⟨m, s2, -, -, -, -, -, rfl⟩ := h
  exact ⟨_, rfl⟩

theorem exec_evexInstr_next {vl : VecLen} {el : Elem} {e : EvexEnc} {s t : State}
    (h : exec (evexInstr vl el e) s = .next t) : ∃ v, t = advance e.len (writeK e.reg v s) := by
  rw [exec_evexInstr, evexForm_eq_next_iff] at h
  obtain ⟨m, s2, -, -, -, -, -, rfl⟩ := h
  exact ⟨_, rfl⟩

/-- Every form that completes does one of these four writes and moves the pc. -/
theorem exec_next_cases {i : Instr} {s t : State} (h : exec i s = .next t) : ∃ len,
    (∃ d v, t = advance len (writeMm d v s)) ∨ (∃ d v, t = advance len (writeXmm d v s)) ∨
    (∃ d w, ∃ v : BitVec w, t = advance len (writeVecZext d v s)) ∨ ∃ d v, t = advance len (writeK d v s) := by
  rcases exists_class i with ⟨el, e, rfl⟩ | ⟨el, e, rfl⟩ | ⟨wide, el, e, rfl⟩ | ⟨vl, el, e, rfl⟩
  · obtain ⟨v, rfl⟩ := exec_mmxInstr_next h
    exact ⟨_, .inl ⟨_, v, rfl⟩⟩
  · obtain ⟨v, rfl⟩ := exec_xmmInstr_next h
    exact ⟨_, .inr (.inl ⟨_, v, rfl⟩)⟩
  · obtain ⟨v, rfl⟩ := exec_vexInstr_next h
    exact ⟨_, .inr (.inr (.inl ⟨_, _, v, rfl⟩))⟩
  · obtain ⟨v, rfl⟩ := exec_evexInstr_next h
    exact ⟨_, .inr (.inr (.inr ⟨_, v, rfl⟩))⟩

/-! ## What no form writes -/

/-- All that no form writes (R15, R18, R24, R35): what a launch fixes, general registers, EFLAGS, MXCSR and memory. -/
def SameUnwritten (s t : State) : Prop :=
  SameLaunch s t ∧ t.gpr = s.gpr ∧ t.eflags = s.eflags ∧ t.mxcsr = s.mxcsr ∧ t.mem = s.mem

theorem SameLaunch.refl (s : State) : SameLaunch s s := ⟨rfl, rfl, rfl, rfl, rfl, rfl, rfl, rfl, rfl, rfl⟩

theorem SameLaunch.trans {s t u : State} (h : SameLaunch s t) (h' : SameLaunch t u) : SameLaunch s u := by
  simp_all [SameLaunch]

theorem SameLaunch.cpl_eq {s t : State} (h : SameLaunch s t) : t.cpl = s.cpl := by
  obtain ⟨-, -, -, -, -, -, -, -, -, hcpl⟩ := h
  exact hcpl

theorem SameUnwritten.refl (s : State) : SameUnwritten s s := ⟨.refl s, rfl, rfl, rfl, rfl⟩

theorem SameUnwritten.trans {s t u : State} (h : SameUnwritten s t) (h' : SameUnwritten t u) : SameUnwritten s u := by
  obtain ⟨hl, hg, he, hx, hm⟩ := h
  obtain ⟨hl', hg', he', hx', hm'⟩ := h'
  exact ⟨hl.trans hl', hg'.trans hg, he'.trans he, hx'.trans hx, hm'.trans hm⟩

theorem sameUnwritten_advance (len : Nat) (s : State) : SameUnwritten s (advance len s) := by
  simp [SameUnwritten, SameLaunch, advance]

theorem sameUnwritten_writeMm (d : BitVec 3) (v : BitVec 64) (s : State) : SameUnwritten s (writeMm d v s) := by
  simp [SameUnwritten, SameLaunch]

theorem sameUnwritten_setVec (d : BitVec 5) (v : BitVec 512) (s : State) : SameUnwritten s (setVec d v s) := by
  simp [SameUnwritten, SameLaunch]

theorem sameUnwritten_writeK (d : BitVec 3) (v : BitVec 64) (s : State) : SameUnwritten s (writeK d v s) := by
  simp [SameUnwritten, SameLaunch]

theorem exec_sameUnwritten {i : Instr} {s t : State} (h : exec i s = .next t) : SameUnwritten s t := by
  obtain ⟨len, ⟨d, v, rfl⟩ | ⟨d, v, rfl⟩ | ⟨d, w, v, rfl⟩ | ⟨d, v, rfl⟩⟩ := exec_next_cases h
  · exact (sameUnwritten_writeMm d v s).trans (sameUnwritten_advance ..)
  · exact (sameUnwritten_setVec d _ s).trans (sameUnwritten_advance ..)
  · exact (sameUnwritten_setVec d _ s).trans (sameUnwritten_advance ..)
  · exact (sameUnwritten_writeK d v s).trans (sameUnwritten_advance ..)

theorem SameUnwritten.sameFlagsAndMemory {s t : State} (h : SameUnwritten s t) : SameFlagsAndMemory s t := by
  obtain ⟨-, hg, he, hx, hm⟩ := h
  exact ⟨he, hx, hg, fun a => by rw [hm]⟩

theorem step_next {s t : State} (h : step s = .next t) : ∃ i, exec i s = .next t := by
  obtain ⟨i, -, hi⟩ := (andThen_eq_next_iff ..).mp h
  exact ⟨i, hi⟩

theorem Reaches.sameUnwritten {n : Nat} {s t : State} (h : Reaches n s t) : SameUnwritten s t := by
  induction n generalizing s with
  | zero => exact h ▸ .refl s
  | succ n ih =>
    obtain ⟨u, hstep, hrun⟩ := h
    obtain ⟨i, hi⟩ := step_next hstep
    exact (exec_sameUnwritten hi).trans (ih hrun)

/-! ## The pc -/

/-- Every meaning begins with the start of an instruction: where that refuses, so does the form. -/
theorem exec_of_startInstr_refused {i : Instr} {s : State} {r : Refusal}
    (h : startInstr (encode i).length s = .refused r) : exec i s = .refused r := by
  rcases exists_class i with ⟨el, e, rfl⟩ | ⟨el, e, rfl⟩ | ⟨l, el, e, rfl⟩ | ⟨vl, el, e, rfl⟩
  · rw [length_encode_mmxInstr] at h
    rw [exec_mmxInstr, mmxForm, h, andThen_refused]
  · rw [length_encode_xmmInstr] at h
    rw [exec_xmmInstr, xmmForm, h, andThen_refused]
  · rw [length_encode_vexInstr] at h
    rw [exec_vexInstr, vexForm, h, andThen_refused]
  · rw [length_encode_evexInstr] at h
    rw [exec_evexInstr, evexForm, h, andThen_refused]

theorem not_pcRoom_iff {m : ExecMode} {len : Nat} {s : State} : ¬ PcRoom m len s ↔
    2 ^ m.addrBits ≤ s.pc.toNat + len ∨
      (m = .m64 ∧ ∃ j, j ≤ len ∧ ¬ IsCanonical s.cpu.vaBits (s.pc.toNat + j)) := by
  simp only [PcRoom, Classical.not_and_iff_not_or_not, Nat.not_lt, Classical.not_imp, Classical.not_forall]

/-! ## The invariant -/

theorem le_maxVl_bits (n : MaxVl) : 128 ≤ n.bits := by cases n <;> decide

theorem toNat_setWidth_setWidth_lt {w n : Nat} (k : Nat) (v : BitVec w) :
    ((v.setWidth n).setWidth k).toNat < 2 ^ n := by
  rw [BitVec.toNat_setWidth]
  exact (Nat.mod_le ..).trans_lt (v.setWidth n).isLt

/-- A legacy SSE form keeps the bits above 127, so those above `MAXVL` stay 0. -/
theorem vecVal_writeXmm_lt {d : BitVec 5} {s : State} (h : (vecVal d s).toNat < 2 ^ s.cpu.maxVl.bits) (v : BitVec 128) :
    (vecVal d (writeXmm d v s)).toNat < 2 ^ s.cpu.maxVl.bits := by
  have hw := le_maxVl_bits s.cpu.maxVl
  refine Nat.lt_pow_two_of_testBit _ fun b hb => ?_
  rw [BitVec.testBit_toNat, getLsbD_vecVal_writeXmm (hw.trans hb), ← BitVec.testBit_toNat]
  exact Nat.testBit_lt_two_pow (h.trans_le (Nat.pow_le_pow_right (by decide) hb))

theorem RegsFit.setVec {s : State} {d : BitVec 5} {x : BitVec 512} (h : RegsFit s)
    (hx : x.toNat < 2 ^ s.cpu.maxVl.bits) : RegsFit (setVec d x s) := by
  refine ⟨fun r => ?_, h.2⟩
  rw [vecVal_setVec]
  split
  · exact hx
  · exact h.1 r

theorem RegsFit.writeXmm {s : State} (h : RegsFit s) (d : BitVec 5) (v : BitVec 128) : RegsFit (writeXmm d v s) := by
  have hx := vecVal_writeXmm_lt (h.1 d) v
  rw [Machine.writeXmm, vecVal_setVec_same] at hx
  exact h.setVec hx

theorem RegsFit.writeK {s : State} (h : RegsFit s) (d : BitVec 3) (v : BitVec 64) : RegsFit (writeK d v s) := by
  refine ⟨h.1, fun r => ?_⟩
  rw [kVal_writeK]
  split
  · exact toNat_setWidth_setWidth_lt 64 v
  · exact h.2 r

theorem exec_regsFit {i : Instr} {s t : State} (hs : RegsFit s) (h : exec i s = .next t) : RegsFit t := by
  obtain ⟨len, ⟨d, v, rfl⟩ | ⟨d, v, rfl⟩ | ⟨d, w, v, rfl⟩ | ⟨d, v, rfl⟩⟩ := exec_next_cases h
  · exact hs
  · exact hs.writeXmm d v
  · exact hs.setVec (toNat_setWidth_setWidth_lt 512 v)
  · exact hs.writeK d v

/-- The start of an instruction asks that the address after it is one of the mode (R14, D10). -/
theorem exec_pcIsAddress {i : Instr} {s t : State} (h : exec i s = .next t) : PcIsAddress t := by
  obtain ⟨m, hm, hroom, hpc⟩ := exec_next_pc h
  obtain ⟨⟨hmode, hcpu, -⟩, -⟩ := exec_sameUnwritten h
  intro m' hm'
  obtain rfl : m = m' := by simpa [hmode, hm] using hm'
  rw [hpc, toNat_pcNext hroom, hcpu]
  exact ⟨hroom.1, fun h64 => hroom.2 h64 _ le_rfl⟩

theorem exec_inv {i : Instr} {s t : State} (hs : Inv s) (h : exec i s = .next t) : Inv t := by
  obtain ⟨hmem, hregs, -, hcpu⟩ := hs
  obtain ⟨⟨-, hcpu', -⟩, -, -, -, hmem'⟩ := exec_sameUnwritten h
  exact ⟨hmem' ▸ hmem, exec_regsFit hregs h, exec_pcIsAddress h, hcpu' ▸ hcpu⟩

/-! ## Reset -/

@[simp] theorem gprVal_reset (i : BitVec 4) : gprVal i State.reset = 0#64 := Vector.get_replicate 16 _ i.toFin
@[simp] theorem mmVal_reset (i : BitVec 3) : mmVal i State.reset = 0#64 := Vector.get_replicate 8 _ i.toFin
@[simp] theorem vecVal_reset (i : BitVec 5) : vecVal i State.reset = 0#512 := Vector.get_replicate 32 _ i.toFin
@[simp] theorem kVal_reset (i : BitVec 3) : kVal i State.reset = 0#64 := Vector.get_replicate 8 _ i.toFin

theorem reset_mode_ne_admitted (m : ExecMode) : State.reset.mode ≠ .admitted m := nofun

theorem regsFit_reset : RegsFit State.reset := by
  refine ⟨fun i => ?_, fun i => ?_⟩
  · rw [vecVal_reset, BitVec.toNat_zero]; exact Nat.two_pow_pos _
  · rw [kVal_reset, BitVec.toNat_zero]; exact Nat.two_pow_pos _

/-! ## What no form reads -/

/-- The state with EFLAGS, MXCSR and CPL replaced: what a form can tell of them is `AC_ENABLED`. -/
def withStatus (f x : BitVec 32) (c : BitVec 2) (s : State) : State := { s with eflags := f, mxcsr := x, cpl := c }

theorem mapNext_andThen {α : Type} (u : State → State) (r : Result α) (f : α → Result State) :
    mapNext u (andThen r f) = andThen r fun a => mapNext u (f a) := by
  cases r <;> rfl

theorem mapNext_congr {u u' : State → State} {r : Result State} (h : ∀ t, r = .next t → u t = u' t) :
    mapNext u r = mapNext u' r := by
  cases r with
  | next t => exact congrArg _ (h t rfl)
  | fault | refused => rfl

section
variable {f x : BitVec 32} {c : BitVec 2} {s : State} (hac : acEnabled (withStatus f x c s) = acEnabled s)
include hac

theorem memOperand_withStatus (w : Nat) (g : MemForm) (m : ExecMode) (len : Nat) (a : MemRef) :
    memOperand w g m (pcNext len (withStatus f x c s)) a (withStatus f x c s) =
      memOperand w g m (pcNext len s) a s :=
  memOperand_congr rfl rfl rfl rfl rfl rfl hac

theorem mmxSource_withStatus (m : ExecMode) (e : LegacyEnc) :
    mmxSource m e (withStatus f x c s) = mmxSource m e s := by
  unfold mmxSource
  cases e.rm with
  | reg r => rfl
  | mem a => exact memOperand_withStatus hac ..

theorem xmmSource_withStatus (m : ExecMode) (e : LegacyEnc) :
    xmmSource m e (withStatus f x c s) = xmmSource m e s := by
  unfold xmmSource
  cases e.rm with
  | reg r => rfl
  | mem a => exact memOperand_withStatus hac ..

theorem vexSource_withStatus (w : Nat) (m : ExecMode) (e : VexEnc) :
    vexSource w m e (withStatus f x c s) = vexSource w m e s := by
  unfold vexSource
  cases e.rm with
  | reg r => rfl
  | mem a => exact memOperand_withStatus hac ..

theorem evexSourceBW_withStatus (vl : Nat) (m : ExecMode) (e : EvexEnc) :
    evexSourceBW vl m e (withStatus f x c s) = evexSourceBW vl m e s := by
  unfold evexSourceBW
  cases e.rm with
  | reg r => rfl
  | mem a => simp only [memOperand_withStatus hac]

theorem evexSourceD_withStatus (vl : Nat) (m : ExecMode) (e : EvexEnc) :
    evexSourceD vl m e (withStatus f x c s) = evexSourceD vl m e s := by
  unfold evexSourceD
  cases e.rm with
  | reg r => rfl
  | mem a => simp only [memOperand_withStatus hac]

theorem evexSource_withStatus (vl : VecLen) (el : Elem) (m : ExecMode) (e : EvexEnc) :
    evexSource vl el m e (withStatus f x c s) = evexSource vl el m e s := by
  cases el with
  | dword => exact evexSourceD_withStatus hac ..
  | byte | word => exact evexSourceBW_withStatus hac ..

/-- EFLAGS, MXCSR and CPL enter a form only through `AC_ENABLED` (R4, R15, R18): the checks read none of them, a memory
source that bit alone, and the write passes them on. -/
theorem exec_withStatus (i : Instr) : exec i (withStatus f x c s) = mapNext (withStatus f x c) (exec i s) := by
  rcases exists_class i with ⟨el, e, rfl⟩ | ⟨el, e, rfl⟩ | ⟨wide, el, e, rfl⟩ | ⟨vl, el, e, rfl⟩
  · simp only [exec_mmxInstr, mmxForm, mapNext_andThen, mmxSource_withStatus hac]
    rfl
  · simp only [exec_xmmInstr, xmmForm, mapNext_andThen, xmmSource_withStatus hac]
    rfl
  · simp only [exec_vexInstr, vexForm, mapNext_andThen, vexSource_withStatus hac]
    rfl
  · simp only [exec_evexInstr, evexForm, mapNext_andThen, evexSource_withStatus hac]
    rfl
end

theorem exec_with_eflags {f : BitVec 32} {s : State} (hac : acEnabled { s with eflags := f } = acEnabled s)
    (i : Instr) : exec i { s with eflags := f } = mapNext (fun t => { t with eflags := f }) (exec i s) := by
  refine (exec_withStatus (x := s.mxcsr) (c := s.cpl) hac i).trans (mapNext_congr fun t ht => ?_)
  obtain ⟨hlaunch, -, -, hmxcsr, -⟩ := exec_sameUnwritten ht
  rw [withStatus, ← hmxcsr, ← hlaunch.cpl_eq]

theorem exec_with_mxcsr (x : BitVec 32) (s : State) (i : Instr) :
    exec i { s with mxcsr := x } = mapNext (fun t => { t with mxcsr := x }) (exec i s) := by
  refine (exec_withStatus (f := s.eflags) (x := x) (c := s.cpl) rfl i).trans (mapNext_congr fun t ht => ?_)
  obtain ⟨hlaunch, -, heflags, -, -⟩ := exec_sameUnwritten ht
  rw [withStatus, ← heflags, ← hlaunch.cpl_eq]

end Sys2Proof.Machine

open Sys2Proof Sys2Proof.Machine

/-! ## The machine -/

/-- Settles O56: a step that completes is a form that completed, and that keeps each part of the invariant. -/
theorem stepKeepsTheMachineInvariant : Obligations.StepKeepsTheMachineInvariant := by
  intro s t hs hstep
  obtain ⟨i, hi⟩ := step_next hstep
  exact exec_inv hs hi

/-- Settles O55, by induction on the number of steps. -/
theorem runKeepsWhatTheLaunchFixed : Obligations.RunKeepsWhatTheLaunchFixed := by
  intro n s t hrun
  obtain ⟨hlaunch, hgpr, heflags, hmxcsr, -⟩ := hrun.sameUnwritten
  exact ⟨hlaunch, hgpr, heflags, hmxcsr⟩

/-! ## The pc -/

/-- Settles O30: the room that every form asks for keeps the sum from wrapping. -/
theorem completedInstructionAdvancesThePc : Obligations.CompletedInstructionAdvancesThePc := by
  intro i s t h
  obtain ⟨m, -, hroom, hpc⟩ := exec_next_pc h
  rw [hpc, toNat_pcNext hroom]

/-- Settles O31: the start of a form refuses where there is no room, and the fetch at the byte without an address. -/
theorem pcWrapIsRefused : Obligations.PcWrapIsRefused := by
  refine ⟨fun i s m hm hno => ?_, fun s m i k hm hwf hk hcode hno => ?_⟩
  · exact exec_of_startInstr_refused (startInstr_of_no_room hm (not_pcRoom_iff.mpr hno))
  · have hdecode : decode m (encode i) = .ok (i, []) := by simpa using decode_encode hwf []
    have hlimit : k < fetchLimit := hk.trans_le ((length_encode_le_maxLen hwf).trans (by decide))
    exact step_of_cut hm hdecode hk hlimit hcode (fetchStopAt_eq_pcWrap hno)

/-! ## Frames -/

/-- Settles O39: the write of an MMX register and of the pc leaves the rest. -/
theorem mmxFormsFrame : Obligations.MmxFormsFrame := by
  intro e s t i hi h
  obtain ⟨el, rfl⟩ := exists_mmxInstr_of_mem hi
  have hsame := exec_sameUnwritten h
  obtain ⟨v, rfl⟩ := exec_mmxInstr_next h
  exact ⟨fun r hr => ⟨mmVal_writeMm_of_ne hr v s, fpHigh_writeMm_of_ne hr v s⟩,
    fun b hb => getLsbD_fsw_writeMm hb e.reg v s, rfl, rfl, hsame.sameFlagsAndMemory, hsame.1⟩

/-- Settles O40: these are the marks that the write of an MMX register leaves. -/
theorem mmxFormsMarkTheX87State : Obligations.MmxFormsMarkTheX87State := by
  intro e s t i hi h
  obtain ⟨el, rfl⟩ := exists_mmxInstr_of_mem hi
  obtain ⟨v, rfl⟩ := exec_mmxInstr_next h
  exact ⟨tos_writeMm e.reg v s, rfl, fpHigh_writeMm_same e.reg v s⟩

/-- Settles O41: the write of bits 127:0 of a vector register and of the pc leaves the rest. -/
theorem sseFormsFrame : Obligations.SseFormsFrame := by
  intro e s t i hi h
  obtain ⟨el, rfl⟩ := exists_xmmInstr_of_mem hi
  have hsame := exec_sameUnwritten h
  obtain ⟨v, rfl⟩ := exec_xmmInstr_next h
  exact ⟨fun r hr => vecVal_setVec_of_ne hr _ s, fun b hb => getLsbD_vecVal_writeXmm hb _ v s, rfl,
    ⟨rfl, rfl, rfl, rfl⟩, hsame.sameFlagsAndMemory, hsame.1⟩

/-- Settles O42: the write of a vector register and of the pc leaves the rest. -/
theorem vexFormsFrame : Obligations.VexFormsFrame := by
  intro e s t i hi h
  obtain ⟨wide, el, rfl⟩ := exists_vexInstr_of_mem hi
  have hsame := exec_sameUnwritten h
  obtain ⟨v, rfl⟩ := exec_vexInstr_next h
  exact ⟨fun r hr => vecVal_setVec_of_ne hr _ s, rfl, ⟨rfl, rfl, rfl, rfl⟩, hsame.sameFlagsAndMemory, hsame.1⟩

/-- Settles O43: the write of an opmask register and of the pc leaves the rest. -/
theorem evexFormsFrame : Obligations.EvexFormsFrame := by
  intro e s t i hi h
  obtain ⟨vl, el, rfl⟩ := exists_evexInstr_of_mem hi
  have hsame := exec_sameUnwritten h
  obtain ⟨v, rfl⟩ := exec_evexInstr_next h
  exact ⟨fun r hr => kVal_writeK_of_ne hr v s, rfl, ⟨rfl, rfl, rfl, rfl⟩, hsame.sameFlagsAndMemory, hsame.1⟩

/-! ## Flags and MXCSR -/

/-- Settles O45: no form writes EFLAGS, and a form reads it through `AC_ENABLED`, which has the AC bit of it. -/
theorem flagsAreNeitherWrittenNorReadButAc : Obligations.FlagsAreNeitherWrittenNorReadButAc := by
  refine ⟨fun i s t h => ?_, fun i s f hf => ?_, fun i s f hac => exec_with_eflags hac i⟩
  · obtain ⟨-, -, heflags, -⟩ := exec_sameUnwritten h
    exact heflags
  · have hac : acEnabled { s with eflags := f } = acEnabled s := by simp only [acEnabled, cr0Am, eflagsAc, hf]
    exact exec_with_eflags hac i

/-- Settles O46: no form writes MXCSR or reads it. -/
theorem mxcsrIsNeitherReadNorWritten : Obligations.MxcsrIsNeitherReadNorWritten := by
  refine ⟨fun i s t h => ?_, fun i s x => exec_with_mxcsr x s i⟩
  obtain ⟨-, -, -, hmxcsr, -⟩ := exec_sameUnwritten h
  exact hmxcsr

/-! ## Reset -/

/-- Settles O57: memory is empty, every register is 0, and the mode is not one whose addresses the pc must fit. -/
theorem resetMeetsTheMachineInvariant : Obligations.ResetMeetsTheMachineInvariant :=
  ⟨wf_reset, regsFit_reset, fun m hm => absurd hm (reset_mode_ne_admitted m), by decide⟩

/-- Settles O59: the registers read 0, and the other fields are the values of R21. -/
theorem resetValues : Obligations.ResetValues :=
  ⟨mmVal_reset, rfl, fun i _ => vecVal_reset i, kVal_reset, fun i _ _ => gprVal_reset i, rfl, rfl, rfl, rfl, rfl, rfl,
    by decide⟩

/-- Settles O60: real-address mode is none of the two modes of the forms. -/
theorem nothingRunsStraightAfterReset : Obligations.NothingRunsStraightAfterReset :=
  ⟨step_of_other_mode reset_mode_ne_admitted, exec_of_other_mode reset_mode_ne_admitted⟩

end

section
/-! Memory operands: the little-endian value and its views (R31), the checks of `MemRead` one by one (R43), and what a
form does with the answer of its memory read (R33). -/

set_option Elab.async false

namespace Sys2Proof.Machine

/-! ## Little-endian values (R31) -/

theorem toNat_memValue (mem : Memory) (a n : Nat) : (memValue mem a (8 * n)).toNat =
    ((List.range n).map fun i => (Memory.read mem (a + i)).toNat * 2 ^ (8 * i)).sum := by
  rw [memValue, Nat.mul_div_cancel_left n (by decide)]
  exact (toNat_packLanes _ n (Nat.mul_comm ..).le).2

/-- The bytes from `k` on of a value are the value at the address `k` higher. -/
theorem extractLsb'_memValue (mem : Memory) (a : Nat) {w k n : Nat} (h : k + n ≤ w / 8) :
    (memValue mem a w).extractLsb' (8 * k) (8 * n) = memValue mem (a + k) (8 * n) := by
  refine BitVec.eq_of_getLsbD_eq fun j hj => ?_
  have hdiv : (8 * k + j) / 8 = k + j / 8 := by omega
  have hin : 8 * k + j < w / 8 * 8 := by omega
  have hin' : j < 8 * n / 8 * 8 := by omega
  simp only [BitVec.getLsbD_extractLsb', getLsbD_memValue, hj, hin, hin', hdiv, Nat.mul_add_mod, Nat.add_assoc,
    decide_true, Bool.true_and]

theorem memValue_word (mem : Memory) (a : Nat) :
    memValue mem a 16 = Memory.read mem (a + 1) ++ Memory.read mem a := by
  refine BitVec.eq_of_getLsbD_eq fun j hj => ?_
  rw [getLsbD_memValue, BitVec.getLsbD_append]
  by_cases h : j < 8
  · simp [hj, h, Nat.div_eq_of_lt h, Nat.mod_eq_of_lt h]
  · have hdiv : j / 8 = 1 := by omega
    have hmod : j % 8 = j - 8 := by omega
    simp [hj, h, hdiv, hmod]

theorem toNat_append_eq_add {m n : Nat} (x : BitVec m) (y : BitVec n) :
    (x ++ y).toNat = x.toNat * 2 ^ n + y.toNat := by
  rw [BitVec.toNat_append, ← Nat.shiftLeft_add_eq_or_of_lt y.isLt, Nat.shiftLeft_eq]

/-! ## Addresses of a read (R43) -/

/-- Bits `v` to 63 are all equal exactly in the low and in the high `2 ^ v` of the 64-bit addresses. -/
theorem bitsEqual_iff {v a : Nat} (hv : v < 64) (ha : a < 2 ^ 64) :
    (∀ j k, v ≤ j → j < 64 → v ≤ k → k < 64 → a.testBit j = a.testBit k) ↔ a < 2 ^ v ∨ 2 ^ 64 - 2 ^ v ≤ a := by
  have hpow : 2 ^ v < 2 ^ 64 := Nat.pow_lt_pow_right (by decide) hv
  have hcompl : ∀ j, (2 ^ 64 - (a + 1)).testBit j = (decide (j < 64) && !a.testBit j) :=
    Nat.testBit_two_pow_sub_succ ha
  constructor
  · intro h
    by_cases hbit : a.testBit v
    · have hlow : 2 ^ 64 - (a + 1) < 2 ^ v := Nat.lt_pow_two_of_testBit _ fun j hj => by
        rw [hcompl]
        by_cases hj64 : j < 64
        · simp [h j v hj hj64 le_rfl hv, hbit]
        · simp [hj64]
      omega
    · refine .inl (Nat.lt_pow_two_of_testBit _ fun j hj => ?_)
      by_cases hj64 : j < 64
      · simpa [h j v hj hj64 le_rfl hv] using hbit
      · exact Nat.testBit_lt_two_pow (ha.trans_le (Nat.pow_le_pow_right (by decide) (not_lt.mp hj64)))
  · rintro (hlow | hhigh)
    · have hzero : ∀ j, v ≤ j → a.testBit j = false := fun j hj =>
        Nat.testBit_lt_two_pow (hlow.trans_le (Nat.pow_le_pow_right (by decide) hj))
      exact fun j k hj _ hk _ => (hzero j hj).trans (hzero k hk).symm
    · have hone : ∀ j, v ≤ j → j < 64 → a.testBit j = true := fun j hj hj64 => by
        have := hcompl j
        rw [Nat.testBit_lt_two_pow (show _ < 2 ^ j from
          lt_of_lt_of_le (by omega) (Nat.pow_le_pow_right (by decide : 0 < 2) hj))] at this
        simpa [hj64] using this
      exact fun j k hj hj64 hk hk64 => (hone j hj hj64).trans (hone k hk hk64).symm

theorem canonicalBits_iff (va : VaBits) {a : Nat} (ha : a < 2 ^ 64) : CanonicalBits va a ↔ IsCanonical va a := by
  have hv : va.bits - 1 < 64 := by cases va <;> decide
  rw [CanonicalBits, bitsEqual_iff hv ha, IsCanonical, and_iff_left ha]

theorem two_pow_addrBits_dvd (m : ExecMode) : 2 ^ m.addrBits ∣ 2 ^ 64 := by cases m <;> decide

theorem linearAddr_eq (m : ExecMode) (seg : Seg) (ea : Addr) (s : State) :
    linearAddr m seg ea s = ((segBase seg s).toNat + ea.toNat) % 2 ^ m.addrBits := by
  rw [linearAddr, BitVec.toNat_add, Nat.mod_mod_of_dvd _ (two_pow_addrBits_dvd m)]

/-- FS and GS have their bases, every other segment base 0 (R22). -/
theorem segBase_eq {seg : Seg} {s : State} {base : Addr} (hfs : seg = .fs → base = s.fsBase)
    (hgs : seg = .gs → base = s.gsBase) (hother : seg ≠ .fs → seg ≠ .gs → base = 0#64) : segBase seg s = base := by
  cases seg with
  | fs => exact (hfs rfl).symm
  | gs => exact (hgs rfl).symm
  | es | cs | ss | ds => exact (hother nofun nofun).symm

theorem acEnabled_iff (s : State) :
    acEnabled s = true ↔ s.cr0.getLsbD 18 = true ∧ s.eflags.getLsbD 18 = true ∧ s.cpl = 3#2 := by
  simp [acEnabled, cr0Am, eflagsAc, and_assoc]

/-! ## The checks of a read (R43), each where those before it pass -/

section
variable {w n al ac la : Nat} {m : ExecMode} {seg : Seg} {ea : Addr} {s : State}
  (hla : linearAddr m seg ea s = la) (hn : w / 8 = n)
include hla hn

theorem memRead_of_wrap (h : 2 ^ m.addrBits < la + n) : memRead w al ac m seg ea s = .refused .addressWrap := by
  simp only [memRead, hla, hn, if_pos h]

variable (hroom : la + n ≤ 2 ^ m.addrBits)
include hroom

theorem memRead_of_not_canonical (h : ¬ (m = .m64 → ∀ i, i < n → IsCanonical s.cpu.vaBits (la + i))) :
    memRead w al ac m seg ea s = .fault (if seg = .ss then .ss else .gp) := by
  rw [← canonicalRange_iff, Bool.not_eq_true] at h
  simp only [memRead, hla, hn, hroom.not_gt, h, if_true, if_false, raise]

variable (hcanon : m = .m64 → ∀ i, i < n → IsCanonical s.cpu.vaBits (la + i))
include hcanon

theorem memRead_of_misaligned (h : la % al ≠ 0) : memRead w al ac m seg ea s = .fault .gp := by
  rw [← canonicalRange_iff] at hcanon
  simp only [memRead, hla, hn, hroom.not_gt, hcanon, Bool.true_eq_false, if_false, if_pos h, raise]

variable (hal : la % al = 0)
include hal

theorem memRead_of_inaccessible (h : ¬ ∀ i, i < n → ByteAccessible s (la + i)) :
    memRead w al ac m seg ea s = .fault .pf := by
  rw [← canonicalRange_iff] at hcanon
  rw [← accessible_iff, Bool.not_eq_true] at h
  simp only [memRead, hla, hn, hroom.not_gt, hcanon, hal, h, Bool.true_eq_false, ne_eq, not_true_eq_false, if_true,
    if_false, raise]

variable (hacc : ∀ i, i < n → ByteAccessible s (la + i))
include hacc

theorem memRead_of_alignment_checked (h : acEnabled s = true ∧ la % ac ≠ 0) :
    memRead w al ac m seg ea s = .fault .ac := by
  rw [← canonicalRange_iff] at hcanon
  rw [← accessible_iff] at hacc
  simp only [memRead, hla, hn, hroom.not_gt, hcanon, hal, hacc, Bool.true_eq_false, ne_eq, not_true_eq_false,
    if_false, if_pos h, raise]

theorem memRead_of_readable (h : ¬ (acEnabled s = true ∧ la % ac ≠ 0)) :
    memRead w al ac m seg ea s = .next (memValue s.mem la w) := by
  have hac : acEnabled s = true → la % ac = 0 := by simpa using h
  subst hla hn
  exact (memRead_eq_next_iff ..).mpr ⟨⟨hroom, hcanon, hal, hacc, hac⟩, rfl⟩
end

/-! ## A memory operand that alignment alone can stop (R33) -/

section
variable {w n la : Nat} {f : MemForm} {m : ExecMode} {next : Addr} {a : MemRef} {s : State}
  (hn : w / 8 = n) (hat : OperandAt f m next a s la) (hread : Readable n 1 1 m la s)
include hn hat hread

theorem memOperand_of_misaligned (h : la % f.al ≠ 0) : memOperand w f m next a s = .fault .gp := by
  obtain ⟨size, hsize, hla⟩ := hat
  obtain ⟨hroom, hcanon, -⟩ := hread
  rw [memOperand_of_addrSize hsize, memRead_of_misaligned hla.symm hn hroom hcanon h]

theorem memOperand_of_alignment_checked (hal : la % f.al = 0) (h : acEnabled s = true ∧ la % f.ac ≠ 0) :
    memOperand w f m next a s = .fault .ac := by
  obtain ⟨size, hsize, hla⟩ := hat
  obtain ⟨hroom, hcanon, -, hacc, -⟩ := hread
  rw [memOperand_of_addrSize hsize, memRead_of_alignment_checked hla.symm hn hroom hcanon hal hacc h]

theorem memOperand_of_aligned (hal : la % f.al = 0) (h : ¬ (acEnabled s = true ∧ la % f.ac ≠ 0)) :
    memOperand w f m next a s = .next (memValue s.mem la w) := by
  obtain ⟨size, hsize, hla⟩ := hat
  obtain ⟨hroom, hcanon, -, hacc, -⟩ := hread
  rw [memOperand_of_addrSize hsize, memRead_of_readable hla.symm hn hroom hcanon hal hacc h]
end

/-! ## What a form does with the answer of its memory read -/

theorem andThen_assoc {α β γ : Type} (r : Result α) (f : α → Result β) (g : β → Result γ) :
    andThen (andThen r f) g = andThen r fun a => andThen (f a) g := by
  cases r <;> rfl

/-- The memory read `r` decides the instruction: it stops as `r` stops, and completes with what `r` has read. -/
def ReadDecides {w : Nat} (i : Instr) (s : State) (r : Result (BitVec w)) : Prop :=
  ∃ k : BitVec w → State, exec i s = andThen r fun v => .next (k v)

section
variable {w : Nat} {i : Instr} {s : State} {r : Result (BitVec w)} (h : ReadDecides i s r)
include h

theorem ReadDecides.fault {f : Fault} (hr : r = .fault f) : exec i s = .fault f := by
  obtain ⟨k, hk⟩ := h
  rw [hk, hr, andThen_fault]

theorem ReadDecides.refused {e : Refusal} (hr : r = .refused e) : exec i s = .refused e := by
  obtain ⟨k, hk⟩ := h
  rw [hk, hr, andThen_refused]

theorem ReadDecides.completes {v : BitVec w} (hr : r = .next v) : ∃ t, exec i s = .next t := by
  obtain ⟨k, hk⟩ := h
  exact ⟨k v, by rw [hk, hr, andThen_next]⟩
end

section
variable {m : ExecMode} {s : State} {a : MemRef} (hm : s.mode = .admitted m)
include hm

theorem readDecides_mmxInstr {e : LegacyEnc} (el : Elem) (hroom : PcRoom m e.len s) (hready : MmxReady s)
    (ha : e.rm = .mem a) :
    ReadDecides (mmxInstr el e) s (memOperand 64 (mmxMemForm e) m (pcNext e.len s) a s) := by
  rw [ReadDecides, exec_mmxInstr, mmxForm, startInstr_of_room hm hroom, andThen_next,
    (checkMmx_eq_next_iff s ()).mpr hready, andThen_next, mmxSource, ha]
  exact ⟨_, rfl⟩

theorem readDecides_xmmInstr {e : LegacyEnc} (el : Elem) (hroom : PcRoom m e.len s) (hready : SseReady s)
    (ha : e.rm = .mem a) :
    ReadDecides (xmmInstr el e) s (memOperand 128 (xmmMemForm e) m (pcNext e.len s) a s) := by
  rw [ReadDecides, exec_xmmInstr, xmmForm, startInstr_of_room hm hroom, andThen_next,
    (checkSse_eq_next_iff s ()).mpr hready, andThen_next, xmmSource, ha]
  exact ⟨_, rfl⟩

theorem readDecides_vexInstr {e : VexEnc} {wide : Bool} (el : Elem) (hroom : PcRoom m e.len s)
    (hfeat : VexFeature wide s) (hready : VexReady s) (ha : e.rm = .mem a) :
    ReadDecides (vexInstr wide el e) s (memOperand (vexBits wide) (vexMemForm e) m (pcNext e.len s) a s) := by
  rw [ReadDecides, exec_vexInstr, vexForm, startInstr_of_room hm hroom, andThen_next,
    (checkVex_eq_next_iff _ s ()).mpr ⟨(vexFeat_iff wide s).mpr hfeat, hready⟩, andThen_next, vexSource, ha]
  exact ⟨_, rfl⟩

theorem exec_evexInstr_of_ready {e : EvexEnc} {vl : VecLen} {el : Elem} (hroom : PcRoom m e.len s)
    (hfeat : EvexFeature vl el s) (hready : EvexReady s) : ∃ k : Src2 (vecBits vl) → State,
    exec (evexInstr vl el e) s = andThen (evexSource vl el m e s) fun s2 => .next (k s2) := by
  rw [exec_evexInstr, evexForm, startInstr_of_room hm hroom, andThen_next,
    (checkEvex_eq_next_iff _ s ()).mpr ⟨(evexFeat_iff vl el s).mpr hfeat, hready⟩, andThen_next]
  exact ⟨_, rfl⟩

theorem readDecides_evexInstr {e : EvexEnc} {vl : VecLen} {el : Elem} (hroom : PcRoom m e.len s)
    (hfeat : EvexFeature vl el s) (hready : EvexReady s) (ha : e.rm = .mem a) (hb : el = .dword → e.bcst = false) :
    ReadDecides (evexInstr vl el e) s
      (memOperand (vecBits vl) (evexMemForm (vecBits vl) e) m (pcNext e.len s) a s) := by
  obtain ⟨k, hk⟩ := exec_evexInstr_of_ready (e := e) hm hroom hfeat hready
  refine ⟨fun v => k (.full v), hk.trans ?_⟩
  have hsource : evexSource vl el m e s =
      andThen (memOperand (vecBits vl) (evexMemForm (vecBits vl) e) m (pcNext e.len s) a s) fun v =>
        .next (.full v) := by
    cases el with
    | dword => simp [evexSource, evexSourceD, ha, hb rfl]
    | byte | word => simp only [evexSource, evexSourceBW, ha]
  rw [hsource, andThen_assoc]
  rfl

theorem readDecides_evexInstr_bcst {e : EvexEnc} {vl : VecLen} (hroom : PcRoom m e.len s)
    (hfeat : EvexFeature vl .dword s) (hready : EvexReady s) (ha : e.rm = .mem a) (hb : e.bcst = true) :
    ReadDecides (evexInstr vl .dword e) s (memOperand 32 (bcstMemForm e) m (pcNext e.len s) a s) := by
  obtain ⟨k, hk⟩ := exec_evexInstr_of_ready (e := e) hm hroom hfeat hready
  refine ⟨fun v => k (.bcst v), hk.trans ?_⟩
  have hsource : evexSource vl .dword m e s =
      andThen (memOperand 32 (bcstMemForm e) m (pcNext e.len s) a s) fun v => .next (.bcst v) := by
    simp [evexSource, evexSourceD, ha, hb]
  rw [hsource, andThen_assoc]
  rfl
end

end Sys2Proof.Machine

open Sys2Proof Sys2Proof.Machine

/-! ## Memory -/

/-- Settles O6: a value is the sum of its bytes, a view of it is the value at a higher address, and a displacement is
its four bytes one above the other. -/
theorem memoryIsLittleEndian : Obligations.MemoryIsLittleEndian := by
  refine ⟨toNat_memValue, fun mem a i hi => ?_, fun mem a i hi => ?_, fun b0 b1 b2 b3 rest => ⟨_, rfl, ?_⟩⟩
  · have hview := extractLsb'_memValue mem a (w := 64) (k := 2 * i) (n := 2) (by omega)
    rw [← Nat.mul_assoc] at hview
    rw [hview, memValue_word, Nat.add_right_comm]
  · have hview := extractLsb'_memValue mem a (w := 64) (k := 4 * i) (n := 4) (by omega)
    rwa [← Nat.mul_assoc] at hview
  · simp only [toNat_append_eq_add]
    omega

/-- Settles O7, check by check: each clause is the lemma of the read's check, at the address of R43. -/
theorem memReadChecksInOrder : Obligations.MemReadChecksInOrder := by
  refine ⟨fun n al ac m seg ea s base la hfs hgs hother hla => ?_, fun e => ⟨rfl, rfl, rfl, rfl⟩, fun e => ⟨rfl, rfl⟩,
    fun vl e => ⟨rfl, rfl, rfl, rfl⟩⟩
  have haddr : linearAddr m seg ea s = la := by rw [linearAddr_eq, segBase_eq hfs hgs hother, hla]
  have hn : 8 * n / 8 = n := Nat.mul_div_cancel_left n (by decide)
  refine ⟨memRead_of_wrap haddr hn, fun hroom => ?_⟩
  have hbits : ∀ i, i < n → (CanonicalBits s.cpu.vaBits (la + i) ↔ IsCanonical s.cpu.vaBits (la + i)) := by
    have htop := Nat.le_of_dvd (by decide) (two_pow_addrBits_dvd m)
    exact fun i hi => canonicalBits_iff _ (by omega)
  refine ⟨fun ⟨h64, i, hi, hnot⟩ => ?_, fun hcanon => ?_⟩
  · have hfault := memRead_of_not_canonical (al := al) (ac := ac) haddr hn hroom
      fun hall => hnot ((hbits i hi).mpr (hall h64 i hi))
    exact ⟨fun hss => by rw [hfault, if_pos hss], fun hss => by rw [hfault, if_neg hss]⟩
  · replace hcanon : m = .m64 → ∀ i, i < n → IsCanonical s.cpu.vaBits (la + i) :=
      fun h64 i hi => (hbits i hi).mp (hcanon h64 i hi)
    refine ⟨memRead_of_misaligned haddr hn hroom hcanon, fun hal => ⟨fun ⟨i, hi, hnot⟩ => ?_, fun hacc => ?_⟩⟩
    · exact memRead_of_inaccessible haddr hn hroom hcanon hal fun hall => hnot (hall i hi)
    · have hchecked : (s.cr0.getLsbD 18 = true ∧ s.eflags.getLsbD 18 = true ∧ s.cpl = 3#2 ∧ la % ac ≠ 0) ↔
          acEnabled s = true ∧ la % ac ≠ 0 := by rw [acEnabled_iff, and_assoc, and_assoc]
      exact ⟨fun h => memRead_of_alignment_checked haddr hn hroom hcanon hal hacc (hchecked.mp h), fun h =>
        ⟨_, memRead_of_readable haddr hn hroom hcanon hal hacc (mt hchecked.mpr h), toNat_memValue s.mem la n⟩⟩

/-- Settles O11: where alignment alone can stop the read, the read of each class stops as its `al` and `ac` say, and the
form does as the read does. -/
theorem alignmentOfEachClass : Obligations.AlignmentOfEachClass := by
  refine ⟨fun e m s a la i hi hm hroom hready ha hat hread => ?_,
    fun e m s a la i hi hm hroom hready ha hat hread => ?_,
    fun e m s a la wide i hi hm hroom hfeat hready ha hat hread => ?_,
    fun e m s a la vl el i hi hm hroom hfeat hready ha => ⟨fun hb hat hread => ?_, fun hb hel hat hread => ?_⟩⟩
  · obtain ⟨el, rfl⟩ := exists_mmxInstr_of_mem hi
    rw [length_encode_mmxInstr] at hroom
    have hdec := readDecides_mmxInstr hm el hroom hready ha
    have hal : la % (mmxMemForm e).al = 0 := Nat.mod_one la
    exact ⟨fun hac => hdec.fault (memOperand_of_alignment_checked rfl hat hread hal hac),
      fun hac => hdec.completes (memOperand_of_aligned rfl hat hread hal hac)⟩
  · obtain ⟨el, rfl⟩ := exists_xmmInstr_of_mem hi
    rw [length_encode_xmmInstr] at hroom
    have hdec := readDecides_xmmInstr hm el hroom hready ha
    have hac : la % (xmmMemForm e).ac = 0 := Nat.mod_one la
    exact ⟨fun hal => hdec.fault (memOperand_of_misaligned rfl hat hread hal),
      fun hal => hdec.completes (memOperand_of_aligned rfl hat hread hal fun h => h.2 hac)⟩
  · obtain ⟨el, rfl⟩ := exists_vexInstr_of_mem_wide hi
    rw [length_encode_vexInstr] at hroom
    have hone : la % 1 = 0 := Nat.mod_one la
    exact (readDecides_vexInstr hm el hroom hfeat hready ha).completes
      (memOperand_of_aligned rfl hat hread hone fun h => h.2 hone)
  · obtain rfl := eq_evexInstr_of_mem hi
    rw [length_encode_evexInstr] at hroom
    have hone : la % 1 = 0 := Nat.mod_one la
    exact (readDecides_evexInstr hm hroom hfeat hready ha fun _ => hb).completes
      (memOperand_of_aligned rfl hat hread hone fun h => h.2 hone)
  · subst hel
    obtain rfl := eq_evexInstr_of_mem hi
    rw [length_encode_evexInstr] at hroom
    have hdec := readDecides_evexInstr_bcst hm hroom hfeat hready ha hb
    have hal : la % (bcstMemForm e).al = 0 := Nat.mod_one la
    exact ⟨fun hac => hdec.fault (memOperand_of_alignment_checked rfl hat hread hal hac),
      fun hac => hdec.completes (memOperand_of_aligned rfl hat hread hal hac)⟩

/-- Settles O54: memory is among what no form and no run writes. -/
theorem nothingStoresToMemory : Obligations.NothingStoresToMemory := by
  refine ⟨fun i s t h => ?_, fun n s t h => ?_⟩
  · obtain ⟨-, -, -, hmem⟩ := (exec_sameUnwritten h).sameFlagsAndMemory
    exact hmem
  · obtain ⟨-, -, -, -, hmem⟩ := h.sameUnwritten
    exact hmem

end

section
/-! The decoder answers only encodings (R72): whatever a layout answers is a well-formed instruction, and the bytes it
took are that instruction's. -/

set_option Elab.async false

namespace Sys2Proof

/-- What an answer `r` to the bytes `bs` after the prefixes `ps` means: no F0H, F2H or F3H was read, and after well-formed
prefixes the answer is a well-formed instruction whose bytes are the ones taken. -/
def AnswersEncoded (m : ExecMode) (ps : List Pfx) (lr : Option LockRep) (bs : List Byte) (r : DecodeResult) : Prop :=
  ∀ i rest, r = .ok (i, rest) →
    lr = none ∧ (pfxWf ps = true → ps.map Pfx.byte ++ bs = encode i ++ rest ∧ i.wf m = true)

variable {m : ExecMode} {ps : List Pfx} {lr : Option LockRep}

/-! ## Legacy forms -/

theorem decodeLegacy_answersEncoded {rex : Option Rex} (hrex : m = .m64 ∨ rex = none) (bs : List Byte) :
    AnswersEncoded m ps lr (rexBytes rex ++ 0x0F#8 :: bs) (decodeLegacy m ps lr rex bs) := by
  intro i rest h
  cases bs with
  | nil => cases h
  | cons op bs =>
    simp only [decodeLegacy] at h
    cases hop : elemOf op with
    | none => simp [hop] at h
    | some el =>
      obtain rfl := opcode_of_elemOf hop
      simp only [hop] at h
      match lr with
      | some .lock | some .repne | some .rep => cases h
      | none =>
        obtain ⟨⟨reg, rm, bs'⟩, hmod, hout⟩ := (except_bind_eq_ok_iff ..).mp h
        obtain ⟨rfl, hrm, ha⟩ := readModRm_sound hmod
        refine ⟨rfl, fun hps => ?_⟩
        have hwf : LegacyEnc.wf m ⟨ps, rex, reg, rm⟩ = true :=
          (LegacyEnc.wf_iff ..).mpr ⟨(operandsWf_iff ..).mpr ⟨hps, hrm, ha⟩, hrex⟩
        simp only [except_pure] at hout
        split at hout
        next hopsize =>
          cases hout
          exact ⟨by simp [encodeLegacy], by rw [wf_xmmInstr, LegacyEnc.wfXmm_iff]; exact ⟨hwf, hopsize⟩⟩
        next hopsize =>
          split at hout
          · cases hout
          next hhigh =>
            cases hout
            simp only [Bool.or_eq_true, not_or, Bool.not_eq_true] at hopsize hhigh
            exact ⟨by simp [encodeLegacy], by rw [wf_mmxInstr, LegacyEnc.wfMmx_iff]; exact ⟨hwf, hopsize, hhigh⟩⟩

/-! ## VEX forms -/

theorem vexChecks_ok {bs : List Byte} {r : DecodeResult} {a : Instr × List Byte}
    (h : (do isVexIn m bs; vexPrefixesOk ps lr; r) = .ok a) :
    lr = none ∧ ps.contains .opSize = false ∧ r = .ok a := by
  obtain ⟨_, -, h⟩ := (except_bind_eq_ok_iff ..).mp h
  obtain ⟨_, hok, h⟩ := (except_bind_eq_ok_iff ..).mp h
  exact ⟨(vexPrefixesOk_sound hok).1, (vexPrefixesOk_sound hok).2, h⟩

theorem decodeVexBody_sound {head : VexHead} {vvvv : BitVec 4} {l : Bool} {pp : BitVec 2} {op : Byte}
    {bs : List Byte} {i : Instr} {rest : List Byte} (hno : ps.contains .opSize = false)
    (h : decodeVexBody m ps head vvvv l pp op bs = .ok (i, rest)) : pp = 1#2 ∧ (pfxWf ps = true →
      ps.map Pfx.byte ++ (head.bytes vvvv l ++ op :: bs) = encode i ++ rest ∧ i.wf m = true) := by
  unfold decodeVexBody at h
  cases hop : elemOf op with
  | none => simp [hop] at h
  | some el =>
    obtain rfl := opcode_of_elemOf hop
    simp only [hop] at h
    split at h
    · cases h
    rename_i hpp
    split at h
    · cases h
    rename_i hhigh
    obtain ⟨⟨reg, rm, bs'⟩, hmod, hout⟩ := (except_bind_eq_ok_iff ..).mp h
    obtain ⟨rfl, hrm, ha⟩ := readModRm_sound hmod
    cases hout
    refine ⟨not_not.mp hpp, fun hps => ⟨by simp [encodeVex], ?_⟩⟩
    rw [wf_vexInstr, VexEnc.wf_iff]
    refine ⟨(operandsWf_iff ..).mpr ⟨hps, hrm, ha⟩, hno, ?_⟩
    cases m with
    | m64 => exact .inl rfl
    | m32 => simpa [and_assoc] using hhigh

theorem decodeC5_answersEncoded (bs : List Byte) : AnswersEncoded m ps lr (0xC5#8 :: bs) (decodeC5 m ps lr bs) := by
  intro i rest h
  obtain ⟨hlr, hno, h⟩ := vexChecks_ok h
  refine ⟨hlr, ?_⟩
  match bs with
  | [] | [_] => cases h
  | b1 :: op :: bs =>
    obtain ⟨hpp, hbody⟩ := decodeVexBody_sound hno h
    simpa only [VexHead.bytes, vexTwo_of_fields b1 hpp, List.cons_append, List.nil_append] using hbody

theorem decodeC4_answersEncoded (bs : List Byte) : AnswersEncoded m ps lr (0xC4#8 :: bs) (decodeC4 m ps lr bs) := by
  intro i rest h
  obtain ⟨hlr, hno, h⟩ := vexChecks_ok h
  refine ⟨hlr, ?_⟩
  match bs with
  | [] | [_] | [_, _] => cases h
  | b1 :: b2 :: op :: bs =>
    simp only at h
    split at h
    · cases h
    next hmap =>
      obtain ⟨hpp, hbody⟩ := decodeVexBody_sound hno h
      simpa only [VexHead.bytes, vexThree1_of_fields b1 (not_not.mp hmap), vexThree2_of_fields b2 hpp,
        List.cons_append, List.nil_append] using hbody

/-! ## EVEX forms -/

/-- The fields that the decoder takes out of P0, P1 and P2. -/
def evexEncOf (ps : List Pfx) (p0 p1 p2 : Byte) (reg : BitVec 3) (rm : RegMem) : EvexEnc where
  pfx := ps
  x := !p0.getLsbD 6
  b := !p0.getLsbD 5
  w := p1.getLsbD 7
  v5 := ~~~ (p2.extractLsb' 3 1 ++ p1.extractLsb' 3 4)
  bcst := p2.getLsbD 4
  aaa := p2.extractLsb' 0 3
  reg := reg
  rm := rm

theorem v5_fields : ∀ (a : BitVec 1) (b : BitVec 4), ~~~ (~~~ (a ++ b)).extractLsb' 4 1 = a ∧
    ~~~ (~~~ (a ++ b)).extractLsb' 0 4 = b := by decide

theorem v5_bits : ∀ (a : BitVec 1) (b : BitVec 4), (~~~ (a ++ b)).getLsbD 3 = !b.getLsbD 3 ∧
    (~~~ (a ++ b)).getLsbD 4 = !a.getLsbD 0 := by decide

variable {p0 p1 p2 : Byte} {reg : BitVec 3} {rm : RegMem}

/-- Packed again, the fields are the bytes, where the bits without a field have their values (R64, R65). -/
theorem bytes_evexEncOf {vl : VecLen} (hmap : p0.extractLsb' 0 4 = 1#4) (hpp : p1.extractLsb' 0 3 = 5#3)
    (hR : p0.getLsbD 7 = true) (hR' : p0.getLsbD 4 = true) (hz : p2.getLsbD 7 = false)
    (hll : p2.extractLsb' 5 2 = vl.ll) : (evexEncOf ps p0 p1 p2 reg rm).p0 = p0 ∧
      (evexEncOf ps p0 p1 p2 reg rm).p1 = p1 ∧ (evexEncOf ps p0 p1 p2 reg rm).p2 vl = p2 := by
  obtain ⟨hv4, hv⟩ := v5_fields (p2.extractLsb' 3 1) (p1.extractLsb' 3 4)
  refine ⟨evexP0_of_fields p0 hmap hR hR', ?_, ?_⟩
  · simp only [EvexEnc.p1, evexEncOf, hv]
    exact evexP1_of_fields p1 hpp
  · simp only [EvexEnc.p2, evexEncOf, hv4, ← hll]
    exact evexP2_of_fields p2 hz

/-- What `evexReserved` leaves is well formed (R65, D23). -/
theorem wf_evexEncOf {vl : VecLen} {el : Elem} (hps : pfxWf ps = true) (hno : ps.contains .opSize = false)
    (hrm : rm.wf = true) (ha : addrSizeOk m ps rm = true) (hres : evexReserved m p0 p1 p2 el = false)
    (hreg : (p2.getLsbD 4 && rm.isReg) = false) : (evexInstr vl el (evexEncOf ps p0 p1 p2 reg rm)).wf m = true := by
  obtain ⟨hv3, hv4⟩ := v5_bits (p2.extractLsb' 3 1) (p1.extractLsb' 3 4)
  simp only [evexReserved, Bool.or_eq_false_iff] at hres
  obtain ⟨⟨⟨-, hw⟩, hbc⟩, hhigh⟩ := hres
  have hwf : (evexEncOf ps p0 p1 p2 reg rm).wf m = true := by
    rw [EvexEnc.wf_iff]
    refine ⟨(operandsWf_iff ..).mpr ⟨hps, hrm, ha⟩, hno, ?_⟩
    cases m with
    | m64 => exact .inl rfl
    | m32 => simp_all [evexEncOf]
  by_cases hel : el = .dword
  · have hw0 : p1.getLsbD 7 = false := by simpa [hel] using hw
    rw [wf_evexInstr, if_pos hel, EvexEnc.wfD, hwf]
    simp only [evexEncOf, hw0, hreg, Bool.not_false, Bool.and_true]
  · have hb0 : p2.getLsbD 4 = false := by simpa [hel] using hbc
    rw [wf_evexInstr, if_neg hel, EvexEnc.wfBW, hwf]
    simp only [evexEncOf, hb0, Bool.not_false, Bool.and_true]

theorem decodeEvex_answersEncoded (bs : List Byte) : AnswersEncoded m ps lr (0x62#8 :: bs) (decodeEvex m ps lr bs) := by
  intro i rest h
  obtain ⟨hlr, hno, h⟩ := vexChecks_ok h
  refine ⟨hlr, fun hps => ?_⟩
  match bs with
  | [] | [_] | [_, _] | [_, _, _] => cases h
  | p0 :: p1 :: p2 :: op :: bs =>
    simp only at h
    cases hop : elemOf op with
    | none => simp [hop] at h
    | some el =>
      obtain rfl := opcode_of_elemOf hop
      simp only [hop] at h
      split at h
      · cases h
      rename_i hfixed
      split at h
      · cases h
      rename_i hres
      cases hvl : vecLenOf (p2.extractLsb' 5 2) with
      | none => simp [hvl] at h
      | some vl =>
        simp only [hvl] at h
        obtain ⟨⟨reg, rm, bs'⟩, hmod, hout⟩ := (except_bind_eq_ok_iff ..).mp h
        obtain ⟨rfl, hrm, ha⟩ := readModRm_sound hmod
        simp only [except_pure] at hout
        split at hout
        · cases hout
        rename_i hreg
        obtain ⟨rfl, rfl⟩ : evexInstr vl el (evexEncOf ps p0 p1 p2 reg rm) = i ∧ bs' = rest :=
          Prod.mk.inj (Except.ok.inj hout)
        simp only [Bool.not_eq_true] at hres hreg
        refine ⟨?_, wf_evexEncOf hps hno hrm ha hres hreg⟩
        obtain ⟨hmap, hpp⟩ : p0.extractLsb' 0 4 = 1#4 ∧ p1.extractLsb' 0 3 = 5#3 := by simpa using hfixed
        simp only [evexReserved, Bool.or_eq_false_iff, Bool.not_eq_false'] at hres
        obtain ⟨⟨⟨⟨⟨hz, hR⟩, hR'⟩, -⟩, -⟩, -⟩ := hres
        obtain ⟨h0, h1, h2⟩ := bytes_evexEncOf (ps := ps) (reg := reg) (rm := rm) hmap hpp hR hR' hz
          (ll_of_vecLenOf hvl)
        rw [Machine.encode_evexInstr, encodeEvex, h0, h1, h2]
        simp [evexEncOf]

/-! ## Every form -/

theorem decodeOpcode_answersEncoded (bs : List Byte) : AnswersEncoded m ps lr bs (decodeOpcode m ps lr bs) := by
  intro i rest h
  cases bs with
  | nil => cases h
  | cons b bs =>
    simp only [decodeOpcode] at h
    split at h
    next hrex =>
      obtain ⟨rfl, hb⟩ := hrex
      rw [← rexOf_byte b hb]
      cases bs with
      | nil => cases h
      | cons c bs =>
        simp only [decodeAfterRex] at h
        split at h
        next hc => subst hc; exact decodeLegacy_answersEncoded (rex := some (rexOf b)) (.inl rfl) bs i rest h
        · split at h
          · cases h
          · split at h <;> cases h
    · split at h
      next hb => subst hb; exact decodeLegacy_answersEncoded (rex := none) (.inr rfl) bs i rest h
      · split at h
        next hb => subst hb; exact decodeC5_answersEncoded bs i rest h
        · split at h
          next hb => subst hb; exact decodeC4_answersEncoded bs i rest h
          · split at h
            next hb => subst hb; exact decodeEvex_answersEncoded bs i rest h
            · cases h

/-- What the decoder answers is a well-formed instruction and exactly its bytes (R72). -/
theorem decode_sound {bs : List Byte} {i : Instr} {rest : List Byte} (h : decode m bs = .ok (i, rest)) :
    bs = encode i ++ rest ∧ i.wf m = true := by
  obtain ⟨⟨ps, lr, bs'⟩, hpfx, h⟩ := (except_bind_eq_ok_iff ..).mp h
  obtain ⟨hlr, hans⟩ := decodeOpcode_answersEncoded bs' i rest h
  obtain ⟨ps', hps, rfl, hwf, -⟩ := (readPrefixes_sound bs [] none ps lr bs' hpfx).2 hlr
  obtain rfl : ps = ps' := hps
  exact hans hwf

end Sys2Proof
end

section
/-! The decoder's errors (R69, R72, D15): what it answers to a byte that starts no form, to prefixes out of place, and
to VEX and EVEX prefixes of no form or with a reserved field. -/

set_option Elab.async false

namespace Sys2Proof

/-! ## Single bytes -/

theorem pfxByteOf_eq_none : ∀ b : Byte, b ∉ [0x26#8, 0x2E#8, 0x36#8, 0x3E#8, 0x64#8, 0x65#8, 0x66#8, 0x67#8, 0xF0#8,
    0xF2#8, 0xF3#8] → pfxByteOf b = none := by decide

theorem pfxByteOf_isSome : ∀ b : Byte, b ∈ [0x26#8, 0x2E#8, 0x36#8, 0x3E#8, 0x64#8, 0x65#8, 0x66#8, 0x67#8, 0xF0#8,
    0xF2#8, 0xF3#8] → (pfxByteOf b).isSome = true := by decide

theorem exists_lockRep_of_mem {l : Byte} (h : l ∈ [0xF0#8, 0xF2#8, 0xF3#8]) :
    ∃ x, pfxByteOf l = some (.lockRep x) := by
  simp only [List.mem_cons, List.not_mem_nil, or_false] at h
  rcases h with rfl | rfl | rfl
  · exact ⟨.lock, rfl⟩
  · exact ⟨.repne, rfl⟩
  · exact ⟨.rep, rfl⟩

theorem isRex_iff : ∀ b : Byte, isRex b = true ↔ 0x40#8 ≤ b ∧ b ≤ 0x4F#8 := by decide

theorem isRex_of_outside {b : Byte} (h : b < 0x40#8 ∨ 0x4F#8 < b) : isRex b = false := by
  rw [Bool.eq_false_iff, Ne, isRex_iff]
  rintro ⟨hlow, hhigh⟩
  exact h.elim (fun h => BitVec.not_lt.mpr hlow h) fun h => BitVec.not_lt.mpr hhigh h

theorem elemOf_eq_none : ∀ op : Byte, op ∉ [0x74#8, 0x75#8, 0x76#8] → elemOf op = none := by decide

theorem vecLenOf_eq_none_iff : ∀ ll : BitVec 2, vecLenOf ll = none ↔ ll = 3#2 := by decide

variable {m : ExecMode} {ps qs : List Pfx} {rex : Option Rex}

/-! ## Prefixes out of place (D15) -/

theorem readPrefixes_repeated {p q : Pfx} (hq : q ∈ ps) (hg : q.sameGroup p = true) (lr : Option LockRep)
    (rest : List Byte) : readPrefixes ps lr (p.byte :: rest) = .error .repeatedPrefix := by
  have hany : ps.any (fun q => q.sameGroup p) = true := List.any_eq_true.mpr ⟨q, hq, hg⟩
  simp only [readPrefixes, pfxByteOf_byte, hany, if_true]

theorem readPrefixes_lockRep {l : Byte} {x : LockRep} (hl : pfxByteOf l = some (.lockRep x))
    (rest : List Byte) : readPrefixes ps none (l :: rest) = readPrefixes ps (some x) rest := by
  simp [readPrefixes, hl]

theorem readPrefixes_second_lockRep {l : Byte} {x : LockRep} (hl : pfxByteOf l = some (.lockRep x)) (y : LockRep)
    (rest : List Byte) : readPrefixes ps (some y) (l :: rest) = .error .repeatedPrefix := by
  simp [readPrefixes, hl]

/-! ## Bytes that start no form (D1) -/

theorem decodeOpcode_of_no_form {b : Byte} (hb : b ∉ [0x0F#8, 0xC4#8, 0xC5#8, 0x62#8])
    (hrex : m = .m32 ∨ isRex b = false) (lr : Option LockRep) (rest : List Byte) :
    decodeOpcode m ps lr (b :: rest) = .error .unknownOpcode := by
  have hno : ¬ (m = .m64 ∧ isRex b = true) := by rcases hrex with rfl | h <;> simp [*]
  simp only [List.mem_cons, List.not_mem_nil, or_false, not_or] at hb
  simp only [decodeOpcode, hno, hb, if_false]

theorem decodeAfterRex_of_no_form {b : Byte} (hb : b ∉ [0x0F#8, 0xC4#8, 0xC5#8, 0x62#8]) (hpfx : pfxByteOf b = none)
    (hrex : isRex b = false) (lr : Option LockRep) (r : Rex) (rest : List Byte) :
    decodeAfterRex m ps lr r (b :: rest) = .error .unknownOpcode := by
  simp only [List.mem_cons, List.not_mem_nil, or_false, not_or] at hb
  simp [decodeAfterRex, hpfx, hrex, hb]

/-! ## Legacy forms -/

theorem decodeOpcode_legacyHead (hrex : rex.isSome = true → m = .m64) (lr : Option LockRep) (bs : List Byte) :
    decodeOpcode m ps lr (rexBytes rex ++ 0x0F#8 :: bs) = decodeLegacy m ps lr rex bs := by
  cases rex with
  | none => exact decodeOpcode_0F ..
  | some r =>
    obtain rfl := hrex rfl
    rw [rexBytes, List.cons_append, List.nil_append, decodeOpcode_rex, decodeAfterRex, if_pos rfl]

/-- REX and 0FH end the prefixes. -/
theorem exists_legacyHead (rex : Option Rex) (bs : List Byte) :
    ∃ b tail, rexBytes rex ++ 0x0F#8 :: bs = b :: tail ∧ pfxByteOf b = none := by
  cases rex with
  | none => exact ⟨_, _, rfl, rfl⟩
  | some r => exact ⟨_, _, rfl, (isRex_byte r).2.2⟩

theorem decode_prefixes_legacyHead {lock : List Byte} (hps : pfxWf (ps ++ qs) = true)
    (hlock : lock ∈ [[], [0xF0#8], [0xF2#8], [0xF3#8]]) (hrex : rex.isSome = true → m = .m64) (bs : List Byte) :
    ∃ lr, decode m (ps.map Pfx.byte ++ lock ++ qs.map Pfx.byte ++ (rexBytes rex ++ 0x0F#8 :: bs)) =
      decodeLegacy m (ps ++ qs) lr rex bs := by
  obtain ⟨b, tail, heq, hb⟩ := exists_legacyHead rex bs
  obtain ⟨lr, hlr⟩ := decode_prefixes m ps qs b tail hps hlock hb
  exact ⟨lr, by rw [← decodeOpcode_legacyHead hrex, heq, hlr]⟩

theorem decode_lockRep_legacyHead {l : Byte} {x : LockRep} (hps : pfxWf (ps ++ qs) = true)
    (hl : pfxByteOf l = some (.lockRep x)) (hrex : rex.isSome = true → m = .m64) (bs : List Byte) :
    decode m (ps.map Pfx.byte ++ l :: (qs.map Pfx.byte ++ (rexBytes rex ++ 0x0F#8 :: bs))) =
      decodeLegacy m (ps ++ qs) (some x) rex bs := by
  obtain ⟨b, tail, heq, hb⟩ := exists_legacyHead rex bs
  rw [← decodeOpcode_legacyHead hrex, heq, decode_pfx_lockRep m ps qs l x b tail hps hl hb]

theorem decodeLegacy_unknown {op : Byte} (hop : elemOf op = none) (lr : Option LockRep) (bs : List Byte) :
    decodeLegacy m ps lr rex (op :: bs) = .error .unknownOpcode := by
  simp only [decodeLegacy, hop]

/-! ## The checks after C4, C5 and 62 -/

/-- C4, C5 and 62 are read alike up to the two checks: in 32-bit mode the next byte, then the prefixes. -/
theorem decodeOpcode_vexPrefix {b : Byte} (hb : b ∈ [0xC4#8, 0xC5#8, 0x62#8]) (lr : Option LockRep) (bs : List Byte) :
    ∃ r : DecodeResult, decodeOpcode m ps lr (b :: bs) = (do isVexIn m bs; vexPrefixesOk ps lr; r) := by
  simp only [List.mem_cons, List.not_mem_nil, or_false] at hb
  rcases hb with rfl | rfl | rfl
  · exact ⟨_, decodeOpcode_C4 ..⟩
  · exact ⟨_, decodeOpcode_C5 ..⟩
  · exact ⟨_, decodeOpcode_62 ..⟩

theorem pfxByteOf_vexPrefix : ∀ b : Byte, b ∈ [0xC4#8, 0xC5#8, 0x62#8] → pfxByteOf b = none := by decide

theorem decodeOpcode_vexPrefix_ud {b next : Byte} {lr : Option LockRep} (hb : b ∈ [0xC4#8, 0xC5#8, 0x62#8])
    (hin : m = .m64 ∨ next.extractLsb' 6 2 = 3#2) (hbad : (lr.isSome || ps.contains .opSize) = true)
    (rest : List Byte) : decodeOpcode m ps lr (b :: next :: rest) = .error .ud := by
  obtain ⟨r, hr⟩ := decodeOpcode_vexPrefix (m := m) (ps := ps) hb lr (next :: rest)
  rw [hr, isVexIn_of_bits rest hin, vexPrefixesOk, if_pos hbad]
  rfl

theorem decodeOpcode_vexPrefix_of_bits {b next : Byte} (hb : b ∈ [0xC4#8, 0xC5#8, 0x62#8])
    (hbits : next.extractLsb' 6 2 ≠ 3#2) (lr : Option LockRep) (rest : List Byte) :
    decodeOpcode .m32 ps lr (b :: next :: rest) = .error .unknownOpcode := by
  obtain ⟨r, hr⟩ := decodeOpcode_vexPrefix (m := .m32) (ps := ps) hb lr (next :: rest)
  rw [hr, isVexIn, if_neg hbits]
  rfl

theorem decodeAfterRex_vexPrefix {b : Byte} (hb : b ∈ [0xC4#8, 0xC5#8, 0x62#8]) (lr : Option LockRep) (r : Rex)
    (rest : List Byte) : decodeAfterRex m ps lr r (b :: rest) = .error .ud := by
  simp only [List.mem_cons, List.not_mem_nil, or_false] at hb
  rcases hb with rfl | rfl | rfl <;> rfl

theorem decodeAfterRex_misplaced {b : Byte} (hb : (pfxByteOf b).isSome = true ∨ isRex b = true)
    (lr : Option LockRep) (r : Rex) (rest : List Byte) :
    decodeAfterRex m ps lr r (b :: rest) = .error .misplacedRex := by
  have hne : b ≠ 0x0F#8 := by rintro rfl; revert hb; decide
  simp only [decodeAfterRex, if_neg hne, Bool.or_eq_true, if_pos hb]

/-! ## VEX forms -/

/-- The prefixes of a VEX or EVEX form, without 66H (R51), and what tells C4, C5 and 62 from another instruction in
32-bit mode. -/
structure VexStart (m : ExecMode) (ps : List Pfx) (next : Byte) : Prop where
  wf : pfxWf ps = true
  no_opSize : .opSize ∉ ps
  bits : m = .m64 ∨ next.extractLsb' 6 2 = 3#2

theorem VexStart.checks {next : Byte} (h : VexStart m ps next) (rest : List Byte) (r : DecodeResult) :
    (do isVexIn m (next :: rest); vexPrefixesOk ps none; r) = r := by
  have hno : ps.contains .opSize = false := by simpa using h.no_opSize
  rw [isVexIn_of_bits rest h.bits, vexPrefixesOk_of_no_opSize hno]
  rfl

theorem decode_C5 {b1 : Byte} (h : VexStart m ps b1) (op : Byte) (bs : List Byte) :
    decode m (ps.map Pfx.byte ++ 0xC5#8 :: b1 :: op :: bs) = decodeVexBody m ps (.two (!b1.getLsbD 7))
      (~~~ b1.extractLsb' 3 4) (b1.getLsbD 2) (b1.extractLsb' 0 2) op bs := by
  rw [decode_pfx _ _ _ _ h.wf rfl, decodeOpcode_C5]
  exact h.checks ..

theorem decode_C4 {b1 : Byte} (h : VexStart m ps b1) (b2 op : Byte) (bs : List Byte) :
    decode m (ps.map Pfx.byte ++ 0xC4#8 :: b1 :: b2 :: op :: bs) =
      if b1.extractLsb' 0 5 ≠ 1#5 then .error .unknownOpcode
      else decodeVexBody m ps (.three (!b1.getLsbD 7) (!b1.getLsbD 6) (!b1.getLsbD 5) (b2.getLsbD 7))
        (~~~ b2.extractLsb' 3 4) (b2.getLsbD 2) (b2.extractLsb' 0 2) op bs := by
  rw [decode_pfx _ _ _ _ h.wf rfl, decodeOpcode_C4]
  exact h.checks ..

/-- In either spelling a VEX form without 66H, that names no high register in 32-bit mode, is read up to its opcode. -/
theorem decode_vexHead {head : VexHead} {vvvv : BitVec 4} {l : Bool} (hps : pfxWf ps = true) (hno : .opSize ∉ ps)
    (hlow : m = .m64 ∨ (head.r || head.x || head.b || vvvv.msb) = false) (op : Byte) (bs : List Byte) :
    decode m (ps.map Pfx.byte ++ (head.bytes vvvv l ++ op :: bs)) = decodeVexBody m ps head vvvv l 1#2 op bs := by
  simp only [Bool.or_eq_false_iff] at hlow
  cases head with
  | two r =>
    obtain ⟨hr, hv, hl, hpp, hbits⟩ := vexTwo_fields r vvvv l
    have hstart : VexStart m ps (bit (!r) ++ ~~~ vvvv ++ bit l ++ 1#2) :=
      ⟨hps, hno, hlow.imp_right fun ⟨⟨⟨hr, _⟩, _⟩, hv⟩ => hbits.mpr ⟨hr, hv⟩⟩
    exact (decode_C5 hstart op bs).trans (by rw [hr, hv, hl, hpp])
  | three r x b w =>
    obtain ⟨hr, hx, hb, hmap, hbits⟩ := vexThree1_fields r x b
    obtain ⟨hw, hv, hl, hpp⟩ := vexThree2_fields w vvvv l
    have hstart : VexStart m ps (bit (!r) ++ bit (!x) ++ bit (!b) ++ 1#5) :=
      ⟨hps, hno, hlow.imp_right fun ⟨⟨⟨hr, hx⟩, _⟩, _⟩ => hbits.mpr ⟨hr, hx⟩⟩
    refine (decode_C4 hstart _ op bs).trans ?_
    rw [if_neg (not_not.mpr hmap), hr, hx, hb, hw, hv, hl, hpp]

section
variable {head : VexHead} {vvvv : BitVec 4} {l : Bool} {pp : BitVec 2} {op : Byte} {bs : List Byte}

theorem decodeVexBody_unknown (h : pp ≠ 1#2 ∨ op ∉ [0x74#8, 0x75#8, 0x76#8]) :
    decodeVexBody m ps head vvvv l pp op bs = .error .unknownOpcode := by
  unfold decodeVexBody
  cases hop : elemOf op with
  | none => rfl
  | some el =>
    have hpp : pp ≠ 1#2 := h.resolve_right fun h => by simp [elemOf_eq_none op h] at hop
    simp only [if_pos hpp]

theorem decodeVexBody_high (el : Elem) (h : (head.r || head.x || head.b || vvvv.msb) = true) :
    decodeVexBody .m32 ps head vvvv l 1#2 el.opcode bs = .error .vexHighRegIn32 := by
  simp [decodeVexBody, h]

theorem decodeVexBody_of_modRm_error {d : DecodeError} (el : Elem)
    (hlow : m = .m64 ∨ (head.r || head.x || head.b || vvvv.msb) = false) (h : readModRm m ps bs = .error d) :
    decodeVexBody m ps head vvvv l 1#2 el.opcode bs = .error d := by
  have hno : ¬ (m = .m32 ∧ (head.r || head.x || head.b || vvvv.msb) = true) := by
    rcases hlow with rfl | hlow <;> simp [*]
  simp only [decodeVexBody, elemOf_opcode, ne_eq, not_true_eq_false, if_false, if_neg hno, h, except_bind_error]
end

/-! ## EVEX forms -/

section
variable {p0 p1 p2 : Byte}

theorem decode_62 (h : VexStart m ps p0) (bs : List Byte) :
    decode m (ps.map Pfx.byte ++ 0x62#8 :: p0 :: bs) = decodeEvex m ps none (p0 :: bs) := by
  rw [decode_pfx _ _ _ _ h.wf rfl, decodeOpcode_62]

theorem decodeEvex_unknown {op : Byte} (h : VexStart m ps p0) (bs : List Byte)
    (hno : p0.extractLsb' 0 4 ≠ 1#4 ∨ p1.extractLsb' 0 3 ≠ 5#3 ∨ op ∉ [0x74#8, 0x75#8, 0x76#8]) :
    decodeEvex m ps none (p0 :: p1 :: p2 :: op :: bs) = .error .unknownOpcode := by
  refine (h.checks _ _).trans ?_
  cases hop : elemOf op with
  | none => simp only [hop]
  | some el =>
    have hfixed : p0.extractLsb' 0 4 ≠ 1#4 ∨ p1.extractLsb' 0 3 ≠ 5#3 :=
      hno.imp_right fun h => h.resolve_right fun h => by simp [elemOf_eq_none op h] at hop
    simp only [hop, if_pos hfixed]

/-- `P0` and `P1` with the map, `pp` and the bit that every EVEX form has (R64). -/
def EvexFixed (p0 p1 : Byte) : Prop := p0.extractLsb' 0 4 = 1#4 ∧ p1.extractLsb' 0 3 = 5#3

theorem decodeEvex_reserved {el : Elem} (h : VexStart m ps p0) (hfixed : EvexFixed p0 p1) (bs : List Byte)
    (hres : evexReserved m p0 p1 p2 el = true ∨ p2.extractLsb' 5 2 = 3#2) :
    decodeEvex m ps none (p0 :: p1 :: p2 :: el.opcode :: bs) = .error .evexReservedField := by
  obtain ⟨hmap, hpp⟩ := hfixed
  refine (h.checks _ _).trans ?_
  cases hr : evexReserved m p0 p1 p2 el with
  | true => simp [hmap, hpp, hr]
  | false =>
    have hll := (vecLenOf_eq_none_iff _).mpr (hres.resolve_left (by simp [hr]))
    simp [hmap, hpp, hr, hll]

/-- Where P0 to P2 show no reserved field, ModRM decides: an error of its own, or a broadcast from a register
(R65). -/
theorem decodeEvex_modRm {el : Elem} (h : VexStart m ps p0) (hfixed : EvexFixed p0 p1) {bs : List Byte}
    {d : DecodeError} (hres : evexReserved m p0 p1 p2 el = false) (hll : p2.extractLsb' 5 2 ≠ 3#2)
    (hmod : readModRm m ps bs = .error d ∨ d = .evexReservedField ∧ p2.getLsbD 4 = true ∧
      ∃ reg rm bs', readModRm m ps bs = .ok (reg, rm, bs') ∧ rm.isReg = true) :
    decodeEvex m ps none (p0 :: p1 :: p2 :: el.opcode :: bs) = .error d := by
  obtain ⟨hmap, hpp⟩ := hfixed
  obtain ⟨vl, hvl⟩ := Option.ne_none_iff_exists'.mp (mt (vecLenOf_eq_none_iff _).mp hll)
  refine (h.checks _ _).trans ?_
  rcases hmod with hmod | ⟨rfl, hbc, reg, rm, bs', hmod, hreg⟩
  · simp [hmap, hpp, hres, hvl, hmod]
  · simp [hmap, hpp, hres, hvl, hmod, hbc, hreg]

/-- The reserved combinations show in the bytes that the fields but prefixes and operand make, so those two can be taken
to be well formed. -/
theorem evexReserved_of_low {e : EvexEnc} (vl : VecLen) {el : Elem} (hx : e.x = false) (hb : e.b = false)
    (hv : e.v5.toNat < 8) (hw : el = .dword → e.w = false) (hbc : e.bcst = true → el = .dword) :
    evexReserved .m32 e.p0 e.p1 (e.p2 vl) el = false := by
  have hlow : ∀ v : BitVec 5, v.toNat < 8 → v.getLsbD 3 = false ∧ v.getLsbD 4 = false := by decide
  refine evexReserved_encode (e := { e with pfx := [], rm := .mem (.disp 0#32) }) ?_
  have hwf : EvexEnc.wf .m32 { e with pfx := [], rm := .mem (.disp 0#32) } = true :=
    (EvexEnc.wf_iff ..).mpr ⟨rfl, rfl, .inr ⟨hx, hb, hlow e.v5 hv⟩⟩
  rw [wf_evexInstr]
  split
  next hel => rw [EvexEnc.wfD, hwf]; simp [hw hel, RegMem.isReg]
  next hel => rw [EvexEnc.wfBW, hwf]; simp [mt hbc hel]
end

/-! ## A memory operand with a 16-bit address size (R59, D26) -/

theorem readModRm_addr16 (hps : .addrSize ∈ ps) (reg : BitVec 3) (a : MemRef) (rest : List Byte) :
    readModRm .m32 ps (modRmBytes reg (.mem a) ++ rest) = .error .addr16 := by
  have hmd : (RegMem.mem a).md ≠ 3#2 := fun h => by simpa [RegMem.isReg] using isReg_iff_md _ h
  obtain ⟨e1, -, -⟩ := sibByte_fields (RegMem.mem a).md reg (RegMem.mem a).rmField
  rw [modRmBytes, List.cons_append, readModRm, modRmByte_eq, e1, if_pos ⟨hmd, rfl, by simpa using hps⟩]

/-! ## Shortest forms (R50) -/

theorem LegacyEnc.three_le_len (e : LegacyEnc) : 3 ≤ e.len := by
  unfold LegacyEnc.len
  omega

theorem VexEnc.four_le_len (e : VexEnc) : 4 ≤ e.len := by
  have hhead : 2 ≤ e.head.len := by cases e.head <;> simp [VexHead.len]
  unfold VexEnc.len
  omega

theorem EvexEnc.six_le_len (e : EvexEnc) : 6 ≤ e.len := by
  unfold EvexEnc.len
  omega

/-! ## Lists of the legacy forms -/

theorem Machine.exists_legacy_of_mem {e : LegacyEnc} {i : Instr} (h : i ∈ [Instr.pcmpeqbMmx e, .pcmpeqwMmx e,
    .pcmpeqdMmx e, .pcmpeqbXmm e, .pcmpeqwXmm e, .pcmpeqdXmm e]) : ∃ el, i = mmxInstr el e ∨ i = xmmInstr el e := by
  rcases List.mem_append.mp (show i ∈ (elems.map fun el => mmxInstr el e) ++ elems.map fun el => xmmInstr el e from h)
    with h | h
  · obtain ⟨el, -, rfl⟩ := List.mem_map.mp h
    exact ⟨el, .inl rfl⟩
  · obtain ⟨el, -, rfl⟩ := List.mem_map.mp h
    exact ⟨el, .inr rfl⟩

theorem mmxInstr_mem (el : Elem) (e : LegacyEnc) :
    mmxInstr el e ∈ [Instr.pcmpeqbMmx e, .pcmpeqwMmx e, .pcmpeqdMmx e] := by
  cases el <;> simp [mmxInstr]

end Sys2Proof
end

section
/-! The statements about the encoding. -/

set_option Elab.async false

open Sys2Proof Sys2Proof.Machine

/-! ## Decoding and encoding are inverse (R72) -/

/-- Settles O13: `decode_encode`, layout by layout. -/
theorem decodeOfEncodeIsTheInstruction : Obligations.DecodeOfEncodeIsTheInstruction :=
  fun _ _ rest h => decode_encode h rest

/-- Settles O14: an answer is an encoding in every layout, and each place where R72 finds no form says so. -/
theorem decodeAnswersOnlyEncodedInstructions : Obligations.DecodeAnswersOnlyEncodedInstructions := by
  refine ⟨fun m bs i rest h => decode_sound h, fun m ps qs lock b rest hps hlock hpfx hform => ?_,
    fun m ps qs lock rex op rest hps hlock hrex hop => ?_, fun m ps b1 b2 b3 op rest hps hno hbits => ?_⟩
  · have hb := pfxByteOf_eq_none b hpfx
    refine ⟨fun hout => ?_, fun hout rex => ?_⟩
    · obtain ⟨lr, hlr⟩ := decode_prefixes m ps qs b rest hps hlock hb
      rw [hlr, decodeOpcode_of_no_form hform (hout.imp_right isRex_of_outside)]
    · obtain ⟨lr, hlr⟩ := decode_prefixes .m64 ps qs rex.byte (b :: rest) hps hlock (isRex_byte rex).2.2
      rw [hlr, decodeOpcode_rex, decodeAfterRex_of_no_form hform hb (isRex_of_outside hout)]
  · obtain ⟨lr, hlr⟩ := decode_prefixes_legacyHead hps hlock hrex (op :: rest)
    rw [List.append_assoc _ (rexBytes rex), hlr, decodeLegacy_unknown (elemOf_eq_none op hop)]
  · have hstart : VexStart m ps b1 := ⟨hps, hno, hbits⟩
    refine ⟨fun h => ?_, fun h => ?_, fun h => ?_⟩
    · rw [decode_C5 hstart, decodeVexBody_unknown h]
    · rw [decode_C4 hstart]
      split
      · rfl
      next hmap => exact decodeVexBody_unknown (h.resolve_left hmap)
    · have hp0 : ∀ p : Byte, p.getLsbD 3 = true ∨ p.extractLsb' 0 3 ≠ 1#3 → p.extractLsb' 0 4 ≠ 1#4 := by decide
      have hp1 : ∀ p : Byte, p.getLsbD 2 = false ∨ p.extractLsb' 0 2 ≠ 1#2 → p.extractLsb' 0 3 ≠ 5#3 := by decide
      rw [decode_62 hstart]
      refine decodeEvex_unknown hstart rest ?_
      rcases h with h | h | h | h | h
      · exact .inl (hp0 b1 (.inl h))
      · exact .inl (hp0 b1 (.inr h))
      · exact .inr (.inl (hp1 b2 (.inl h)))
      · exact .inr (.inl (hp1 b2 (.inr h)))
      · exact .inr (.inr h)

/-! ## Lengths (R61) -/

/-- Settles O15: the fixed bytes of a layout bound it from below, and three prefixes (two without 66H), REX or
C4 for C5, SIB and a 32-bit displacement are the most there can be. -/
theorem lengthsOfAdmittedEncodings : Obligations.LengthsOfAdmittedEncodings := by
  refine ⟨fun m i h => ⟨?_, length_encode_le_maxLen h⟩, fun m e i hi h => ?_, fun m e i hi h => ?_,
    fun m e i hi h => ?_,
    ⟨⟨[.seg .cs, .opSize, .addrSize], some ⟨false, false, false, false⟩, 0, .mem (.sibDisp 0 0 0)⟩, by decide⟩,
    ⟨⟨[.seg .cs, .addrSize], .three false false false false, 0, 0, .mem (.sibDisp 0 0 0)⟩, by decide⟩,
    ⟨⟨[.seg .cs, .addrSize], false, false, false, 0, false, 0, 0, .mem (.sibDisp 0 0 0)⟩, by decide⟩⟩
  · rcases exists_class i with ⟨el, e, rfl⟩ | ⟨el, e, rfl⟩ | ⟨l, el, e, rfl⟩ | ⟨vl, el, e, rfl⟩
    · rw [length_encode_mmxInstr]; exact e.three_le_len
    · rw [length_encode_xmmInstr]; exact e.three_le_len
    · rw [length_encode_vexInstr]; exact le_trans (by decide) e.four_le_len
    · rw [length_encode_evexInstr]; exact le_trans (by decide) e.six_le_len
  · obtain ⟨el, rfl | rfl⟩ := exists_legacy_of_mem hi
    · rw [wf_mmxInstr, LegacyEnc.wfMmx_iff] at h
      rw [length_encode_mmxInstr]; exact LegacyEnc.len_le h.1
    · rw [wf_xmmInstr, LegacyEnc.wfXmm_iff] at h
      rw [length_encode_xmmInstr]; exact LegacyEnc.len_le h.1
  · obtain ⟨l, el, rfl⟩ := exists_vexInstr_of_mem hi
    rw [wf_vexInstr] at h
    rw [length_encode_vexInstr]; exact ⟨e.four_le_len, VexEnc.len_le h⟩
  · obtain ⟨vl, el, rfl⟩ := exists_evexInstr_of_mem hi
    rw [length_encode_evexInstr]; exact e.six_le_len

/-! ## Prefixes out of place (D15) -/

/-- Settles O16: after F0H, F2H or F3H the decoder is at the opcode with that one kept. -/
theorem lockOrRepBeforeALegacyForm : Obligations.LockOrRepBeforeALegacyForm := by
  intro m ps qs rex el rest hps hrex
  simp only [List.append_assoc]
  refine ⟨?_, ?_, ?_⟩
  · rw [decode_lockRep_legacyHead (x := .lock) hps rfl hrex]
    simp [decodeLegacy]
  · rw [decode_lockRep_legacyHead (x := .repne) hps rfl hrex]
    simp [decodeLegacy]
  · rw [decode_lockRep_legacyHead (x := .rep) hps rfl hrex]
    simp [decodeLegacy]

/-- Settles O17: both checks of C4, C5 and 62 come before the bytes that follow are taken. -/
theorem prefixBeforeVexOrEvexIsUd : Obligations.PrefixBeforeVexOrEvexIsUd := by
  intro m ps qs b next rest hb hwf
  obtain ⟨hps, -, -⟩ := pfxWf_append ps qs hwf
  have hbyte := pfxByteOf_vexPrefix b hb
  refine ⟨fun hin => ⟨fun hop => ?_, fun l hl => ?_⟩, fun hm hbits => ?_, fun hm rex => ?_⟩
  · rw [decode_pfx m ps b _ hps hbyte, decodeOpcode_vexPrefix_ud hb hin (by simpa using hop)]
  · obtain ⟨x, hx⟩ := exists_lockRep_of_mem hl
    rw [decode_pfx_lockRep m ps qs l x b _ hwf hx hbyte, decodeOpcode_vexPrefix_ud hb hin rfl]
  · subst hm
    rw [decode_pfx .m32 ps b _ hps hbyte, decodeOpcode_vexPrefix_of_bits hb hbits]
  · subst hm
    rw [decode_pfx .m64 ps _ _ hps (isRex_byte rex).2.2, decodeOpcode_rex, decodeAfterRex_vexPrefix hb]

/-- Settles O18: the reading of prefixes refuses a second one of a group, and after REX only 0FH, VEX and EVEX are no
misplacement. -/
theorem repeatedPrefixAndMisplacedRexAreRefused : Obligations.RepeatedPrefixAndMisplacedRexAreRefused := by
  refine ⟨fun m ps p q rest hps hq hg => ?_, fun m ps qs l l' rest hwf hl hl' => ?_,
    fun ps rex b rest hps hb => ?_⟩
  · rw [decode, readPrefixes_append none ps [] _ hps (by simp), List.nil_append, readPrefixes_repeated hq hg]
    rfl
  · obtain ⟨x, hx⟩ := exists_lockRep_of_mem hl
    obtain ⟨y, hy⟩ := exists_lockRep_of_mem hl'
    obtain ⟨hps, hqs, hdisj⟩ := pfxWf_append ps qs hwf
    rw [decode, readPrefixes_append none ps [] _ hps (by simp), List.nil_append, readPrefixes_lockRep hx,
      readPrefixes_append _ qs ps _ hqs hdisj, readPrefixes_second_lockRep hy]
    rfl
  · rw [decode_pfx .m64 ps _ _ hps (isRex_byte rex).2.2, decodeOpcode_rex,
      decodeAfterRex_misplaced (hb.imp (pfxByteOf_isSome b) (isRex_iff b).mpr)]

/-- Settles O19: the REX bits R and B are what `decode_encodeLegacy` asks of an MMX form. -/
theorem rexBitsOnMmxRegisters : Obligations.RexBitsOnMmxRegisters := by
  intro ps rex el reg rm rest hps hno hrm
  have hwf : LegacyEnc.wf .m64 ⟨ps, some rex, reg, rm⟩ = true :=
    (LegacyEnc.wf_iff ..).mpr ⟨(operandsWf_iff ..).mpr ⟨hps, hrm, rfl⟩, .inl rfl⟩
  rw [decode_encodeLegacy hwf, if_neg (by simpa using hno)]
  refine ⟨fun h => if_pos ?_, fun hr hmem => ⟨_, mmxInstr_mem el _, if_neg ?_⟩⟩
  · simpa [LegacyEnc.r, LegacyEnc.b] using h
  · simp [LegacyEnc.r, LegacyEnc.b, hr, hmem]

/-! ## Refused operands and fields (R59, R63, R65) -/

/-- Settles O20: in each layout nothing before ModRM is refused, so ModRM is read, and refused. -/
theorem sixteenBitAddressingIsRefused : Obligations.SixteenBitAddressingIsRefused := by
  intro ps el reg a rest hps haddr
  have hmod := readModRm_addr16 haddr reg a rest
  refine ⟨?_, fun hno => ⟨fun head vvvv l hr hx hb hv => ?_, fun vl w bcst v5 aaa hv hw hbc => ?_⟩⟩
  · simp only [encodeLegacy, List.append_assoc, List.cons_append, decode_legacyHead (m := .m32) hps (.inr rfl),
      decodeLegacy, elemOf_opcode, hmod, except_bind_error]
  · have hmsb : vvvv.msb = false := by rw [BitVec.msb_eq_decide]; simpa using hv
    have hlow : (head.r || head.x || head.b || vvvv.msb) = false := by simp only [hr, hx, hb, hmsb, Bool.or_self]
    simp only [encodeVex, List.append_assoc, List.cons_append]
    rw [decode_vexHead hps hno (.inr hlow), decodeVexBody_of_modRm_error el (.inr hlow) hmod]
  · have hres := evexReserved_of_low (e := ⟨ps, false, false, w, v5, bcst, aaa, reg, .mem a⟩) vl rfl rfl hv hw hbc
    obtain ⟨hmap, -, -, -, -, hbits⟩ := evexP0_fields false false
    obtain ⟨hpp, -⟩ := evexP1_fields w (v5.extractLsb' 0 4)
    obtain ⟨-, hll, -⟩ := evexP2_fields vl bcst (v5.extractLsb' 4 1) aaa
    have hlen : vl.ll ≠ 3#2 := by cases vl <;> decide
    have hstart : VexStart .m32 ps (EvexEnc.p0 ⟨ps, false, false, w, v5, bcst, aaa, reg, .mem a⟩) :=
      ⟨hps, hno, .inr (hbits.mpr rfl)⟩
    simp only [encodeEvex, List.append_assoc, List.cons_append]
    rw [decode_62 hstart]
    exact decodeEvex_modRm hstart ⟨hmap, hpp⟩ hres (hll.trans_ne hlen) (.inl hmod)

/-- Settles O21: a reserved field that P0 to P2 show is refused there, and EVEX.b with a register source once ModRM
names one. -/
theorem reservedEvexFieldsAreRefused : Obligations.ReservedEvexFieldsAreRefused := by
  intro ps p0 p1 p2 el rest hps hno hmap hpp
  refine ⟨fun m hbits h => ?_, fun hbits h => ?_, fun hbc m reg rm rest' hbits hrest => ?_⟩
  · have hstart : VexStart m ps p0 := ⟨hps, hno, hbits⟩
    rw [decode_62 hstart, decodeEvex_reserved hstart ⟨hmap, hpp⟩]
    rcases h with h | h | h | h | ⟨hel, h⟩ | ⟨hel, h⟩
    · exact .inl (by simp only [evexReserved, h, Bool.true_or])
    · exact .inr h
    all_goals exact .inl (by simp [evexReserved, -BitVec.getLsbD_eq_getElem, *])
  · have hstart : VexStart .m32 ps p0 := ⟨hps, hno, .inr hbits⟩
    rw [decode_62 hstart, decodeEvex_reserved hstart ⟨hmap, hpp⟩]
    refine .inl ?_
    rcases h with h | h | h <;> simp [evexReserved, -BitVec.getLsbD_eq_getElem, h]
  · have hstart : VexStart m ps p0 := ⟨hps, hno, hbits⟩
    subst hrest
    rw [decode_62 hstart]
    by_cases hres : evexReserved m p0 p1 p2 el = true ∨ p2.extractLsb' 5 2 = 3#2
    · exact decodeEvex_reserved hstart ⟨hmap, hpp⟩ _ hres
    · rw [not_or, Bool.not_eq_true] at hres
      have hmod := readModRm_bytes m ps reg (.reg rm) rest' rfl (Bool.or_true _)
      exact decodeEvex_modRm hstart ⟨hmap, hpp⟩ hres.1 hres.2 (.inr ⟨rfl, hbc, _, _, _, hmod, rfl⟩)

/-- Settles O22: the inverted bits ~B and ~vvvv name the high register. -/
theorem vexHighRegistersInThirtyTwoBitMode : Obligations.VexHighRegistersInThirtyTwoBitMode := by
  intro ps b1 b2 el rest hps hno
  refine ⟨fun hbits hmap hpp hhigh => ?_, fun hbits => ?_⟩
  · have hmsb : ∀ b : Byte, b.getLsbD 6 = false → (~~~ b.extractLsb' 3 4).msb = true := by decide
    rw [decode_C4 ⟨hps, hno, .inr hbits⟩, if_neg (not_not.mpr hmap), hpp]
    refine decodeVexBody_high el ?_
    rcases hhigh with h | h
    · simp only [VexHead.b, h, Bool.not_false, Bool.or_true, Bool.true_or]
    · rw [hmsb b2 h, Bool.or_true]
  · rw [decode_pfx .m32 ps _ _ hps rfl, decodeOpcode_vexPrefix_of_bits (by simp) hbits]

end

section
/-! Operands of the encoding: effective addresses as integers (R57, R58, R66), segments (R60), register numbers (R56),
and the bits and spellings that change nothing (R52, R62, R63). -/

set_option Elab.async false

namespace Sys2Proof.Machine

/-! ## Addends modulo 2^size -/

/-- The address `x` is the integer `n` modulo `2 ^ size`. -/
def Reduces (size : Nat) (x : Addr) (n : Int) : Prop := (x.toNat : Int) ≡ n [ZMOD 2 ^ size]

theorem reduces_zero {size : Nat} : Reduces size 0#64 0 := rfl

theorem reduces_gprTrunc {size : Nat} (n : BitVec 4) (s : State) :
    Reduces size (gprVal n s) (gprTrunc size n s) := by
  unfold Reduces gprTrunc
  push_cast
  exact (Int.mod_modEq ..).symm

section
variable {size : Nat} (hsize : size ≤ 64)
include hsize

/-- Arithmetic modulo 2^64 is arithmetic modulo `2 ^ size`. -/
theorem mod_two_pow_64_modEq (n : Int) : n % 2 ^ 64 ≡ n [ZMOD 2 ^ size] :=
  (Int.mod_modEq n (2 ^ 64)).of_dvd (pow_dvd_pow 2 hsize)

theorem Reduces.add {x y : Addr} {a b : Int} (hx : Reduces size x a) (hy : Reduces size y b) :
    Reduces size (x + y) (a + b) := by
  unfold Reduces
  rw [BitVec.toNat_add]
  push_cast
  exact (mod_two_pow_64_modEq hsize _).trans (Int.ModEq.add hx hy)

theorem Reduces.mul {x y : Addr} {a b : Int} (hx : Reduces size x a) (hy : Reduces size y b) :
    Reduces size (x * y) (a * b) := by
  unfold Reduces
  rw [BitVec.toNat_mul]
  push_cast
  exact (mod_two_pow_64_modEq hsize _).trans (Int.ModEq.mul hx hy)

theorem Reduces.shiftLeft {x : Addr} {a : Int} (hx : Reduces size x a) (k : Nat) :
    Reduces size (x <<< k) (a * 2 ^ k) := by
  unfold Reduces
  rw [BitVec.toNat_shiftLeft, Nat.shiftLeft_eq]
  push_cast
  exact (mod_two_pow_64_modEq hsize _).trans (Int.ModEq.mul_right _ hx)

theorem reduces_toInt (x : Addr) : Reduces size x x.toInt := by
  unfold Reduces
  refine Int.ModEq.of_dvd (pow_dvd_pow 2 hsize) ?_
  rw [BitVec.toInt_eq_toNat_bmod]
  exact Int.bmod_emod.symm

theorem reduces_signExtend {w : Nat} (hw : w ≤ 64) (d : BitVec w) : Reduces size (d.signExtend 64) d.toInt := by
  have h := reduces_toInt hsize (d.signExtend 64)
  rwa [BitVec.toInt_signExtend_of_le hw] at h

theorem reduces_ofNat (n : Nat) : Reduces size (BitVec.ofNat 64 n) n := by
  unfold Reduces
  rw [BitVec.toNat_ofNat]
  exact_mod_cast mod_two_pow_64_modEq hsize n

theorem reduces_dispVal (n : Nat) (d : Disp) : Reduces size (dispVal n d) (dispInt n d) := by
  cases d with
  | none => exact reduces_zero
  | d8 d => exact (reduces_signExtend hsize (by decide) d).mul hsize (reduces_ofNat hsize n)
  | d32 d => exact reduces_signExtend hsize (by decide) d

theorem reduces_indexPart (x : Bool) (scale : BitVec 2) (index : BitVec 3) (s : State) :
    Reduces size (indexPart x scale index s) (indexInt size x scale index s) := by
  have hnone : ∀ (x : Bool) (index : BitVec 3), gprNum x index = 4#4 ↔ x = false ∧ index = 4#3 := by decide
  simp only [indexPart, indexInt, hnone]
  split
  · exact reduces_zero
  · exact (reduces_gprTrunc _ s).shiftLeft hsize _

theorem reduces_addrSum (f : MemForm) (m : ExecMode) (next : Addr) (a : MemRef) (s : State) :
    Reduces size (addrSum f m next a s) (addrInt f size m next a s) := by
  cases a with
  | base rm d => exact (reduces_gprTrunc _ s).add hsize (reduces_dispVal hsize _ d)
  | disp d =>
    have hd := reduces_signExtend hsize (by decide : 32 ≤ 64) d
    cases m with
    | m64 => exact Reduces.add hsize (Int.ModEq.refl _) hd
    | m32 => exact hd
  | sib scale index base d =>
    exact ((reduces_gprTrunc _ s).add hsize (reduces_indexPart hsize ..)).add hsize (reduces_dispVal hsize _ d)
  | sibDisp scale index d =>
    exact (reduces_signExtend hsize (by decide) d).add hsize (reduces_indexPart hsize ..)

theorem toNat_effAddr (f : MemForm) (m : ExecMode) (next : Addr) (a : MemRef) (s : State) :
    ((effAddr f size m next a s).toNat : Int) = addrInt f size m next a s % 2 ^ size := by
  have hlt : (addrSum f m next a s).toNat % 2 ^ size < 2 ^ 64 :=
    (Nat.mod_lt _ (Nat.two_pow_pos size)).trans_le (Nat.pow_le_pow_right (by decide) hsize)
  rw [effAddr, BitVec.toNat_setWidth, BitVec.toNat_setWidth, Nat.mod_eq_of_lt hlt]
  push_cast
  exact reduces_addrSum hsize f m next a s
end

/-! ## Segments (R60) -/

theorem segOf_of_no_override {f : MemForm} (h : ∀ seg, Pfx.seg seg ∉ f.pfx) (a : MemRef) :
    segOf f a = defaultSeg f.b a := by
  rw [segOf, segOverride_eq_none _ h, Option.getD_none]

/-! ## Register numbers (R56) -/

theorem toNat_bit (b : Bool) : (bit b).toNat = b.toNat := BitVec.toNat_ofBool b

/-! ## Ignored bits and the two VEX spellings -/

theorem advance_succ (len : Nat) (s : State) :
    advance (len + 1) s = setPc ((advance len s).pc + 1#64) (advance len s) := by
  rw [advance, pcNext, BitVec.ofNat_add, ← BitVec.add_assoc]
  rfl

theorem len_three (e : VexEnc) (r x b w r' : Bool) :
    VexEnc.len { e with head := .three r x b w } = VexEnc.len { e with head := .two r' } + 1 := by
  simp only [VexEnc.len, VexHead.len]
  omega

/-- With a register source nothing but the length tells C5 from C4 with `~X` = `~B` = 1: both name the same registers. -/
theorem exec_vexInstr_three_of_two {e : VexEnc} {r : Bool} {n : BitVec 3} {m : ExecMode} {s t : State} {wide : Bool}
    {el : Elem} (w : Bool) (hn : e.rm = .reg n) (hm : s.mode = .admitted m)
    (hroom : PcRoom m (VexEnc.len { e with head := .three r false false w }) s)
    (h : exec (vexInstr wide el { e with head := .two r }) s = .next t) :
    exec (vexInstr wide el { e with head := .three r false false w }) s = .next (setPc (t.pc + 1#64) t) := by
  rw [exec_vexInstr, vexForm_eq_next_iff] at h ⊢
  obtain ⟨_, s2, -, -, hfeat, hready, hsource, rfl⟩ := h
  refine ⟨m, s2, hm, hroom, hfeat, hready, ?_, ?_⟩
  · simpa only [VexSourceIs, SourceIs, hn, VexHead.b] using hsource
  · rw [len_three e r false false w r, advance_succ]
    rfl

end Sys2Proof.Machine

open Sys2Proof Sys2Proof.Machine

/-! ## Addresses -/

/-- Settles O8: the model's sum modulo 2^64 is the integer sum modulo any smaller power, addend by addend. -/
theorem effectiveAddressIsTheSumModuloAddressSize : Obligations.EffectiveAddressIsTheSumModuloAddressSize := by
  refine ⟨fun f size m next a s hsize => toNat_effAddr (by omega) f m next a s, fun pfx => ⟨fun h => ?_, fun h => ?_⟩,
    fun e => ⟨rfl, rfl⟩, fun e => rfl, fun e => ⟨rfl, rfl, rfl, rfl⟩⟩
  · have hc : pfx.contains .addrSize = false := by simpa using h
    simp only [addrSize, hc, and_self]
  · have hc : pfx.contains .addrSize = true := by simpa using h
    simp only [addrSize, hc, and_self]

/-- Settles O9: `segOverride` finds the one override there is, else the base register decides; a base 101 without SIB
has a displacement. -/
theorem segmentOfTheMemoryOperand : Obligations.SegmentOfTheMemoryOperand := by
  refine ⟨fun f a seg hps hseg => ?_, fun f hno => ⟨fun rm d hwf => ?_, fun scale index base d _ => ?_, fun d => ?_,
    fun scale index d => ?_⟩⟩
  · rw [segOf, segOverride_of_mem f.pfx seg hps hseg, Option.getD_some]
  · have hdisp : rm = 5#3 → d ≠ .none := by
      rintro rfl rfl
      simp [MemRef.wf] at hwf
    have hiff : f.b = false ∧ d ≠ .none ∧ rm = 5#3 ↔ f.b = false ∧ rm = 5#3 := by
      rw [and_iff_right_of_imp hdisp]
    simp only [segOf_of_no_override hno, defaultSeg, hiff]
  · rw [segOf_of_no_override hno, defaultSeg]
  · rw [segOf_of_no_override hno, defaultSeg]
  · rw [segOf_of_no_override hno, defaultSeg]

/-- Settles O10: appended bits are digits. -/
theorem registerNumbersOfTheFields : Obligations.RegisterNumbersOfTheFields := by
  intro r x b n v
  simp only [gprNum, vecNum4, vecNum5, toNat_append_eq_add, toNat_bit, BitVec.toNat_ofNat]
  omega

/-! ## Encodings -/

/-- Settles O12: the decoder, run on the seven byte strings. -/
theorem tableEncodingsDecode : Obligations.TableEncodingsDecode := by
  unfold Obligations.TableEncodingsDecode
  decide

/-- Settles O23: no form asks for the W bit, only for the length and the register bits beside it. -/
theorem ignoredWidthBitsChangeNothing : Obligations.IgnoredWidthBitsChangeNothing := by
  refine ⟨fun e rex w s hrex => ?_, fun e r x b w w' s => ?_, fun e w s => ?_⟩
  · obtain ⟨pfx, _, reg, rm⟩ := e
    cases hrex
    exact ⟨rfl, rfl, rfl, rfl, rfl, rfl⟩
  · exact ⟨rfl, rfl, rfl, rfl, rfl, rfl⟩
  · exact ⟨rfl, rfl, rfl, rfl, rfl, rfl⟩

/-- Settles O24: `~X` = `~B` = 1 are the bits that C5 does not have, and the length differs by one. -/
theorem twoAndThreeByteVexAgree : Obligations.TwoAndThreeByteVexAgree := by
  intro e r w n m s t i2 i3 hn hi hm hroom h
  obtain ⟨k, -, hk⟩ := List.mem_map.mp (show _ ∈ vexKinds.map fun k =>
    (vexInstr k.1 k.2 { e with head := .two r }, vexInstr k.1 k.2 { e with head := .three r false false w }) from hi)
  cases hk
  rw [length_encode_vexInstr] at hroom
  exact exec_vexInstr_three_of_two w hn hm hroom h

end

section
/-! Results of the forms: what each class writes where its premises hold (R100 to R141), the laws of the lane function
(R101), and the compare of a register with itself. -/

set_option Elab.async false

namespace Sys2Proof.Machine

/-! ## One element (R101) -/

theorem eqLane_of_ne {esz : Nat} {a b : BitVec esz} (h : a ≠ b) : eqLane a b = 0#esz := if_neg h

/-- The two cases of R101 at one width. -/
theorem eqLane_cases {esz : Nat} (a b : BitVec esz) :
    (a = b → eqLane a b = BitVec.allOnes esz) ∧ (a ≠ b → eqLane a b = 0#esz) :=
  ⟨fun h => h ▸ eqLane_self a, eqLane_of_ne⟩

theorem eqLane_eq_allOnes_iff {esz : Nat} (h : 0 < esz) (a b : BitVec esz) :
    eqLane a b = BitVec.allOnes esz ↔ a = b := by
  refine ⟨fun heq => ?_, fun heq => heq ▸ eqLane_self a⟩
  by_contra hne
  exact h.ne' (BitVec.allOnes_eq_zero_iff.mp (heq.symm.trans (eqLane_of_ne hne)))

/-- An equality mask is all ones or 0, so comparing it with 0 inverts it. -/
theorem eqLane_eqLane_zero {esz : Nat} (h : 0 < esz) (a b : BitVec esz) :
    eqLane (eqLane a b) 0#esz = ~~~ eqLane a b := by
  have hones : BitVec.allOnes esz ≠ 0#esz := mt BitVec.allOnes_eq_zero_iff.mp h.ne'
  by_cases hab : a = b
  · rw [hab, eqLane_self, eqLane_of_ne hones, BitVec.not_allOnes]
  · rw [eqLane_of_ne hab, eqLane_self, BitVec.not_zero]

/-- The laws of R101 at one width. -/
theorem eqLane_laws {esz : Nat} (h : 0 < esz) (a b : BitVec esz) :
    eqLane a a = BitVec.allOnes esz ∧ eqLane a b = eqLane b a ∧
      (eqLane a b = BitVec.allOnes esz ↔ a ^^^ b = 0#esz) ∧ eqLane (eqLane a b) 0#esz = ~~~ eqLane a b :=
  ⟨eqLane_self a, eqLane_comm a b, (eqLane_eq_allOnes_iff h a b).trans BitVec.xor_eq_zero_iff.symm,
    eqLane_eqLane_zero h a b⟩

/-! ## Widths -/

theorem elemBits_pos (el : Elem) : 0 < elemBits el := by cases el <;> decide

theorem elemBits_dvd {w : Nat} (h : 32 ∣ w) (el : Elem) : elemBits el ∣ w := by
  have : elemBits el ∣ 32 := by cases el <;> decide
  exact this.trans h

/-- An opmask register's 64-bit container has a bit for each element of any form. -/
theorem evexLanes_le (vl : VecLen) (el : Elem) : vecBits vl / elemBits el ≤ 64 := by
  cases vl <;> cases el <;> decide

theorem consistent_iff (c : Cpu) : c.consistent = true ↔
    ((c.features.avx512f = true ∨ c.features.avx512bw = true ∨ c.features.avx10 = true) → c.maxVl = .v512) ∧
    ((c.features.avx = true ∨ c.features.avx2 = true) → c.maxVl ≠ .v128) ∧
    ((c.features.avx512bw = true ∨ c.features.avx10 = true) → c.maxKl = .k64) := by
  simp only [Cpu.consistent, Bool.and_eq_true, Bool.or_eq_true, Bool.not_eq_true', beq_iff_eq, bne_iff_ne,
    ← Bool.not_eq_true, imp_iff_not_or, or_assoc, and_assoc]

section
variable {s : State} (hcpu : s.cpu.consistent = true)
include hcpu

theorem vexBits_le_maxVl {wide : Bool} (hfeat : VexFeature wide s) : vexBits wide ≤ s.cpu.maxVl.bits := by
  obtain ⟨-, hvex, -⟩ := (consistent_iff s.cpu).mp hcpu
  have hne : s.cpu.maxVl ≠ .v128 := hvex (by cases wide <;> simp_all [VexFeature])
  cases hv : s.cpu.maxVl with
  | v128 => exact absurd hv hne
  | v256 | v512 => cases wide <;> decide

theorem evexLanes_le_maxKl {vl : VecLen} {el : Elem} (hfeat : EvexFeature vl el s) :
    vecBits vl / elemBits el ≤ s.cpu.maxKl.bits := by
  obtain ⟨-, -, hbw⟩ := (consistent_iff s.cpu).mp hcpu
  by_cases hel : el = .dword
  · have h16 : 16 ≤ s.cpu.maxKl.bits := by cases s.cpu.maxKl <;> decide
    refine le_trans ?_ h16
    subst hel
    cases vl <;> decide
  · have hfull : s.cpu.features.avx512bw = true ∨ s.cpu.features.avx10 = true := by
      rw [EvexFeature, if_neg hel] at hfeat
      exact hfeat.symm.imp_left And.right
    rw [hbw hfull]
    exact evexLanes_le vl el
end

/-! ## Values written, read back -/

section
variable (s : State)

@[simp] theorem mmVal_advance (len : Nat) (i : BitVec 3) : mmVal i (advance len s) = mmVal i s := rfl
@[simp] theorem vecVal_advance (len : Nat) (i : BitVec 5) : vecVal i (advance len s) = vecVal i s := rfl
@[simp] theorem kVal_advance (len : Nat) (i : BitVec 3) : kVal i (advance len s) = kVal i s := rfl

theorem extractLsb'_vecVal_writeXmm (d : BitVec 5) (v : BitVec 128) :
    (vecVal d (writeXmm d v s)).extractLsb' 0 128 = v := by
  rw [writeXmm, vecVal_setVec_same]
  exact BitVec.extractLsb'_append_eq_right

variable {s}

/-- Where the register is wide enough the value is written whole. -/
theorem vecVal_writeVecZext_same {w : Nat} (h : w ≤ s.cpu.maxVl.bits) (d : BitVec 5) (v : BitVec w) :
    vecVal d (writeVecZext d v s) = v.setWidth 512 := by
  rw [writeVecZext, vecVal_setVec_same, BitVec.setWidth_setWidth (by omega)]

theorem kVal_writeK_same_of_lt {n : Nat} {v : BitVec 64} (hv : v.toNat < 2 ^ n) (hn : n ≤ s.cpu.maxKl.bits)
    (d : BitVec 3) : kVal d (writeK d v s) = v := by
  have hfit : v.toNat < 2 ^ s.cpu.maxKl.bits := hv.trans_le (Nat.pow_le_pow_right (by decide) hn)
  rw [kVal_writeK, if_pos rfl]
  apply BitVec.eq_of_toNat_eq
  rw [BitVec.toNat_setWidth, BitVec.toNat_setWidth, Nat.mod_eq_of_lt hfit, Nat.mod_eq_of_lt v.isLt]
end

/-! ## A value compared with itself -/

theorem cmpEq_self {w esz : Nat} (he : 0 < esz) (hdvd : esz ∣ w) (a : BitVec w) :
    cmpEq w esz a a = BitVec.allOnes w := by
  apply BitVec.eq_of_getLsbD_eq
  intro p hp
  rw [cmpEq, getLsbD_packLanes he _ _ (Nat.div_mul_le_self ..), Nat.div_mul_cancel hdvd, eqLane_self]
  simp [hp, Nat.mod_lt p he]

theorem cmpEq256_self {esz : Nat} (he : 0 < esz) (hdvd : esz ∣ 128) (a : BitVec 256) :
    cmpEq256 esz a a = BitVec.allOnes 256 := by
  rw [cmpEq256, cmpEq_self he hdvd, cmpEq_self he hdvd]
  decide

theorem vexCmp_self (wide : Bool) (el : Elem) (a : BitVec (vexBits wide)) :
    vexCmp wide (elemBits el) a a = BitVec.allOnes (vexBits wide) := by
  have hdvd : elemBits el ∣ 128 := elemBits_dvd (by decide) el
  cases wide with
  | false => exact cmpEq_self (elemBits_pos el) hdvd a
  | true => exact cmpEq256_self (elemBits_pos el) hdvd a

theorem toNat_evexCmpEq_self {esz vl : Nat} (h : vl / esz ≤ 64) (a : BitVec vl) :
    (evexCmpEq esz vl a (.full a) none).toNat = 2 ^ (vl / esz) - 1 := by
  have hbits : evexCmpEq esz vl a (.full a) none = (BitVec.allOnes (vl / esz)).setWidth 64 := by
    apply BitVec.eq_of_getLsbD_eq
    intro j hj
    rw [getLsbD_evexCmpEq h]
    simp [maskBit, src2Lane, hj]
  rw [hbits, BitVec.toNat_setWidth_of_le h, BitVec.toNat_allOnes]

/-! ## Forms that complete -/

/-- A register operand has its register's value. -/
theorem sourceIs_of_reg {w : Nat} {f : MemForm} {m : ExecMode} {next : Addr} {reg : BitVec 3 → BitVec w} {rm : RegMem}
    {s : State} {n : BitVec 3} (h : rm = .reg n) : SourceIs w f m next reg rm s (reg n) := by
  rw [h]
  rfl

section
variable {m : ExecMode} {s : State} (hm : s.mode = .admitted m)
include hm

theorem exec_mmxInstr_of_source {e : LegacyEnc} {el : Elem} {src : BitVec 64}
    (hroom : PcRoom m (encode (mmxInstr el e)).length s) (hready : MmxReady s) (hsrc : MmxSourceIs m e s src) :
    exec (mmxInstr el e) s =
      .next (advance e.len (writeMm e.reg (cmpEq 64 (elemBits el) (mmVal e.reg s) src) s)) := by
  rw [length_encode_mmxInstr] at hroom
  rw [exec_mmxInstr, mmxForm_eq_next_iff]
  exact ⟨m, src, hm, hroom, hready, hsrc, rfl⟩

theorem exec_xmmInstr_of_source {e : LegacyEnc} {el : Elem} {src : BitVec 128}
    (hroom : PcRoom m (encode (xmmInstr el e)).length s) (hready : SseReady s) (hsrc : XmmSourceIs m e s src) :
    exec (xmmInstr el e) s = .next (advance e.len (writeXmm (vecNum4 e.r e.reg)
      (cmpEq 128 (elemBits el) ((vecVal (vecNum4 e.r e.reg) s).extractLsb' 0 128) src) s)) := by
  rw [length_encode_xmmInstr] at hroom
  rw [exec_xmmInstr, xmmForm_eq_next_iff]
  exact ⟨m, src, hm, hroom, hready, hsrc, rfl⟩

theorem exec_vexInstr_of_source {e : VexEnc} {wide : Bool} {el : Elem} {s2 : BitVec (vexBits wide)}
    (hroom : PcRoom m (encode (vexInstr wide el e)).length s) (hfeat : VexFeature wide s) (hready : VexReady s)
    (hsrc : VexSourceIs (vexBits wide) m e s s2) :
    exec (vexInstr wide el e) s = .next (advance e.len (writeVecZext (vecNum4 e.head.r e.reg)
      (vexCmp wide (elemBits el) (vexSource1 (vexBits wide) e s) s2) s)) := by
  rw [length_encode_vexInstr] at hroom
  rw [exec_vexInstr, vexForm_eq_next_iff]
  exact ⟨m, s2, hm, hroom, (vexFeat_iff wide s).mpr hfeat, hready, hsrc, rfl⟩

theorem exec_evexInstr_of_source {e : EvexEnc} {vl : VecLen} {el : Elem} {s2 : Src2 (vecBits vl)}
    (hroom : PcRoom m (encode (evexInstr vl el e)).length s) (hfeat : EvexFeature vl el s) (hready : EvexReady s)
    (hsrc : evexSource vl el m e s = .next s2) :
    exec (evexInstr vl el e) s = .next (advance e.len (writeK e.reg
      (evexCmpEq (elemBits el) (vecBits vl) (evexSource1 (vecBits vl) e s) s2 (writemask e s)) s)) := by
  rw [length_encode_evexInstr] at hroom
  rw [exec_evexInstr, evexForm_eq_next_iff]
  exact ⟨m, s2, hm, hroom, (evexFeat_iff vl el s).mpr hfeat, hready, hsrc, rfl⟩
end

/-- The second source of an EVEX form without broadcast. -/
theorem evexSource_of_full {e : EvexEnc} {m : ExecMode} {s : State} {vl : VecLen} {el : Elem} {v : BitVec (vecBits vl)}
    (hb : el = .dword → e.bcst = false ∨ e.rm.isReg = true) (hsrc : EvexSourceIs (vecBits vl) m e s v) :
    evexSource vl el m e s = .next (.full v) := by
  cases el with
  | dword => exact (evexSourceD_eq_next_iff ..).mpr (.inl ⟨v, rfl, hb rfl, hsrc⟩)
  | byte | word => exact (evexSourceBW_eq_next_iff ..).mpr ⟨v, rfl, hsrc⟩

end Sys2Proof.Machine

open Sys2Proof Sys2Proof.Machine

/-! ## The lane function -/

/-- Settles O1: the two branches of the lane function, at each width. -/
theorem equalElementsGiveAllOnesElseZero : Obligations.EqualElementsGiveAllOnesElseZero :=
  ⟨eqLane_cases, eqLane_cases, eqLane_cases⟩

/-- Settles O2: the laws hold at any width that has a bit. -/
theorem equalityLawsOfTheLaneFunction : Obligations.EqualityLawsOfTheLaneFunction :=
  ⟨eqLane_laws (by decide), eqLane_laws (by decide), eqLane_laws (by decide)⟩

/-! ## Results -/

/-- Settles O32: the form writes the packed compare, and element `j` of that is the compare of elements `j`. -/
theorem mmxFormsWriteTheEqualityMask : Obligations.MmxFormsWriteTheEqualityMask := by
  intro e m s src el i hi hm hroom hready hsrc
  obtain rfl := eq_mmxInstr_of_mem hi
  have hexec := exec_mmxInstr_of_source hm hroom hready hsrc
  refine ⟨_, hexec, completedInstructionAdvancesThePc _ _ _ hexec, fun j hj => ?_⟩
  rw [mmVal_advance, mmVal_writeMm_same]
  exact lane_cmpEq (elemBits_pos el) _ _ hj

/-- Settles O37: with one register as both sources the compare is that of a value with itself, in each class. -/
theorem sameRegisterComparesAllOnes : Obligations.SameRegisterComparesAllOnes := by
  refine ⟨fun e m s i hi hm hroom hready hrm => ?_, fun e m s i hi hm hroom hready hrm hb => ?_,
    fun e m s n wide i hi hm hroom hcpu hfeat hready hrm hsame => ?_,
    fun e m s n vl el i hi hm hroom hcpu hfeat hready hrm hsame haaa => ?_⟩
  · obtain ⟨el, rfl⟩ := exists_mmxInstr_of_mem hi
    refine ⟨_, exec_mmxInstr_of_source hm hroom hready (sourceIs_of_reg hrm), ?_⟩
    rw [mmVal_advance, mmVal_writeMm_same]
    exact cmpEq_self (elemBits_pos el) (elemBits_dvd (by decide) el) _
  · obtain ⟨el, rfl⟩ := exists_xmmInstr_of_mem hi
    refine ⟨_, exec_xmmInstr_of_source hm hroom hready (sourceIs_of_reg hrm), ?_⟩
    rw [vecVal_advance, extractLsb'_vecVal_writeXmm, hb]
    exact cmpEq_self (elemBits_pos el) (elemBits_dvd (by decide) el) _
  · obtain ⟨el, rfl⟩ := exists_vexInstr_of_mem_wide hi
    refine ⟨_, exec_vexInstr_of_source hm hroom hfeat hready (sourceIs_of_reg hrm), ?_⟩
    have hle : vexBits wide ≤ 512 := by cases wide <;> decide
    rw [vecVal_advance, vecVal_writeVecZext_same (vexBits_le_maxVl hcpu hfeat), vexSource1, hsame, vexCmp_self,
      BitVec.toNat_setWidth_of_le hle, BitVec.toNat_allOnes]
  · obtain rfl := eq_evexInstr_of_mem hi
    refine ⟨_, exec_evexInstr_of_source hm hroom hfeat hready
      (evexSource_of_full (fun _ => .inr (by rw [hrm]; rfl)) (sourceIs_of_reg hrm)), ?_⟩
    have hval := toNat_evexCmpEq_self (evexLanes_le vl el) (evexSource1 (vecBits vl) e s)
    rw [evexSource1, hsame] at hval
    rw [kVal_advance, writemask, if_pos haaa, evexSource1, hsame,
      kVal_writeK_same_of_lt (hval ▸ Nat.sub_one_lt (Nat.two_pow_pos _).ne') (evexLanes_le_maxKl hcpu hfeat), hval]

end

section
/-! The legacy SSE forms and the packed compares (R112 to R118, R123 to R125): each element of a 128-bit and of a
256-bit compare, and the register a legacy SSE form writes. -/

set_option Elab.async false

namespace Sys2Proof.Machine

/-- Claims write the place of an element with its width first. -/
theorem extractLsb'_mul_eq_lane {w : Nat} (esz i : Nat) (v : BitVec w) :
    v.extractLsb' (esz * i) esz = lane esz v i := by
  rw [lane, Nat.mul_comm]

/-- An element that lies inside the low `n` bits is an element of the whole value. -/
theorem lane_lowBits {w esz n i : Nat} (v : BitVec w) (hi : i < n / esz) :
    lane esz (v.extractLsb' 0 n) i = lane esz v i := by
  have hle : (i + 1) * esz ≤ n := (Nat.mul_le_mul_right esz hi).trans (Nat.div_mul_le_self n esz)
  rw [lane_extractLsb' esz 0 n i v (Nat.succ_mul i esz ▸ hle), Nat.zero_add, lane]

/-- The two halves of a 256-bit compare hold a whole number of elements each, so together they hold all of them. -/
theorem lane_cmpEq256_elem (el : Elem) (a b : BitVec 256) {i : Nat} (hi : i < 256 / elemBits el) :
    lane (elemBits el) (cmpEq256 (elemBits el) a b) i = eqLane (lane (elemBits el) a i) (lane (elemBits el) b i) := by
  have hdvd : elemBits el ∣ 128 := elemBits_dvd (by decide) el
  have hhalves : 256 / elemBits el = 2 * (128 / elemBits el) := Nat.mul_div_assoc 2 hdvd
  exact lane_cmpEq256 (elemBits_pos el) (Nat.div_mul_cancel hdvd).symm a b (hhalves ▸ hi)

/-- The elements below bit 128 of a register after a packed compare with its old low half is written there. -/
theorem lane_vecVal_writeXmm_cmpEq {esz j : Nat} (he : 0 < esz) (d : BitVec 5) (src : BitVec 128) (s : State)
    (hj : j < 128 / esz) :
    lane esz (vecVal d (writeXmm d (cmpEq 128 esz ((vecVal d s).extractLsb' 0 128) src) s)) j =
      eqLane (lane esz (vecVal d s) j) (lane esz src j) := by
  rw [← lane_lowBits _ hj, extractLsb'_vecVal_writeXmm, lane_cmpEq he _ _ hj, lane_lowBits _ hj]

end Sys2Proof.Machine

open Sys2Proof Sys2Proof.Machine

/-! ## Packed compares -/

/-- Settles O3: element `i` of a packed compare is the lane function of elements `i`. -/
theorem compareWordsAndDwordsLaneByLane : Obligations.CompareWordsAndDwordsLaneByLane := by
  intro a b
  simp only [extractLsb'_mul_eq_lane]
  exact ⟨fun i hi => lane_cmpEq (by decide) a b hi, fun i hi => lane_cmpEq (by decide) a b hi⟩

/-- Settles O4: as for words and doublewords, and in each half of a 256-bit compare. -/
theorem compareBytesAndHalvesLaneByLane : Obligations.CompareBytesAndHalvesLaneByLane := by
  unfold Obligations.CompareBytesAndHalvesLaneByLane
  simp only [extractLsb'_mul_eq_lane]
  exact ⟨fun a b i hi => lane_cmpEq (by decide) a b hi, fun el a b i hi => lane_cmpEq256_elem el a b hi⟩

/-! ## Results -/

/-- Settles O33: the form writes the packed compare over bits 127:0, and the write leaves the bits above. -/
theorem sseFormsWriteTheEqualityMask : Obligations.SseFormsWriteTheEqualityMask := by
  intro e m s src el i hi hm hroom hready hsrc
  obtain rfl := eq_xmmInstr_of_mem hi
  have hexec := exec_xmmInstr_of_source hm hroom hready hsrc
  refine ⟨_, hexec, completedInstructionAdvancesThePc _ _ _ hexec, fun j hj => ?_, fun b hb => ?_⟩
  · exact lane_vecVal_writeXmm_cmpEq (elemBits_pos el) (vecNum4 e.r e.reg) src s hj
  · exact getLsbD_vecVal_writeXmm hb (vecNum4 e.r e.reg) _ s

end

section
/-! The VEX forms (R120 to R126): the register they write, element by element and above the vector, and what they and
the EVEX forms (R141) owe to the old value of their destination. -/

set_option Elab.async false

namespace Sys2Proof.Machine

/-! ## The compare of a VEX form, and the register it writes -/

theorem lane_vexCmp {wide : Bool} (el : Elem) (a b : BitVec (vexBits wide)) {j : Nat}
    (hj : j < vexBits wide / elemBits el) : lane (elemBits el) (vexCmp wide (elemBits el) a b) j =
      eqLane (lane (elemBits el) a j) (lane (elemBits el) b j) := by
  cases wide with
  | false => exact lane_cmpEq (elemBits_pos el) a b hj
  | true => exact lane_cmpEq256_elem el a b hj

/-- Where the register is wide enough the value is in its low bits. -/
theorem extractLsb'_vecVal_writeVecZext {w : Nat} {s : State} (h : w ≤ s.cpu.maxVl.bits) (d : BitVec 5)
    (v : BitVec w) : (vecVal d (writeVecZext d v s)).extractLsb' 0 w = v := by
  have hle : s.cpu.maxVl.bits ≤ 512 := by cases s.cpu.maxVl <;> decide
  rw [vecVal_writeVecZext_same h, BitVec.extractLsb'_setWidth_of_le (by omega), BitVec.extractLsb'_eq_self]

/-- The register above the value is 0, however wide it is (R126). -/
theorem getLsbD_vecVal_writeVecZext_of_le {w b : Nat} (hb : w ≤ b) (d : BitVec 5) (v : BitVec w) (s : State) :
    (vecVal d (writeVecZext d v s)).getLsbD b = false := by
  rw [writeVecZext, vecVal_setVec_same]
  simp only [BitVec.getLsbD_setWidth, BitVec.getLsbD_of_ge v b hb, Bool.and_false]

/-! ## The old destination of a VEX form -/

theorem setVec_setVec (d : BitVec 5) (x v : BitVec 512) (s : State) : setVec d x (setVec d v s) = setVec d x s := by
  simp only [setVec, Vector.set_set]

/-- A write of the whole register leaves nothing of its old value. -/
theorem writeVecZext_setVec {w : Nat} (d : BitVec 5) (x : BitVec w) (v : BitVec 512) (s : State) :
    writeVecZext d x (setVec d v s) = writeVecZext d x s := setVec_setVec d _ v s

theorem vexSource1_setVec {d : BitVec 5} {e : VexEnc} (h : d ≠ 0#1 ++ e.vvvv) (w : Nat) (v : BitVec 512) (s : State) :
    vexSource1 w e (setVec d v s) = vexSource1 w e s := by
  rw [vexSource1, vexSource1, vecVal_setVec_of_ne h.symm]

theorem vexSource_setVec {d : BitVec 5} {e : VexEnc} (h : ∀ n, e.rm = .reg n → d ≠ vecNum4 e.head.b n) (w : Nat)
    (m : ExecMode) (v : BitVec 512) (s : State) : vexSource w m e (setVec d v s) = vexSource w m e s := by
  unfold vexSource
  cases hrm : e.rm with
  | reg n => simp only [vecVal_setVec_of_ne (h n hrm).symm]
  | mem a => exact memOperand_congr rfl rfl rfl rfl rfl rfl rfl

/-! ## The old destination of an EVEX form -/

/-- `K[d] <- v`, the whole container, as `setVec` for the vector registers. -/
def setOpmask (d : BitVec 3) (v : BitVec 64) (s : State) : State := { s with k := s.k.set d.toNat v d.isLt }

theorem kVal_setOpmask_of_ne {d r : BitVec 3} (h : r ≠ d) (v : BitVec 64) (s : State) :
    kVal r (setOpmask d v s) = kVal r s := by
  have hn : d.toNat ≠ r.toNat := fun heq => h (BitVec.eq_of_toNat_eq heq.symm)
  simp [setOpmask, kVal, Vector.get_eq_getElem, hn]

theorem writeK_setOpmask (d : BitVec 3) (x v : BitVec 64) (s : State) :
    writeK d x (setOpmask d v s) = writeK d x s := by
  simp only [writeK, setOpmask, Vector.set_set]

/-- The writemask is none, or another register. -/
theorem writemask_setOpmask {e : EvexEnc} {d : BitVec 3} (h : e.aaa = 0#3 ∨ e.aaa ≠ d) (v : BitVec 64) (s : State) :
    writemask e (setOpmask d v s) = writemask e s := by
  rcases h with hnone | hne
  · rw [writemask, writemask, if_pos hnone, if_pos hnone]
  · rw [writemask, writemask, kVal_setOpmask_of_ne hne]

/-- A second source is a vector register or memory. -/
theorem evexSource_setOpmask (vl : VecLen) (el : Elem) (m : ExecMode) (e : EvexEnc) (d : BitVec 3) (v : BitVec 64)
    (s : State) : evexSource vl el m e (setOpmask d v s) = evexSource vl el m e s := by
  have hmem : ∀ (w : Nat) (f : MemForm) (a : MemRef), memOperand w f m (pcNext e.len (setOpmask d v s)) a
      (setOpmask d v s) = memOperand w f m (pcNext e.len s) a s :=
    fun _ _ _ => memOperand_congr rfl rfl rfl rfl rfl rfl rfl
  cases hrm : e.rm with
  | reg r => cases el <;> simp only [evexSource, evexSourceD, evexSourceBW, hrm] <;> rfl
  | mem a => cases el <;> simp only [evexSource, evexSourceD, evexSourceBW, hrm, hmem]

end Sys2Proof.Machine

open Sys2Proof Sys2Proof.Machine

/-! ## Results -/

/-- Settles O34: the form writes the packed compare of the low `VL` bits of the sources, which the register of a
consistent processor holds whole, and zeros above. -/
theorem vexFormsWriteTheEqualityMask : Obligations.VexFormsWriteTheEqualityMask := by
  intro e m s wide s2 el i hi hm hroom hcpu hfeat hready hsrc
  obtain rfl := eq_vexInstr_of_mem hi
  have hexec := exec_vexInstr_of_source hm hroom hfeat hready hsrc
  refine ⟨_, hexec, completedInstructionAdvancesThePc _ _ _ hexec, fun j hj => ?_, fun b hb => ?_⟩
  · change lane (elemBits el) (vecVal _ (writeVecZext _ _ s)) j =
      eqLane (lane (elemBits el) (vecVal (0#1 ++ e.vvvv) s) j) (lane (elemBits el) s2 j)
    rw [← lane_lowBits _ hj, extractLsb'_vecVal_writeVecZext (vexBits_le_maxVl hcpu hfeat), lane_vexCmp el _ _ hj,
      vexSource1, lane_lowBits _ hj]
  · exact getLsbD_vecVal_writeVecZext_of_le hb _ _ s

/-- Settles O44: neither source, nor the checks before them, reads the destination, and the write replaces it. -/
theorem oldDestinationPlaysNoPart : Obligations.OldDestinationPlaysNoPart := by
  refine ⟨fun e s v i hi hsrc1 hsrc2 => ?_, fun e s v i hi hmask => ?_⟩
  · obtain ⟨wide, el, rfl⟩ := exists_vexInstr_of_mem hi
    simp only [exec_vexInstr, vexForm, vexSource_setVec hsrc2, vexSource1_setVec hsrc1, writeVecZext_setVec]
    rfl
  · obtain ⟨vl, el, rfl⟩ := exists_evexInstr_of_mem hi
    change exec _ (setOpmask e.reg v s) = exec _ s
    simp only [exec_evexInstr, evexForm, evexSource_setOpmask, writemask_setOpmask hmask, writeK_setOpmask]
    rfl

end

section
/-! The EVEX forms (R130 to R141): the opmask compare bit by bit, the opmask register a form writes, the writemask, and
the opmask registers that play no part. -/

set_option Elab.async false

namespace Sys2Proof.Machine

/-! ## The opmask compare -/

/-- The broadcast doubleword is every element of the second source (R140). -/
@[simp] theorem src2Lane_bcst {vl : Nat} (v : BitVec 32) (j : Nat) : src2Lane 32 (.bcst v : Src2 vl) j = v :=
  BitVec.setWidth_eq v

/-- Without writemask every element is compared (R141). -/
theorem maskBit_writemask (e : EvexEnc) (s : State) (j : Nat) :
    maskBit (writemask e s) j = (e.aaa == 0#3 || (kVal e.aaa s).getLsbD j) := by
  by_cases hnone : e.aaa = 0#3 <;> simp [writemask, maskBit, hnone]

/-- A first source's element below `KL` is the register's. -/
theorem lane_evexSource1 {vl esz j : Nat} (e : EvexEnc) (s : State) (hj : j < vl / esz) :
    lane esz (evexSource1 vl e s) j = lane esz (vecVal e.v5 s) j := lane_lowBits _ hj

/-! ## The forms of VPCMPEQD, which can broadcast (R130 to R132) -/

theorem eq_evexInstr_dword_of_mem {e : EvexEnc} {vl : VecLen} {i : Instr}
    (h : (vl, i) ∈ [(VecLen.v128, Instr.vpcmpeqdEvex128 e), (.v256, .vpcmpeqdEvex256 e),
      (.v512, .vpcmpeqdEvex512 e)]) : i = evexInstr vl .dword e := by
  obtain ⟨_, -, hx⟩ :=
    List.mem_map.mp (show _ ∈ [VecLen.v128, .v256, .v512].map fun vl => (vl, evexInstr vl .dword e) from h)
  cases hx; rfl

/-- Of doublewords there are at most 16, and each opmask register has as many bits. -/
theorem dwordLanes_le_maxKl (vl : VecLen) (s : State) : vecBits vl / 32 ≤ s.cpu.maxKl.bits := by
  have hlanes : vecBits vl / 32 ≤ 16 := by cases vl <;> decide
  have hbits : 16 ≤ s.cpu.maxKl.bits := by cases s.cpu.maxKl <;> decide
  exact hlanes.trans hbits

/-- The second source of a broadcasting VPCMPEQD. -/
theorem evexSource_of_bcst {e : EvexEnc} {m : ExecMode} {s : State} {vl : VecLen} {v : BitVec 32}
    (hb : e.bcst = true) (hsrc : BcstSourceIs m e s v) : evexSource vl .dword m e s = .next (.bcst v) :=
  (evexSourceD_eq_next_iff ..).mpr (.inr ⟨v, rfl, hb, hsrc⟩)

/-! ## The opmask register of a form -/

/-- What is written of a value are the bits that the register has (R12). -/
theorem getLsbD_kVal_writeK_same (d : BitVec 3) (v : BitVec 64) (s : State) (j : Nat) :
    (kVal d (writeK d v s)).getLsbD j = (decide (j < s.cpu.maxKl.bits) && v.getLsbD j) := by
  rw [kVal_writeK, if_pos rfl, BitVec.getLsbD_setWidth, BitVec.getLsbD_setWidth]
  by_cases hj : j < 64
  · rw [decide_eq_true hj, Bool.true_and]
  · rw [BitVec.getLsbD_of_ge v j (by omega), Bool.and_false, Bool.and_false]

/-- Where its premises hold and the opmask registers have a bit for each element, a form completes, and it writes every
bit of its opmask register. -/
theorem exec_evexInstr_writes_opmask {m : ExecMode} {e : EvexEnc} {s : State} {vl : VecLen} {el : Elem}
    {s2 : Src2 (vecBits vl)} (hm : s.mode = .admitted m) (hroom : PcRoom m (encode (evexInstr vl el e)).length s)
    (hfeat : EvexFeature vl el s) (hready : EvexReady s) (hsrc : evexSource vl el m e s = .next s2)
    (hkl : vecBits vl / elemBits el ≤ s.cpu.maxKl.bits) :
    ∃ t, exec (evexInstr vl el e) s = .next t ∧ t.pc.toNat = s.pc.toNat + (encode (evexInstr vl el e)).length ∧
      ∀ j, (kVal e.reg t).getLsbD j =
        (decide (j < vecBits vl / elemBits el) && (e.aaa == 0#3 || (kVal e.aaa s).getLsbD j) &&
          (lane (elemBits el) (vecVal e.v5 s) j == src2Lane (elemBits el) s2 j)) := by
  have hexec := exec_evexInstr_of_source hm hroom hfeat hready hsrc
  refine ⟨_, hexec, completedInstructionAdvancesThePc _ _ _ hexec, fun j => ?_⟩
  rw [kVal_advance, getLsbD_kVal_writeK_same, getLsbD_evexCmpEq (evexLanes_le vl el), maskBit_writemask]
  by_cases hj : j < vecBits vl / elemBits el
  · rw [decide_eq_true (hj.trans_le hkl), lane_evexSource1 e s hj, Bool.true_and, Bool.and_assoc]
  · rw [decide_eq_false hj, Bool.false_and, Bool.and_false, Bool.false_and, Bool.false_and]

/-! ## Opmask registers that play a part, and others -/

/-- A form that completes leaves 0 in the place of an element that its writemask does not let (R141). -/
theorem getLsbD_kVal_of_masked {vl : VecLen} {el : Elem} {e : EvexEnc} {s t : State}
    (h : exec (evexInstr vl el e) s = .next t) (hmask : e.aaa ≠ 0#3) {j : Nat}
    (hj : (kVal e.aaa s).getLsbD j = false) : (kVal e.reg t).getLsbD j = false := by
  rw [exec_evexInstr, evexForm_eq_next_iff] at h
  obtain ⟨m, s2, -, -, -, -, -, rfl⟩ := h
  have hoff : maskBit (writemask e s) j = false := by rw [maskBit_writemask, beq_false_of_ne hmask, hj, Bool.or_false]
  rw [kVal_advance, getLsbD_kVal_writeK_same, getLsbD_evexCmpEq (evexLanes_le vl el), hoff, Bool.false_and,
    Bool.and_false, Bool.and_false]

theorem writeK_setOpmask_comm {r d : BitVec 3} (h : r ≠ d) (x v : BitVec 64) (s : State) :
    writeK r x (setOpmask d v s) = setOpmask d v (writeK r x s) := by
  have hn : d.toNat ≠ r.toNat := fun heq => h (BitVec.eq_of_toNat_eq heq.symm)
  simp only [writeK, setOpmask, Vector.set_comm _ _ hn]

/-- An opmask register that is neither the writemask nor the destination passes through a form, whatever it holds. -/
theorem exec_evexInstr_setOpmask {e : EvexEnc} {d : BitVec 3} (hmask : e.aaa = 0#3 ∨ e.aaa ≠ d) (hreg : e.reg ≠ d)
    (vl : VecLen) (el : Elem) (v : BitVec 64) (s : State) : exec (evexInstr vl el e) (setOpmask d v s) =
      mapNext (setOpmask d v) (exec (evexInstr vl el e) s) := by
  simp only [exec_evexInstr, evexForm, mapNext_andThen, evexSource_setOpmask, writemask_setOpmask hmask,
    writeK_setOpmask_comm hreg]
  rfl

end Sys2Proof.Machine

open Sys2Proof Sys2Proof.Machine

/-! ## Results -/

/-- Settles O5: each clause is the bit of the opmask compare, for its second source and its writemask. -/
theorem opmaskCompareBitByBit : Obligations.OpmaskCompareBitByBit := by
  refine ⟨fun el vl s1 s2 j => ?_, fun vl s1 s2 j => ?_⟩
  · have hbit := fun km => getLsbD_evexCmpEq (evexLanes_le vl el) s1 (.full s2) km j
    exact ⟨hbit none, fun km => (hbit (some km)).trans (Bool.and_assoc ..).symm⟩
  · have hbit := fun km => getLsbD_evexCmpEq (evexLanes_le vl .dword) s1 (.bcst s2) km j
    simp only [elemBits, src2Lane_bcst] at hbit
    exact ⟨hbit none, fun km => (hbit (some km)).trans (Bool.and_assoc ..).symm⟩

/-- Settles O35: the opmask registers of a consistent processor have a bit for each element. -/
theorem evexFormsWriteTheOpmask : Obligations.EvexFormsWriteTheOpmask := by
  intro e m s vl s2 el i hi hm hroom hcpu hfeat hready hb hsrc
  obtain rfl := eq_evexInstr_of_mem hi
  exact exec_evexInstr_writes_opmask hm hroom hfeat hready (evexSource_of_full hb hsrc)
    (evexLanes_le_maxKl hcpu hfeat)

/-- Settles O36: opmask registers of any width have a bit for each doubleword. -/
theorem broadcastFormsWriteTheOpmask : Obligations.BroadcastFormsWriteTheOpmask := by
  intro e m s vl s2 i hi hm hroom hfeat hready hb hsrc
  obtain rfl := eq_evexInstr_dword_of_mem hi
  have hwrites := exec_evexInstr_writes_opmask hm hroom hfeat hready (evexSource_of_bcst hb hsrc)
    (dwordLanes_le_maxKl vl s)
  simp only [elemBits, src2Lane_bcst] at hwrites
  exact hwrites

/-- Settles O38: a masked bit is 0, so a mask of 0 leaves 0; k0 is never a writemask, so its value passes through. -/
theorem writemaskZeroesMaskedElements : Obligations.WritemaskZeroesMaskedElements := by
  intro e s t i hi h
  obtain ⟨vl, el, rfl⟩ := exists_evexInstr_of_mem hi
  refine ⟨fun hmask j hj => getLsbD_kVal_of_masked h hmask hj, fun hmask hzero => ?_, fun hnone hreg v => ?_⟩
  · refine BitVec.eq_of_getLsbD_eq fun j _ => ?_
    rw [getLsbD_kVal_of_masked h hmask (by rw [hzero, BitVec.getLsbD_zero]), BitVec.getLsbD_zero]
  · have hpass := exec_evexInstr_setOpmask (.inl hnone) hreg vl el v s
    rw [h] at hpass
    exact hpass

end

section
/-! Exceptions (R151 to R160): a form starts, makes the checks of its class, reads its source, and writes. What it can
raise, and in which order, is read off that. -/

set_option Elab.async false

namespace Sys2Proof.Machine

/-! ## The privilege level -/

theorem exec_with_cpl {c : BitVec 2} {s : State} (hac : acEnabled { s with cpl := c } = acEnabled s) (i : Instr) :
    exec i { s with cpl := c } = mapNext (fun t => { t with cpl := c }) (exec i s) := by
  refine (exec_withStatus (f := s.eflags) (x := s.mxcsr) (c := c) hac i).trans (mapNext_congr fun t ht => ?_)
  obtain ⟨-, -, heflags, hmxcsr, -⟩ := exec_sameUnwritten ht
  rw [withStatus, ← heflags, ← hmxcsr]

/-! ## The order of R159 -/

/-- The order of R159: the instruction starts, the class's `check` is made, the `source` is read, and only then does
anything change. -/
def ChecksThenReads {α : Type} (i : Instr) (s : State) (check : Result Unit) (source : ExecMode → Result α) : Prop :=
  ∃ k : α → State, exec i s = andThen (startInstr (encode i).length s) fun m =>
    andThen check fun _ => andThen (source m) fun v => .next (k v)

theorem checksThenReads_mmxInstr (el : Elem) (e : LegacyEnc) (s : State) :
    ChecksThenReads (mmxInstr el e) s (checkMmx s) fun m => mmxSource m e s := by
  rw [ChecksThenReads, exec_mmxInstr, length_encode_mmxInstr]
  exact ⟨_, rfl⟩

theorem checksThenReads_xmmInstr (el : Elem) (e : LegacyEnc) (s : State) :
    ChecksThenReads (xmmInstr el e) s (checkSse s) fun m => xmmSource m e s := by
  rw [ChecksThenReads, exec_xmmInstr, length_encode_xmmInstr]
  exact ⟨_, rfl⟩

theorem checksThenReads_vexInstr (wide : Bool) (el : Elem) (e : VexEnc) (s : State) :
    ChecksThenReads (vexInstr wide el e) s (checkVex (vexFeat wide s) s) fun m => vexSource (vexBits wide) m e s := by
  rw [ChecksThenReads, exec_vexInstr, length_encode_vexInstr]
  exact ⟨_, rfl⟩

theorem checksThenReads_evexInstr (vl : VecLen) (el : Elem) (e : EvexEnc) (s : State) :
    ChecksThenReads (evexInstr vl el e) s (checkEvex (evexFeat vl el s) s) fun m => evexSource vl el m e s := by
  rw [ChecksThenReads, exec_evexInstr, length_encode_evexInstr]
  exact ⟨_, rfl⟩

section
variable {α : Type} {i : Instr} {s : State} {check : Result Unit} {source : ExecMode → Result α} {f : Fault}
  (h : ChecksThenReads i s check source)
include h

/-- A check that raises ends the instruction before its source is read. -/
theorem ChecksThenReads.fault_of_check {m : ExecMode} (hm : s.mode = .admitted m)
    (hroom : PcRoom m (encode i).length s) (hcheck : check = .fault f) : exec i s = .fault f := by
  obtain ⟨k, hk⟩ := h
  rw [hk, startInstr_of_room hm hroom, andThen_next, hcheck, andThen_fault]

/-- An exception is the check's or the source read's. -/
theorem ChecksThenReads.fault_cases (hf : exec i s = .fault f) : check = .fault f ∨ ∃ m, source m = .fault f := by
  obtain ⟨k, hk⟩ := h
  simp only [hk, andThen_eq_fault_iff, startInstr_ne_fault, reduceCtorEq, and_false, exists_false, or_false,
    false_or] at hf
  obtain ⟨m, -, hcheck | ⟨-, -, hsource⟩⟩ := hf
  · exact .inl hcheck
  · exact .inr ⟨m, hsource⟩
end

/-! ## What the checks raise (R155 to R158) -/

theorem checkUdNm_of_disabled {ok : Bool} {s : State} (h : ¬ ok = true) : checkUdNm ok s = .fault .ud := by
  simp [checkUdNm, raise, h]

theorem checkUdNm_of_taskSwitched {ok : Bool} {s : State} (h : ok = true) (hts : s.cr0.getLsbD 3 = true) :
    checkUdNm ok s = .fault .nm := by
  simp [checkUdNm, raise, cr0Ts, h, hts]

theorem mmxEnabled_iff (s : State) :
    mmxEnabled s = true ↔ s.cr0.getLsbD 2 = false ∧ s.cpu.features.mmx = true := by
  simp [mmxEnabled, cr0Em]

theorem sseEnabled_iff (s : State) : sseEnabled s = true ↔
    s.cr0.getLsbD 2 = false ∧ s.cr4.getLsbD 9 = true ∧ s.cpu.features.sse2 = true := by
  simp [sseEnabled, cr0Em, cr4Osfxsr, and_assoc]

theorem vexEnabled_iff (wide : Bool) (s : State) : vexEnabled (vexFeat wide s) s = true ↔
    s.cr4.getLsbD 18 = true ∧ s.xcr0.extractLsb' 1 2 = 3#2 ∧ VexFeature wide s := by
  simp [vexEnabled, cr4Osxsave, xcr0Avx, vexFeat_iff, and_assoc]

theorem evexEnabled_iff (vl : VecLen) (el : Elem) (s : State) : evexEnabled (evexFeat vl el s) s = true ↔
    s.cr4.getLsbD 18 = true ∧ s.xcr0.extractLsb' 5 3 = 7#3 ∧ s.xcr0.extractLsb' 1 2 = 3#2 ∧ EvexFeature vl el s := by
  simp [evexEnabled, cr4Osxsave, xcr0Avx512, xcr0Avx, evexFeat_iff, and_assoc]

theorem checkMmx_of_disabled {s : State} (h : ¬ mmxEnabled s = true) : checkMmx s = .fault .ud := by
  rw [checkMmx, checkUdNm_of_disabled h, andThen_fault]

theorem checkMmx_of_taskSwitched {s : State} (h : mmxEnabled s = true) (hts : s.cr0.getLsbD 3 = true) :
    checkMmx s = .fault .nm := by
  rw [checkMmx, checkUdNm_of_taskSwitched h hts, andThen_fault]

theorem checkMmx_of_x87Pending {s : State} (h : mmxEnabled s = true) (hts : s.cr0.getLsbD 3 = false)
    (hes : s.fsw.getLsbD 7 = true) : checkMmx s = .fault .mf := by
  rw [checkMmx, (checkUdNm_eq_next_iff _ s ()).mpr ⟨h, hts⟩, andThen_next, fswEs, if_pos hes, raise]

/-! ## Feature expressions (R154) -/

theorem formFeature_mmxInstr (el : Elem) (e : LegacyEnc) (s : State) :
    FormFeature (mmxInstr el e) s ↔ s.cpu.features.mmx = true := by cases el <;> rfl

theorem formFeature_xmmInstr (el : Elem) (e : LegacyEnc) (s : State) :
    FormFeature (xmmInstr el e) s ↔ s.cpu.features.sse2 = true := by cases el <;> rfl

theorem formFeature_vexInstr (wide : Bool) (el : Elem) (e : VexEnc) (s : State) :
    FormFeature (vexInstr wide el e) s ↔ VexFeature wide s := by
  cases wide <;> cases el <;> simp [FormFeature, vexInstr, VexFeature]

theorem formFeature_evexInstr (vl : VecLen) (el : Elem) (e : EvexEnc) (s : State) :
    FormFeature (evexInstr vl el e) s ↔ EvexFeature vl el s := by
  cases vl <;> cases el <;> simp [FormFeature, evexInstr, EvexFeature, or_comm]

/-! ## What a source read raises -/

theorem memOperand_fault_of_unaligned {w : Nat} {g : MemForm} {m : ExecMode} {next : Addr} {a : MemRef} {s : State}
    {f : Fault} (hg : g.ac = 1) (h : memOperand w g m next a s = .fault f) : f ≠ .mf ∧ f ≠ .ac := by
  obtain ⟨-, -, hmf, hac⟩ := memOperand_fault h
  exact ⟨hmf, fun hf => hac hf hg⟩

theorem mmxSource_fault {m : ExecMode} {e : LegacyEnc} {s : State} {f : Fault} (h : mmxSource m e s = .fault f) :
    e.rm.isReg = false := by
  unfold mmxSource at h
  cases hrm : e.rm with
  | reg n => simp [hrm] at h
  | mem a => rfl

theorem xmmSource_fault {m : ExecMode} {e : LegacyEnc} {s : State} {f : Fault} (h : xmmSource m e s = .fault f) :
    e.rm.isReg = false ∧ f ≠ .mf ∧ f ≠ .ac := by
  unfold xmmSource at h
  cases hrm : e.rm with
  | reg n => simp [hrm] at h
  | mem a =>
    rw [hrm] at h
    exact ⟨rfl, memOperand_fault_of_unaligned rfl h⟩

theorem vexSource_fault {w : Nat} {m : ExecMode} {e : VexEnc} {s : State} {f : Fault}
    (h : vexSource w m e s = .fault f) : e.rm.isReg = false ∧ f ≠ .mf ∧ f ≠ .ac := by
  unfold vexSource at h
  cases hrm : e.rm with
  | reg n => simp [hrm] at h
  | mem a =>
    rw [hrm] at h
    exact ⟨rfl, memOperand_fault_of_unaligned rfl h⟩

/-- Of the EVEX sources only the broadcast doubleword has an alignment to check (R33 (d)). -/
theorem evexSourceD_fault {vl : Nat} {m : ExecMode} {e : EvexEnc} {s : State} {f : Fault}
    (h : evexSourceD vl m e s = .fault f) : e.rm.isReg = false ∧ f ≠ .mf ∧ (f = .ac → e.bcst = true) := by
  unfold evexSourceD at h
  cases hrm : e.rm with
  | reg n => simp [hrm] at h
  | mem a =>
    cases hb : e.bcst <;>
      simp only [hrm, hb, if_true, Bool.false_eq_true, if_false, andThen_eq_fault_iff, reduceCtorEq, and_false,
        exists_false, or_false] at h
    · obtain ⟨hmf, hac⟩ := memOperand_fault_of_unaligned rfl h
      exact ⟨rfl, hmf, fun hf => absurd hf hac⟩
    · obtain ⟨-, -, hmf, -⟩ := memOperand_fault h
      exact ⟨rfl, hmf, fun _ => rfl⟩

theorem evexSourceBW_fault {vl : Nat} {m : ExecMode} {e : EvexEnc} {s : State} {f : Fault}
    (h : evexSourceBW vl m e s = .fault f) : e.rm.isReg = false ∧ f ≠ .mf ∧ f ≠ .ac := by
  unfold evexSourceBW at h
  cases hrm : e.rm with
  | reg n => simp [hrm] at h
  | mem a =>
    simp only [hrm, andThen_eq_fault_iff, reduceCtorEq, and_false, exists_false, or_false] at h
    exact ⟨rfl, memOperand_fault_of_unaligned rfl h⟩

theorem evexSource_fault {vl : VecLen} {el : Elem} {m : ExecMode} {e : EvexEnc} {s : State} {f : Fault}
    (h : evexSource vl el m e s = .fault f) :
    e.rm.isReg = false ∧ f ≠ .mf ∧ (f = .ac → el = .dword ∧ e.bcst = true) := by
  cases el with
  | dword =>
    obtain ⟨hmem, hmf, hac⟩ := evexSourceD_fault h
    exact ⟨hmem, hmf, fun hf => ⟨rfl, hac hf⟩⟩
  | byte | word =>
    obtain ⟨hmem, hmf, hac⟩ := evexSourceBW_fault h
    exact ⟨hmem, hmf, fun hf => absurd hf hac⟩

/-! ## What a form raises -/

theorem exec_mmxInstr_fault {el : Elem} {e : LegacyEnc} {s : State} {f : Fault}
    (h : exec (mmxInstr el e) s = .fault f) : (f = .ud ∨ f = .nm ∨ f = .mf) ∨ e.rm.isReg = false := by
  rcases (checksThenReads_mmxInstr el e s).fault_cases h with hcheck | ⟨m, hsource⟩
  · exact .inl (checkMmx_fault hcheck)
  · exact .inr (mmxSource_fault hsource)

theorem exec_xmmInstr_fault {el : Elem} {e : LegacyEnc} {s : State} {f : Fault}
    (h : exec (xmmInstr el e) s = .fault f) : (f = .ud ∨ f = .nm) ∨ e.rm.isReg = false ∧ f ≠ .mf ∧ f ≠ .ac := by
  rcases (checksThenReads_xmmInstr el e s).fault_cases h with hcheck | ⟨m, hsource⟩
  · exact .inl (checkUdNm_fault hcheck)
  · exact .inr (xmmSource_fault hsource)

theorem exec_vexInstr_fault {wide : Bool} {el : Elem} {e : VexEnc} {s : State} {f : Fault}
    (h : exec (vexInstr wide el e) s = .fault f) :
    (f = .ud ∨ f = .nm) ∨ e.rm.isReg = false ∧ f ≠ .mf ∧ f ≠ .ac := by
  rcases (checksThenReads_vexInstr wide el e s).fault_cases h with hcheck | ⟨m, hsource⟩
  · exact .inl (checkUdNm_fault hcheck)
  · exact .inr (vexSource_fault hsource)

theorem exec_evexInstr_fault {vl : VecLen} {el : Elem} {e : EvexEnc} {s : State} {f : Fault}
    (h : exec (evexInstr vl el e) s = .fault f) :
    (f = .ud ∨ f = .nm) ∨ e.rm.isReg = false ∧ f ≠ .mf ∧ (f = .ac → el = .dword ∧ e.bcst = true) := by
  rcases (checksThenReads_evexInstr vl el e s).fault_cases h with hcheck | ⟨m, hsource⟩
  · exact .inl (checkUdNm_fault hcheck)
  · exact .inr (evexSource_fault hsource)

/-- Only the checks of an MMX form look at the x87 state (R155). -/
theorem exec_fault_mf {i : Instr} {s : State} (h : exec i s = .fault .mf) : ∃ el e, i = mmxInstr el e := by
  rcases exists_class i with hmmx | ⟨el, e, rfl⟩ | ⟨wide, el, e, rfl⟩ | ⟨vl, el, e, rfl⟩
  · exact hmmx
  · simpa using exec_xmmInstr_fault h
  · simpa using exec_vexInstr_fault h
  · simpa using exec_evexInstr_fault h

/-- Only two operands have an alignment to check: `m64` of an MMX form and `m32bcst` (R33). -/
theorem exec_fault_ac {i : Instr} {s : State} (h : exec i s = .fault .ac) :
    (∃ el e, i = mmxInstr el e ∧ e.rm.isReg = false) ∨
      ∃ vl e, i = evexInstr vl .dword e ∧ e.rm.isReg = false ∧ e.bcst = true := by
  rcases exists_class i with ⟨el, e, rfl⟩ | ⟨el, e, rfl⟩ | ⟨wide, el, e, rfl⟩ | ⟨vl, el, e, rfl⟩
  · have hmem : e.rm.isReg = false := by simpa using exec_mmxInstr_fault h
    exact .inl ⟨el, e, rfl, hmem⟩
  · simpa using exec_xmmInstr_fault h
  · simpa using exec_vexInstr_fault h
  · have hcase : e.rm.isReg = false ∧ el = .dword ∧ e.bcst = true := by simpa using exec_evexInstr_fault h
    obtain ⟨hmem, rfl, hb⟩ := hcase
    exact .inr ⟨vl, e, rfl, hmem, hb⟩

theorem evexInstr_dword_mem (vl : VecLen) (e : EvexEnc) :
    evexInstr vl .dword e ∈ [Instr.vpcmpeqdEvex128 e, .vpcmpeqdEvex256 e, .vpcmpeqdEvex512 e] := by
  cases vl <;> simp [evexInstr]

/-! ## A read that stops -/

theorem ReadDecides.stops {w : Nat} {i : Instr} {s : State} {r : Result (BitVec w)} (h : ReadDecides i s r) :
    (∀ f, r = .fault f → exec i s = .fault f) ∧ ∀ e, r = .refused e → exec i s = .refused e :=
  ⟨fun _ => h.fault, fun _ => h.refused⟩

end Sys2Proof.Machine

open Sys2Proof Sys2Proof.Machine

/-! ## Privilege -/

/-- Settles O47: CPL reaches a form through `AC_ENABLED` alone, and the form passes it on. -/
theorem privilegeLevelOnlyThroughAlignmentCheck : Obligations.PrivilegeLevelOnlyThroughAlignmentCheck :=
  fun i _ _ hac => exec_with_cpl hac i

/-! ## Checks -/

/-- Settles O48: the feature is one of the conditions under which the checks of each class are enabled. -/
theorem missingFeatureIsUd : Obligations.MissingFeatureIsUd := by
  intro i m s hm hroom hfeat
  rcases exists_class i with ⟨el, e, rfl⟩ | ⟨el, e, rfl⟩ | ⟨wide, el, e, rfl⟩ | ⟨vl, el, e, rfl⟩
  · rw [formFeature_mmxInstr] at hfeat
    refine (checksThenReads_mmxInstr el e s).fault_of_check hm hroom (checkMmx_of_disabled fun henabled => ?_)
    exact hfeat ((mmxEnabled_iff s).mp henabled).2
  · rw [formFeature_xmmInstr] at hfeat
    refine (checksThenReads_xmmInstr el e s).fault_of_check hm hroom (checkUdNm_of_disabled fun henabled => ?_)
    obtain ⟨-, -, hsse2⟩ := (sseEnabled_iff s).mp henabled
    exact hfeat hsse2
  · rw [formFeature_vexInstr] at hfeat
    refine (checksThenReads_vexInstr wide el e s).fault_of_check hm hroom (checkUdNm_of_disabled fun henabled => ?_)
    obtain ⟨-, -, hvex⟩ := (vexEnabled_iff wide s).mp henabled
    exact hfeat hvex
  · rw [formFeature_evexInstr] at hfeat
    refine (checksThenReads_evexInstr vl el e s).fault_of_check hm hroom (checkUdNm_of_disabled fun henabled => ?_)
    obtain ⟨-, -, -, hevex⟩ := (evexEnabled_iff vl el s).mp henabled
    exact hfeat hevex

/-- Settles O49: `#UD` where the class is not enabled, then `#NM`, then `#MF`, and each of them before the read. -/
theorem mmxControlBitsRaiseInOrder : Obligations.MmxControlBitsRaiseInOrder := by
  intro e m s i hi hm hroom
  obtain ⟨el, rfl⟩ := exists_mmxInstr_of_mem hi
  have hraise {f : Fault} (h : checkMmx s = .fault f) : exec (mmxInstr el e) s = .fault f :=
    (checksThenReads_mmxInstr el e s).fault_of_check hm hroom h
  refine ⟨fun hoff => hraise (checkMmx_of_disabled ?_), fun hem hmmx => ?_⟩
  · rw [mmxEnabled_iff]
    rintro ⟨hem, hmmx⟩
    simp only [hem, hmmx, reduceCtorEq, or_self] at hoff
  · have henabled := (mmxEnabled_iff s).mpr ⟨hem, hmmx⟩
    exact ⟨fun hts => hraise (checkMmx_of_taskSwitched henabled hts),
      fun hts hes => hraise (checkMmx_of_x87Pending henabled hts hes)⟩

/-- Settles O50: `#UD` where the class is not enabled, then `#NM`, both before the read. -/
theorem sseControlBitsRaiseInOrder : Obligations.SseControlBitsRaiseInOrder := by
  intro e m s i hi hm hroom
  obtain ⟨el, rfl⟩ := exists_xmmInstr_of_mem hi
  have hraise {f : Fault} (h : checkSse s = .fault f) : exec (xmmInstr el e) s = .fault f :=
    (checksThenReads_xmmInstr el e s).fault_of_check hm hroom h
  refine ⟨fun hoff => hraise (checkUdNm_of_disabled ?_), fun hem hfxsr hsse2 hts => ?_⟩
  · rw [sseEnabled_iff]
    rintro ⟨hem, hfxsr, hsse2⟩
    simp only [hem, hfxsr, hsse2, reduceCtorEq, or_self] at hoff
  · exact hraise (checkUdNm_of_taskSwitched ((sseEnabled_iff s).mpr ⟨hem, hfxsr, hsse2⟩) hts)

/-- Settles O51: as for the legacy SSE forms, for each of the two classes. -/
theorem vexAndEvexControlBitsRaiseInOrder : Obligations.VexAndEvexControlBitsRaiseInOrder := by
  refine ⟨fun e m s wide i hi hm hroom => ?_, fun e m s vl el i hi hm hroom => ?_⟩
  · obtain ⟨el, rfl⟩ := exists_vexInstr_of_mem_wide hi
    have hraise {f : Fault} (h : checkVex (vexFeat wide s) s = .fault f) : exec (vexInstr wide el e) s = .fault f :=
      (checksThenReads_vexInstr wide el e s).fault_of_check hm hroom h
    refine ⟨fun hoff => hraise (checkUdNm_of_disabled ?_), fun hsave havx hfeat hts => ?_⟩
    · rw [vexEnabled_iff]
      rintro ⟨hsave, havx, hfeat⟩
      simp only [hsave, havx, hfeat, ne_eq, not_true_eq_false, reduceCtorEq, or_self] at hoff
    · exact hraise (checkUdNm_of_taskSwitched ((vexEnabled_iff wide s).mpr ⟨hsave, havx, hfeat⟩) hts)
  · obtain rfl := eq_evexInstr_of_mem hi
    have hraise {f : Fault} (h : checkEvex (evexFeat vl el s) s = .fault f) :
        exec (evexInstr vl el e) s = .fault f :=
      (checksThenReads_evexInstr vl el e s).fault_of_check hm hroom h
    refine ⟨fun hoff => hraise (checkUdNm_of_disabled ?_), fun hsave h512 havx hfeat hts => ?_⟩
    · rw [evexEnabled_iff]
      rintro ⟨hsave, h512, havx, hfeat⟩
      simp only [hsave, h512, havx, hfeat, ne_eq, not_true_eq_false, reduceCtorEq, or_self] at hoff
    · exact hraise (checkUdNm_of_taskSwitched ((evexEnabled_iff vl el s).mpr ⟨hsave, h512, havx, hfeat⟩) hts)

/-! ## Source reads -/

/-- Settles O52: past the checks the memory read decides the form, whatever the writemask. -/
theorem sourceReadStopsTheInstruction : Obligations.SourceReadStopsTheInstruction := by
  refine ⟨fun e m s a i hm ha hroom => ⟨fun hi hready => ?_, fun hi hready => ?_⟩,
    fun e m s a wide i hi hm ha hroom hfeat hready => ?_,
    fun e m s a vl el i hi hm ha hroom hfeat hready => ⟨fun hfull => ?_, fun hel hb => ?_⟩⟩
  · obtain ⟨el, rfl⟩ := exists_mmxInstr_of_mem hi
    exact (readDecides_mmxInstr hm el hroom hready ha).stops
  · obtain ⟨el, rfl⟩ := exists_xmmInstr_of_mem hi
    exact (readDecides_xmmInstr hm el hroom hready ha).stops
  · obtain ⟨el, rfl⟩ := exists_vexInstr_of_mem_wide hi
    exact (readDecides_vexInstr hm el hroom hfeat hready ha).stops
  · obtain rfl := eq_evexInstr_of_mem hi
    exact (readDecides_evexInstr hm hroom hfeat hready ha hfull).stops
  · subst hel
    obtain rfl := eq_evexInstr_of_mem hi
    exact (readDecides_evexInstr_bcst hm hroom hfeat hready ha hb).stops

/-! ## Exceptions of each class -/

/-- Settles O53: an exception is the checks' or a memory read's, and a register source leaves the checks alone. -/
theorem exceptionsOfEachClass : Obligations.ExceptionsOfEachClass := by
  refine ⟨fun i s h => ?_, fun i s h => ?_, fun e i s f hi hreg h => ?_, fun e i s f hi hreg h => ?_,
    fun e i s f hi hreg h => ?_⟩
  · obtain ⟨el, e, rfl⟩ := exec_fault_mf h
    exact ⟨e, mmxInstr_mem el e⟩
  · rcases exec_fault_ac h with ⟨el, e, rfl, hmem⟩ | ⟨vl, e, rfl, hmem, hb⟩
    · exact .inl ⟨e, mmxInstr_mem el e, hmem⟩
    · exact .inr ⟨e, evexInstr_dword_mem vl e, hmem, hb⟩
  · obtain ⟨el, rfl | rfl⟩ := exists_legacy_of_mem hi
    · simpa [hreg] using exec_mmxInstr_fault h
    · have hchecks : f = .ud ∨ f = .nm := by simpa [hreg] using exec_xmmInstr_fault h
      rcases hchecks with rfl | rfl <;> decide
  · obtain ⟨wide, el, rfl⟩ := exists_vexInstr_of_mem hi
    simpa [hreg] using exec_vexInstr_fault h
  · obtain ⟨vl, el, rfl⟩ := exists_evexInstr_of_mem hi
    simpa [hreg] using exec_evexInstr_fault h

end

section
/-! Reset and hazards (R181, R183): why the fetch stops at an address of the mode, and how far a run can go. -/

set_option Elab.async false

namespace Sys2Proof.Machine

/-! ## The fetch at an address of the mode -/

/-- Past the check of R14 only the program range and the access are asked. -/
theorem fetchStopAt_of_address {m : ExecMode} {a : Nat} {s : State} (ha : a < 2 ^ m.addrBits)
    (hc : m = .m64 → IsCanonical s.cpu.vaBits a) :
    fetchStopAt m a s = if inProgram a s = false then some .runsPastEnd
      else if accessible s.access a 1 = false then some .fetchFault else none := by
  have hrange : canonicalRange m s.cpu.vaBits a 1 = true :=
    (canonicalRange_iff ..).mpr fun hm i hi => by simpa [Nat.lt_one_iff.mp hi] using hc hm
  have hpass : ¬(2 ^ m.addrBits ≤ a ∨ canonicalRange m s.cpu.vaBits a 1 = false) := by simp [hrange, ha]
  exact if_neg hpass

theorem inProgram_iff (a : Nat) (s : State) :
    inProgram a s = true ↔ s.code.base.toNat ≤ a ∧ a < s.code.base.toNat + s.code.len := by
  simp [inProgram]

/-- The bytes of a well-formed instruction fit the fetch window, so a byte of it that cannot be fetched is met. -/
theorem step_of_cut_of_wf {m : ExecMode} {s : State} {i : Instr} {k : Nat} {r : FetchStop}
    (hm : s.mode = .admitted m) (hwf : i.wf m = true) (hk : k < (encode i).length)
    (hcode : CodeAtPc m ((encode i).take k) s) (hr : fetchStopAt m (s.pc.toNat + k) s = some r) :
    step s = stopOfFetch r := by
  have hdecode : decode m (encode i) = .ok (i, []) := by simpa using decode_encode hwf []
  have hlimit : k < fetchLimit := hk.trans_le ((length_encode_le_maxLen hwf).trans (by decide))
  exact step_of_cut hm hdecode hk hlimit hcode hr

/-! ## A completed step -/

theorem stopOfFetch_ne_next {α : Type} (stop : FetchStop) (a : α) : stopOfFetch stop ≠ .next a := by
  cases stop <;> simp [stopOfFetch, raise]

theorem stopOfDecode_ne_next {α : Type} (stop : FetchStop) (e : DecodeError) (a : α) :
    stopOfDecode stop e ≠ .next a := by
  cases e with
  | truncated => exact stopOfFetch_ne_next stop a
  | _ => simp [stopOfDecode, raise]

/-- A step that completes executed a well-formed instruction each of whose bytes was fetched. -/
theorem step_next_fetched {s t : State} (h : step s = .next t) : ∃ m i, i.wf m = true ∧
    (∀ j, j < (encode i).length → Fetchable m s (s.pc.toNat + j)) ∧ exec i s = .next t := by
  by_cases hmode : ∃ m, s.mode = .admitted m
  · obtain ⟨m, hm⟩ := hmode
    cases hd : decode m (window m s) with
    | ok p =>
      obtain ⟨i, rest⟩ := p
      obtain ⟨hwin, hwf⟩ := decode_sound hd
      refine ⟨m, i, hwf, fun j hj => ?_, step_eq_exec_of_decode hm hd ▸ h⟩
      refine fetchable_of_lt_length fetchLimit s.pc.toNat j ?_
      rw [← window, hwin, List.length_append]
      omega
    | error e =>
      rw [step_eq_stop_of_decode hm hd] at h
      exact absurd h (stopOfDecode_ne_next _ e t)
  · rw [step_of_other_mode fun m hm => hmode ⟨m, hm⟩] at h
    cases h

/-- The first and the last byte of the executed instruction lie in the program, and it has at least three (R61, R183). -/
theorem step_next_bounds {s t : State} (h : step s = .next t) : s.code.base.toNat ≤ s.pc.toNat ∧
    s.pc.toNat + 3 ≤ t.pc.toNat ∧ t.pc.toNat ≤ s.code.base.toNat + s.code.len := by
  obtain ⟨m, i, hwf, hfetch, hexec⟩ := step_next_fetched h
  have hlen : 3 ≤ (encode i).length := (lengthsOfAdmittedEncodings.1 m i hwf).1
  have hpc := completedInstructionAdvancesThePc i s t hexec
  obtain ⟨-, -, hfirst, -⟩ := hfetch 0 (by omega)
  obtain ⟨-, -, -, hlast, -⟩ := hfetch ((encode i).length - 1) (by omega)
  omega

theorem step_ne_next_of_end_le {s : State} (hend : s.code.base.toNat + s.code.len ≤ s.pc.toNat) (t : State) :
    step s ≠ .next t := by
  intro h
  obtain ⟨-, hadv, hle⟩ := step_next_bounds h
  omega

theorem step_code {s t : State} (h : step s = .next t) : t.code = s.code := by
  obtain ⟨i, hi⟩ := step_next h
  obtain ⟨⟨-, -, hcode, -⟩, -⟩ := exec_sameUnwritten hi
  exact hcode

/-! ## Runs -/

theorem Reaches.code {n : Nat} {s t : State} (h : Reaches n s t) : t.code = s.code := by
  obtain ⟨⟨-, -, hcode, -⟩, -⟩ := h.sameUnwritten
  exact hcode

/-- Each completed step moves the pc by at least 3, and none leaves it behind the end of the program. -/
theorem Reaches.pc_bounds {n : Nat} {s t : State} (h : Reaches n s t)
    (hs : s.pc.toNat ≤ s.code.base.toNat + s.code.len) :
    s.pc.toNat + 3 * n ≤ t.pc.toNat ∧ t.pc.toNat ≤ s.code.base.toNat + s.code.len := by
  induction n generalizing s with
  | zero => obtain rfl : t = s := h; exact ⟨le_rfl, hs⟩
  | succ n ih =>
    obtain ⟨u, hstep, hrun⟩ := h
    obtain ⟨-, hadv, hle⟩ := step_next_bounds hstep
    have hcode := step_code hstep
    have hrest := ih hrun (hcode ▸ hle)
    rw [hcode] at hrest
    omega

/-- Every run ends: the bytes between the pc and the end of the program get fewer with each completed step. -/
theorem exists_reaches_stop (s : State) : ∃ n t, Reaches n s t ∧ ∀ u, step t ≠ .next u := by
  cases hstep : step s with
  | fault e => exact ⟨0, s, rfl, by simp [hstep]⟩
  | refused r => exact ⟨0, s, rfl, by simp [hstep]⟩
  | next u =>
    obtain ⟨n, t, hrun, hstop⟩ := exists_reaches_stop u
    exact ⟨n + 1, t, ⟨u, hstep, hrun⟩, hstop⟩
termination_by s.code.base.toNat + s.code.len - s.pc.toNat
decreasing_by
  obtain ⟨-, hadv, hle⟩ := step_next_bounds hstep
  rw [step_code hstep]
  omega

theorem step_stops_of_ne_next {s : State} (h : ∀ u, step s ≠ .next u) :
    (∃ e, step s = .fault e) ∨ ∃ r, step s = .refused r := by
  cases hstep : step s with
  | next u => exact absurd hstep (h u)
  | fault e => exact .inl ⟨e, rfl⟩
  | refused r => exact .inr ⟨r, rfl⟩

end Sys2Proof.Machine

open Sys2Proof Sys2Proof.Machine

/-! ## The fetch -/

/-- Settles O27: the byte the instruction lacks has an address of the mode, behind the last of the program. -/
theorem instructionPastTheProgramEndIsRefused : Obligations.InstructionPastTheProgramEndIsRefused := by
  intro s m i k hm hwf hk hcode hend haddr hcanon
  have houtside : inProgram (s.pc.toNat + k) s = false := by
    rw [← Bool.not_eq_true, inProgram_iff]
    omega
  have hstop : fetchStopAt m (s.pc.toNat + k) s = some .runsPastEnd := by
    rw [fetchStopAt_of_address haddr hcanon, if_pos houtside]
  exact step_of_cut_of_wf hm hwf hk hcode hstop

/-- Settles O29: the byte has an address of the mode and lies in the program, so its access decides. -/
theorem inaccessibleCodeIsRefused : Obligations.InaccessibleCodeIsRefused := by
  intro s m i k hm hwf hk hcode haddr hcanon hbase hlt hno
  have hinside : inProgram (s.pc.toNat + k) s = true := (inProgram_iff ..).mpr ⟨hbase, hlt⟩
  have hdenied : accessible s.access (s.pc.toNat + k) 1 = false :=
    Bool.eq_false_of_not_eq_true fun hacc => hno ((accessible_iff ..).mp hacc 0 one_pos)
  have hstop : fetchStopAt m (s.pc.toNat + k) s = some .fetchFault := by
    rw [fetchStopAt_of_address haddr hcanon, if_neg (by simp [hinside]), if_pos hdenied]
  exact step_of_cut_of_wf hm hwf hk hcode hstop

/-! ## The run -/

/-- Settles O58: at least 3 bytes a step in a program of `CODE_LEN` bound the run, and the state in which it stops is
final or not. -/
theorem everyRunEndsWithinAThirdOfTheProgram : Obligations.EveryRunEndsWithinAThirdOfTheProgram := by
  refine ⟨fun s t h => step_next_bounds h, fun s hpc => ?_⟩
  have hbounds {n : Nat} {t : State} (hrun : Reaches n s t) : 3 * n ≤ s.code.len ∧
      s.code.base.toNat ≤ t.pc.toNat ∧ t.pc.toNat ≤ s.code.base.toNat + s.code.len := by
    have := hrun.pc_bounds (by simp [hpc])
    rw [hpc] at this
    omega
  refine ⟨fun n t => hbounds, ?_, fun t hfinal => ?_, fun hempty => ?_⟩
  · obtain ⟨n, t, hrun, hstop⟩ := exists_reaches_stop s
    refine ⟨n, t, hrun, (hbounds hrun).1, ?_⟩
    by_cases hfinal : Final s t
    · exact .inl hfinal
    · exact .inr ⟨hpc, ⟨n, hrun⟩, hfinal, step_stops_of_ne_next hstop⟩
  · obtain ⟨-, -, hend⟩ := hfinal
    exact step_ne_next_of_end_le hend.ge
  · refine ⟨hpc, ⟨0, rfl⟩, fun ⟨_, ⟨n, hrun⟩, _⟩ => ?_, step_stops_of_ne_next (step_ne_next_of_end_le ?_)⟩
    · have := (hbounds hrun).1
      omega
    · simp [hpc, hempty]

end
